-- ==== Sys2Proof/Word.lean ====
section
/-! DEFINITION. The element of both memories and of the stream: the byte (00_scope.md R6 `BYTE`, R7).

Positions, lengths and counts are naturals: 00_scope.md R6 says of the `AW`-wide registers that "the rules treat
positions as unbounded naturals", and R8 that all arithmetic in pseudocode is on unbounded naturals. -/

namespace Sys2Proof

/-- One memory element, payload element or header: 8 bits (R6 `BYTE`). -/
abbrev Byte := BitVec 8

end Sys2Proof
end

