-- ==== Sys2Proof/Config.lean ====
section
/-! DEFINITION. The parameters of an instance (00_scope.md R6), the format's constants, and the free values.

The OPEN parameters are arguments of the model: they are plain data carried in State (field `params`), so that a
statement about every state is a statement about every value of them. No step changes them (log 3, 4). -/

namespace Sys2Proof

/-- The parameters of one instance of the block (00_scope.md R6, 92_eei_decisions.md D2, D4, D18, section 4). A capacity `none`
is unbounded; a width `none` means that positions are unbounded naturals, as R6 says the rules treat them. -/
structure Params where
  /-- `IN_CAP`: capacity of IN in bytes; OPEN. -/
  inCap : Option Nat
  /-- `OUT_CAP`: capacity of OUT in bytes; OPEN. -/
  outCap : Option Nat
  /-- `AW`: width in bits of the position registers (`IP`, `OLEN`, `P`, `IN_LEN`, ...); OPEN. -/
  aw : Option Nat
  /-- `CSR_MAP`: the bus addresses of the registers 0 to 6 of 10_state.md R24; OPEN, used by no rule (R6, D2). -/
  csrMap : Vector Nat 7
  /-- `ENC_EXT`: whether ENC may emit extended headers; default 1, 0 allowed (D18). -/
  encExt : Bool
  deriving DecidableEq, Repr

/-- The condition on `AW` (R6): `2^AW > max(IN_CAP, OUT_CAP)`. A finite width needs finite capacities. -/
def Params.legal (c : Params) : Bool :=
  match c.aw, c.inCap, c.outCap with
  | none, _, _ => true
  | some w, some a, some b => decide (max a b < 2 ^ w)
  | some _, none, _ => false
  | some _, some _, none => false

namespace Config

/-- The parameters `State.reset` takes: both capacities unbounded (D4: the model is then LZNINT's exactly), hence
no finite `AW`, each register at its own number, `ENC_EXT = 1` (D18). DESIGN CHOICE, log 3. -/
def standard : Params := { inCap := none, outCap := none, aw := none, csrMap := #v[0, 1, 2, 3, 4, 5, 6], encExt := true }

/-- `TERM`: the terminator byte (30_encoding.md R62). -/
def term : Byte := 0xFF#8

/-- `EXT_MAXLEN`: the largest length an extended header expresses (30_encoding.md R69). -/
def extMaxLen : Nat := 992

/-- The largest length a short header expresses (30_encoding.md R64). -/
def shortMaxLen : Nat := 32

/-- `ENC_MAXLEN`: the largest length ENC emits in one instruction (R6; 43_encoder.md R153, R176). -/
def encMaxLen (c : Params) : Nat := if c.encExt then extMaxLen else shortMaxLen

/-- `REL_WINDOW`: the largest distance ENC searches for kind 6 (R6, D21). -/
def relWindow : Nat := 255

/-- `ABS_WINDOW`: the number of source positions ENC searches for kind 4 (R6, D21). -/
def absWindow : Nat := 65536

/-- The `k`-th free value: a value the spec leaves unspecified ("any value", 93_implementation_defined.md). Nothing
constrains it (log 5). -/
opaque freeValue : Nat → Nat

/-- The byte IN reads as at a position the host has not written: any value (10_state.md R33, 93_implementation_defined.md U15).
The first argument is the count of power-on resets, since the contents are unspecified anew after each; the second is the
position. Nothing constrains it (log 2). -/
opaque freeIn : Nat → Nat → Byte

/-- The byte OUT shows at a position where the spec says any value (20_memory.md R58, U12, U13, U15), while the count of free
values is the first argument; the second is the position. Nothing constrains it (log 2, 8). -/
opaque freeOut : Nat → Nat → Byte

end Config

/-- Whether a capacity admits position `a` (20_memory.md R40, R41). -/
def capHas (cap : Option Nat) (a : Nat) : Bool :=
  match cap with
  | none => true
  | some c => decide (a < c)

/-- Whether a capacity admits `n` bytes (10_state.md R26, 60_exceptions.md R196). -/
def capFits (cap : Option Nat) (n : Nat) : Bool :=
  match cap with
  | none => true
  | some c => decide (n ≤ c)

end Sys2Proof
end

