-- ==== Sys2Proof/Syntax.lean ====
section
/-! DEFINITION. The instruction set: every row of spec/opcode_table.json (30_encoding.md R76) is one constructor.

A constructor carries the length field or fields as the header holds them (`n` of the short form, `h` and `l` of the
extended form) and the payload operands (30_encoding.md R71): a literal run, a fill byte, a fill pair, a start byte, a
16-bit position, a distance. Kind 5 and continuation kind 7 have no payload the spec defines (R71, R78). -/

namespace Sys2Proof

/-- The values of a 3-bit kind field (30_encoding.md R63, R64, R66, R70): the primitive kinds 0 to 6, and 7, which is the
extended form in a header byte and reserved in a continuation byte. -/
inductive Kind where
  | direct     -- 0, "Direct copy"
  | byteFill   -- 1, "Byte fill"
  | wordFill   -- 2, "Word fill"
  | incFill    -- 3, "Increasing fill"
  | repAbs     -- 4, "Repeat, absolute offset"
  | repAlt     -- 5, "Repeat, reserved/alternate addressing"
  | repRel     -- 6, "Repeat, relative offset"
  | seven      -- 7
  deriving DecidableEq, Repr

/-- One instruction of the compressed stream (30_encoding.md R61, R76). -/
inductive Instr where
  /-- `DCOPY` (R110): `n + 1` literal bytes. -/
  | dcopy (n : BitVec 5) (d : List Byte)
  /-- `BFILL` (R112): the byte `b`, `n + 1` times. -/
  | bfill (n : BitVec 5) (b : Byte)
  /-- `WFILL` (R114): `b0, b1, b0, …`, `n + 1` bytes. -/
  | wfill (n : BitVec 5) (b0 b1 : Byte)
  /-- `IFILL` (R116): `start, start + 1, …`, `n + 1` bytes. -/
  | ifill (n : BitVec 5) (start : Byte)
  /-- `RABS` (R132): copy `n + 1` bytes from output position `pos`. -/
  | rabs (n : BitVec 5) (pos : BitVec 16)
  /-- `RALT` (R134): kind 5, reserved. -/
  | ralt (n : BitVec 5)
  /-- `RREL` (R136): copy `n + 1` bytes from `dist` back. -/
  | rrel (n : BitVec 5) (dist : Byte)
  /-- `DCOPY.X` (R111). -/
  | dcopyX (h l : BitVec 5) (d : List Byte)
  /-- `BFILL.X` (R113). -/
  | bfillX (h l : BitVec 5) (b : Byte)
  /-- `WFILL.X` (R115). -/
  | wfillX (h l : BitVec 5) (b0 b1 : Byte)
  /-- `IFILL.X` (R117). -/
  | ifillX (h l : BitVec 5) (start : Byte)
  /-- `RABS.X` (R133). -/
  | rabsX (h l : BitVec 5) (pos : BitVec 16)
  /-- `RALT.X` (R135): extended kind 5, reserved. -/
  | raltX (h l : BitVec 5)
  /-- `RREL.X` (R137). -/
  | rrelX (h l : BitVec 5) (dist : Byte)
  /-- `EXT.RSVD` (R95): continuation kind 7, reserved. -/
  | extRsvd (h l : BitVec 5)
  /-- `END` (R97): the terminator. -/
  | endStream
  deriving DecidableEq, Repr

/-- The length of a short form: `L = n + 1` (30_encoding.md R64). -/
def shortLen (n : BitVec 5) : Nat := n.toNat + 1

/-- The length of an extended form: `L = h * 32 + l + 1` (30_encoding.md R66). -/
def extLen (h l : BitVec 5) : Nat := h.toNat * 32 + l.toNat + 1

end Sys2Proof
end

