-- ==== Sys2Proof/WellFormed.lean ====
section
/-! DEFINITION. Which terms of `Instr` are instructions of the format: the literal run has the length the header says
(30_encoding.md R72, R73), and the high length bits of an extended header are not all ones, since that first byte is the
terminator (R66, R69, R76). -/

namespace Sys2Proof

/-- The high half of an extended length may be 0 to 30 (30_encoding.md R69). -/
def extHighOk (h : BitVec 5) : Bool := h != 31#5

/-- The well-formed instructions. -/
def Instr.wellFormed : Instr → Bool
  | .dcopy n d => d.length == shortLen n
  | .bfill _ _ => true
  | .wfill _ _ _ => true
  | .ifill _ _ => true
  | .rabs _ _ => true
  | .ralt _ => true
  | .rrel _ _ => true
  | .dcopyX h l d => extHighOk h && d.length == extLen h l
  | .bfillX h _ _ => extHighOk h
  | .wfillX h _ _ _ => extHighOk h
  | .ifillX h _ _ => extHighOk h
  | .rabsX h _ _ => extHighOk h
  | .raltX h _ => extHighOk h
  | .rrelX h _ _ => extHighOk h
  | .extRsvd h _ => extHighOk h
  | .endStream => true

end Sys2Proof
end

