-- ==== Sys2Proof/Decode.lean ====
section
/-! DEFINITION. The Command Model as code (30_encoding.md, 10_state.md R23): the bit fields of the headers, the payload
sizes, the decoder (total on any bytes, rejecting by name) and the encoder, both written from R63 to R75. -/

namespace Sys2Proof

/-! ## Fields and headers -/

/-- The kind a 3-bit field names (R63, R70). -/
def Kind.ofBits (b : BitVec 3) : Kind :=
  match b.toNat with
  | 0 => .direct
  | 1 => .byteFill
  | 2 => .wordFill
  | 3 => .incFill
  | 4 => .repAbs
  | 5 => .repAlt
  | 6 => .repRel
  | _ => .seven

/-- The 3-bit field of a kind (R63). -/
def Kind.toBits : Kind → BitVec 3
  | .direct => 0#3
  | .byteFill => 1#3
  | .wordFill => 2#3
  | .incFill => 3#3
  | .repAbs => 4#3
  | .repAlt => 5#3
  | .repRel => 6#3
  | .seven => 7#3

/-- `H[7:5]`, the kind selector of a header byte (R63). -/
def selector (b : Byte) : BitVec 3 := b.extractLsb' 5 3

/-- `H[4:0]`, the low field of a header byte (R63). -/
def lowField (b : Byte) : BitVec 5 := b.extractLsb' 0 5

/-- `E[2:0]`, the kind field of a continuation byte (R66). -/
def contKind (b : Byte) : BitVec 3 := b.extractLsb' 0 3

/-- `E[7:3]`, the low half of `L - 1` in a continuation byte (R66). -/
def contLow (b : Byte) : BitVec 5 := b.extractLsb' 3 5

/-- The short header `(kind << 5) | (L - 1)` (R63, R67). -/
def shortByte (k : Kind) (n : BitVec 5) : Byte := k.toBits ++ n

/-- The first byte of an extended header, `0xE0 | h` (R66, R67). -/
def extByte (h : BitVec 5) : Byte := 7#3 ++ h

/-- The continuation byte, `(l << 3) | kind` (R66, R67). -/
def contByte (l : BitVec 5) (k : Kind) : Byte := l ++ k.toBits

/-- `paylen(kind, L)` (R72). Kind 5 has no payload size the spec defines and continuation kind 7 no payload (R71, R95):
0 stands there for "nothing is read past the header". -/
def payloadLen (k : Kind) (len : Nat) : Nat :=
  match k with
  | .direct => len
  | .byteFill => 1
  | .wordFill => 2
  | .incFill => 1
  | .repAbs => 2
  | .repAlt => 0
  | .repRel => 1
  | .seven => 0

/-- What the header decode of one instruction yields (40_decoder_loop.md R92, R93; 10_state.md R13): the header byte, the
continuation byte of an extended form, the kind and the length. -/
structure Header where
  first : Byte
  second : Option Byte
  kind : Kind
  len : Nat
  deriving DecidableEq, Repr

/-- `HL`, the number of header bytes (R64, R65). -/
def Header.headerLen (hd : Header) : Nat :=
  match hd.second with
  | none => 1
  | some _ => 2

/-- `HL + paylen(KIND, L)`, the encoded size (R68). -/
def Header.size (hd : Header) : Nat := hd.headerLen + payloadLen hd.kind hd.len

/-- The header of a short form (R64). -/
def shortHeader (k : Kind) (n : BitVec 5) : Header :=
  { first := shortByte k n, second := none, kind := k, len := shortLen n }

/-- The header of an extended form (R66). -/
def extHeader (k : Kind) (h l : BitVec 5) : Header :=
  { first := extByte h, second := some (contByte l k), kind := k, len := extLen h l }

/-- The 16-bit position `p1 : p0` (R74): little-endian, `p0` first in the stream. -/
def posOfBytes (p0 p1 : Byte) : BitVec 16 := p1 ++ p0

/-- The low byte of a position, first in the stream (R74). -/
def posLow (pos : BitVec 16) : Byte := pos.extractLsb' 0 8

/-- The high byte of a position, second in the stream (R74). -/
def posHigh (pos : BitVec 16) : Byte := pos.extractLsb' 8 8

/-! ## The decoder -/

/-- Why bytes are no complete instruction (30_encoding.md R79 (c), 40_decoder_loop.md R91, R93, R94). -/
inductive Reject where
  /-- No byte where a header would be (R91). -/
  | noHeader
  /-- An extended header byte with no continuation byte (R93). -/
  | noContinuation (first : Byte)
  /-- A header whose payload is not wholly there (R94). -/
  | noPayload (hd : Header)
  deriving DecidableEq, Repr

/-- What the decoder answers: an instruction and the bytes after it, or a rejection by name. -/
inductive Decoded where
  | ok (i : Instr) (rest : List Byte)
  | rejected (r : Reject)
  deriving DecidableEq, Repr

/-- The first `n` bytes and the rest, if there are `n`. -/
def takeBytes : Nat → List Byte → Option (List Byte × List Byte)
  | 0, bs => some ([], bs)
  | _ + 1, [] => none
  | n + 1, b :: bs =>
    match takeBytes n bs with
    | some (d, rest) => some (b :: d, rest)
    | none => none

/-- A payload of `L` literal bytes (R71, kind 0). -/
def payloadRun (hd : Header) (f : List Byte → Instr) (bs : List Byte) : Decoded :=
  match takeBytes hd.len bs with
  | some (d, rest) => .ok (f d) rest
  | none => .rejected (.noPayload hd)

/-- A payload of one byte (R71, kinds 1, 3, 6). -/
def payloadOne (hd : Header) (f : Byte → Instr) : List Byte → Decoded
  | b :: rest => .ok (f b) rest
  | [] => .rejected (.noPayload hd)

/-- A payload of two bytes, in stream order (R71, kinds 2, 4). -/
def payloadTwo (hd : Header) (f : Byte → Byte → Instr) : List Byte → Decoded
  | b0 :: b1 :: rest => .ok (f b0 b1) rest
  | [_] => .rejected (.noPayload hd)
  | [] => .rejected (.noPayload hd)

/-- An extended form after its two header bytes (R66, R70). -/
def decodeExt (h l : BitVec 5) (k : Kind) (bs : List Byte) : Decoded :=
  match k with
  | .direct => payloadRun (extHeader .direct h l) (fun d => .dcopyX h l d) bs
  | .byteFill => payloadOne (extHeader .byteFill h l) (fun b => .bfillX h l b) bs
  | .wordFill => payloadTwo (extHeader .wordFill h l) (fun b0 b1 => .wfillX h l b0 b1) bs
  | .incFill => payloadOne (extHeader .incFill h l) (fun b => .ifillX h l b) bs
  | .repAbs => payloadTwo (extHeader .repAbs h l) (fun p0 p1 => .rabsX h l (posOfBytes p0 p1)) bs
  | .repAlt => .ok (.raltX h l) bs
  | .repRel => payloadOne (extHeader .repRel h l) (fun b => .rrelX h l b) bs
  | .seven => .ok (.extRsvd h l) bs

/-- A header byte that is not the terminator (R64, R65). -/
def decodeHeader (first : Byte) (bs : List Byte) : Decoded :=
  let n := lowField first
  match Kind.ofBits (selector first) with
  | .direct => payloadRun (shortHeader .direct n) (fun d => .dcopy n d) bs
  | .byteFill => payloadOne (shortHeader .byteFill n) (fun b => .bfill n b) bs
  | .wordFill => payloadTwo (shortHeader .wordFill n) (fun b0 b1 => .wfill n b0 b1) bs
  | .incFill => payloadOne (shortHeader .incFill n) (fun b => .ifill n b) bs
  | .repAbs => payloadTwo (shortHeader .repAbs n) (fun p0 p1 => .rabs n (posOfBytes p0 p1)) bs
  | .repAlt => .ok (.ralt n) bs
  | .repRel => payloadOne (shortHeader .repRel n) (fun b => .rrel n b) bs
  | .seven =>
    match bs with
    | [] => .rejected (.noContinuation first)
    | second :: rest => decodeExt n (contLow second) (Kind.ofBits (contKind second)) rest

/-- The decoder, in the order of R68: the terminator, then the extended form, then the short form. -/
def decode : List Byte → Decoded
  | [] => .rejected .noHeader
  | first :: bs => if first = Config.term then .ok .endStream bs else decodeHeader first bs

/-! ## The encoder -/

/-- The bytes of a well-formed instruction in stream order (R63 to R75). Kind 5 and `EXT.RSVD` are their headers alone. -/
def encode : Instr → List Byte
  | .dcopy n d => shortByte .direct n :: d
  | .bfill n b => [shortByte .byteFill n, b]
  | .wfill n b0 b1 => [shortByte .wordFill n, b0, b1]
  | .ifill n start => [shortByte .incFill n, start]
  | .rabs n pos => [shortByte .repAbs n, posLow pos, posHigh pos]
  | .ralt n => [shortByte .repAlt n]
  | .rrel n dist => [shortByte .repRel n, dist]
  | .dcopyX h l d => extByte h :: contByte l .direct :: d
  | .bfillX h l b => [extByte h, contByte l .byteFill, b]
  | .wfillX h l b0 b1 => [extByte h, contByte l .wordFill, b0, b1]
  | .ifillX h l start => [extByte h, contByte l .incFill, start]
  | .rabsX h l pos => [extByte h, contByte l .repAbs, posLow pos, posHigh pos]
  | .raltX h l => [extByte h, contByte l .repAlt]
  | .rrelX h l dist => [extByte h, contByte l .repRel, dist]
  | .extRsvd h l => [extByte h, contByte l .seven]
  | .endStream => [Config.term]

/-- The header of an instruction; the terminator has none (R62). -/
def Instr.header : Instr → Option Header
  | .dcopy n _ => some (shortHeader .direct n)
  | .bfill n _ => some (shortHeader .byteFill n)
  | .wfill n _ _ => some (shortHeader .wordFill n)
  | .ifill n _ => some (shortHeader .incFill n)
  | .rabs n _ => some (shortHeader .repAbs n)
  | .ralt n => some (shortHeader .repAlt n)
  | .rrel n _ => some (shortHeader .repRel n)
  | .dcopyX h l _ => some (extHeader .direct h l)
  | .bfillX h l _ => some (extHeader .byteFill h l)
  | .wfillX h l _ _ => some (extHeader .wordFill h l)
  | .ifillX h l _ => some (extHeader .incFill h l)
  | .rabsX h l _ => some (extHeader .repAbs h l)
  | .raltX h l => some (extHeader .repAlt h l)
  | .rrelX h l _ => some (extHeader .repRel h l)
  | .extRsvd h l => some (extHeader .seven h l)
  | .endStream => none

/-- The encoded size of an instruction, `HL + paylen(KIND, L)` (R68, R72); 1 for the terminator. -/
def Instr.size (i : Instr) : Nat :=
  match i.header with
  | some hd => hd.size
  | none => 1

/-- The header bytes for kind `k` and length `len`, as ENC writes them: the short form up to 32, else the extended form
(R67, 43_encoder.md R164). -/
def headerBytes (k : Kind) (len : Nat) : List Byte :=
  if len ≤ Config.shortMaxLen then [shortByte k (BitVec.ofNat 5 (len - 1))]
  else [extByte (BitVec.ofNat 5 ((len - 1) >>> 5)), contByte (BitVec.ofNat 5 ((len - 1) &&& 0x1F)) k]

/-! ## Words of the opcode table -/

/-- The bytes of a table word of `nbits` bits in stream order. R77: an extended row is the 16-bit number `H : E` with the
header byte in bits 15:8, so the most significant byte of the word comes first in the stream (log 16). -/
def tableBytes (nbits w : Nat) : List Byte :=
  let k := nbits / 8
  (List.range k).map fun i => BitVec.ofNat 8 (w >>> (8 * (k - 1 - i)))

/-- The table word's bytes followed by zeros enough for the longest payload (992 bytes, R111). -/
def tableStream (nbits w : Nat) : List Byte := tableBytes nbits w ++ List.replicate Config.extMaxLen 0#8

/-- The instruction the decoder reads from a table word, every byte after the word being 0. -/
def decodeTableWord (nbits w : Nat) : Option Instr :=
  match decode (tableStream nbits w) with
  | .ok i _ => some i
  | .rejected _ => none

end Sys2Proof
end

