-- ==== Sys2Proof/Machine/State.lean ====
section
/-! DEFINITION. The state of the block as plain data (10_state.md R11 to R31, 20_memory.md R40, R41), its reset
(R33, 70_reset_and_hazards.md R220), and the reasons a step of the model can stop. -/

namespace Sys2Proof.Machine

/-- A memory space as its written bytes: (position, byte) pairs, positions strictly rising. What an unlisted position reads as is
a free value (R33: IN and OUT are unspecified until written; log 2). -/
abbrev Mem := List Host.Cell

/-- The two engines (R10), and the two values of `CTRL.OP` (R25): 0 selects decompress, 1 compress. -/
inductive Engine where
  | decompress
  | compress
  deriving DecidableEq, Repr

/-- The run state `STATE` (R20). -/
inductive RunState where
  | idle
  | busy
  | done
  | error
  deriving DecidableEq, Repr

/-- The fault causes, the values of `ERR` (R28, 60_exceptions.md R190). -/
inductive ErrCode where
  | none
  | truncated
  | invalidOffset
  | unsupportedKind
  | reservedEncoding
  | outputOverflow
  deriving DecidableEq, Repr

/-- The decoder's instruction and operand latches (R13, R14). They are written where the pseudocode writes them
(log 22) and read by the same instruction only (log 7). `L` has the 11 bits of R13 and R84 where 92_eei_decisions.md D3 says 10,
which the lengths 1 to 992 fit as well (log 26). -/
structure DecLatch where
  h : BitVec 8
  e : BitVec 8
  kind : BitVec 3
  len : BitVec 11
  hl : BitVec 2
  b0 : BitVec 8
  b1 : BitVec 8
  pos : BitVec 16
  dist : BitVec 8
  src : Nat
  idx : BitVec 11
  deriving DecidableEq, Repr

/-- The decoder engine: `DEC.IP` (R11), `DEC.OLEN` (R12) and the latches. `DEC.EOS` is `State.eos`. -/
structure DecRegs where
  ip : Nat
  olen : Nat
  latch : DecLatch
  deriving DecidableEq, Repr

/-- A candidate of the encoder: a kind, a length and its payload bytes (R19 `SEL`, 43_encoder.md R163). -/
structure Cand where
  kind : Kind
  len : Nat
  payload : List Byte
  deriving DecidableEq, Repr

end Sys2Proof.Machine

namespace Sys2Proof.Config

/-- The `k`-th free selected candidate: the latch `SEL` is unspecified at call start (10_state.md R19, R33; log 6). Nothing
constrains it. -/
opaque freeSel : Nat → Option Sys2Proof.Machine.Cand

end Sys2Proof.Config

namespace Sys2Proof.Machine

/-- The encoder's candidate latches (R19): the lengths found by the five scans, the winning distance and position, and the
selected candidate. -/
structure EncLatch where
  lb : BitVec 11
  lw : BitVec 11
  li : BitVec 11
  lr : BitVec 11
  la : BitVec 11
  dr : BitVec 8
  pa : BitVec 16
  sel : Option Cand
  deriving DecidableEq, Repr

/-- The encoder engine: `ENC.N`, `ENC.P` (R16), `ENC.OLEN` (R17), the pending direct run (R18) and the latches. -/
structure EncRegs where
  n : Nat
  p : Nat
  olen : Nat
  litStart : Nat
  litLen : BitVec 11
  latch : EncLatch
  deriving DecidableEq, Repr

/-- The host registers, numbered 0 to 6 (R24). -/
inductive HostReg where
  | ctrl
  | inLen
  | status
  | err
  | errPos
  | inPos
  | outLen
  deriving DecidableEq, Repr

/-- What the host can do (R24 to R32, 70_reset_and_hazards.md R220 to R226). Writes exist for the registers the host may
write (R24; log 17). -/
inductive HostOp where
  /-- Write `CTRL`: bit 0 is START, bit 1 is OP (R25). -/
  | writeCtrl (v : BitVec 2)
  /-- Write `IN_LEN` (R26). -/
  | writeInLen (n : Nat)
  /-- Write one byte of IN (R223). -/
  | writeIn (pos : Nat) (b : Byte)
  /-- Read a register (R24). -/
  | readReg (r : HostReg)
  /-- Read one byte of OUT (R226). -/
  | readOut (pos : Nat)
  /-- Power-on reset (R220). -/
  | powerOnReset
  deriving DecidableEq, Repr

/-- One turn of the host's schedule: the host does nothing and the block takes its step, or the host acts (log 9). -/
inductive HostTurn where
  | quiet
  | act (o : HostOp)
  deriving DecidableEq, Repr

/-- The block. -/
structure State where
  /-- The instance's parameters (00_scope.md R6), which no step changes. -/
  params : Params
  /-- The IN space (20_memory.md R40). -/
  inMem : Mem
  /-- The OUT space (20_memory.md R41). -/
  outMem : Mem
  /-- `CTRL.OP` (R25). `CTRL.START` holds no state. -/
  op : Engine
  /-- `IN_LEN` (R26). -/
  inLen : Nat
  /-- `STATUS.STATE` (R20, R27). -/
  run : RunState
  /-- `DEC.EOS` and `STATUS.EOS` (R15, R27), one bit. -/
  eos : Bool
  /-- `ERR` (R28). -/
  err : ErrCode
  /-- `ERR_POS` (R29). -/
  errPos : Nat
  /-- `IN_POS` (R30). -/
  inPos : Nat
  /-- `OUT_LEN` (R31). -/
  outLen : Nat
  /-- The decoder engine. -/
  dec : DecRegs
  /-- The encoder engine. -/
  enc : EncRegs
  /-- The host's turns still to come: the model's own field (log 9). -/
  host : List HostTurn
  /-- What the host's last read returned: the model's own field (log 11). -/
  hostData : Nat
  /-- The number of free values taken so far: the model's own field (log 5). -/
  fresh : Nat
  /-- The number of power-on resets so far, which tells one unspecified contents of IN from the next: the model's own field
  (log 2). -/
  resets : Nat
  deriving DecidableEq, Repr

/-- The reasons the model stops: two accesses of the host to positions that do not exist. No instruction and no engine stops: the
spec's own faults enter `ERROR` (60_exceptions.md R198), which is a next state. -/
inductive Fault where
  /-- Raised by a host write to an IN position at or above `IN_CAP`, which does not exist (R40). Safe. -/
  | inPositionAbsent
  /-- Raised by a host read of an OUT position at or above `OUT_CAP`, which does not exist (R41). Safe. -/
  | outPositionAbsent
  deriving DecidableEq, Repr

/-- The reasons the model gives a step no meaning. -/
inductive Refusal where
  /-- The dispatch of an instruction that has no meaning yet. No arm of this model raises it. Safe. -/
  | notModelled (mnemonic : String)
  /-- Raised by a host access other than a read of `STATUS` while `STATE = BUSY`: it has no meaning (R32, R228,
  92_eei_decisions.md D1, D14). Safe. -/
  | hostAccessWhileBusy
  /-- Raised by a host write of `IN_LEN` with a value that `AW` bits cannot hold: the register has no such value (R26; log 25).
  Safe. -/
  | inLenOverWidth
  /-- Raised by START with `IN_LEN > IN_CAP` (R32). Safe. -/
  | startInLenOverCap
  deriving DecidableEq, Repr

/-- The values the model names for the decoder's latches at power-on reset (R33: unspecified; log 1). -/
def DecLatch.zero : DecLatch :=
  { h := 0, e := 0, kind := 0, len := 0, hl := 0, b0 := 0, b1 := 0, pos := 0, dist := 0, src := 0, idx := 0 }

/-- The values the model names for the encoder's latches at power-on reset (R33: unspecified; log 1). -/
def EncLatch.zero : EncLatch :=
  { lb := 0, lw := 0, li := 0, lr := 0, la := 0, dr := 0, pa := 0, sel := none }

/-- The block with parameters `c` right after power-on reset (R33, R220): `STATE = IDLE`, `EOS = 0`, `ERR = 0`,
`OUT_LEN = 0`, `CTRL = 0`, both buffers unspecified, every other register at a value log 1 names. -/
def State.resetWith (c : Params) : State :=
  { params := c
    inMem := []
    outMem := []
    op := .decompress
    inLen := 0
    run := .idle
    eos := false
    err := .none
    errPos := 0
    inPos := 0
    outLen := 0
    dec := { ip := 0, olen := 0, latch := DecLatch.zero }
    enc := { n := 0, p := 0, olen := 0, litStart := 0, litLen := 0, latch := EncLatch.zero }
    host := []
    hostData := 0
    fresh := 0
    resets := 0 }

/-- The machine right after reset, with the standard parameters (log 3). -/
def State.reset : State := State.resetWith Config.standard

/-- What a step of this machine answers. -/
abbrev Answer := Host.Outcome State Fault Refusal

end Sys2Proof.Machine
end

