-- ==== Sys2Proof/Machine/Ops.lean ====
section
/-! DEFINITION. The named operations: reading and writing a memory space (20_memory.md R45, R46), the fault entry
(60_exceptions.md R198), the normal end (40_decoder_loop.md R99, 43_encoder.md R169), the capacity test (R196), the call
start (70_reset_and_hazards.md R221) and power-on reset (R220). -/

namespace Sys2Proof.Machine

/-! ## Memory -/

/-- The byte at position `a`, if one was written (R45). -/
def Mem.byteAt : Mem → Nat → Option Byte
  | [], _ => none
  | (k, v) :: m, a => if a = k then some v else Mem.byteAt m a

/-- The byte read at position `a`: the one written there (R45), else the free value `free a` (R33; log 2). -/
def Mem.readOr (free : Nat → Byte) (m : Mem) (a : Nat) : Byte :=
  match m.byteAt a with
  | some b => b
  | none => free a

/-- Store `b` at position `a` (R46), in the canonical form. -/
def Mem.store : Mem → Nat → Byte → Mem
  | [], a, b => [(a, b)]
  | (k, v) :: m, a, b =>
    if a < k then (a, b) :: (k, v) :: m
    else if a = k then (k, b) :: m
    else (k, v) :: Mem.store m a b

/-- `MemWrite(S, a, n, v)`: the bytes in ascending position order (R46). -/
def Mem.storeRun : Mem → Nat → List Byte → Mem
  | m, _, [] => m
  | m, a, b :: bs => Mem.storeRun (Mem.store m a b) (a + 1) bs

/-- The bytes at positions `a, a + 1, …`, up to `n` of them, ending before the first position nothing has written. -/
def Mem.runFrom (m : Mem) (a : Nat) : Nat → List Byte
  | 0 => []
  | n + 1 =>
    match Mem.byteAt m a with
    | some b => b :: Mem.runFrom m (a + 1) n
    | none => []

/-- `MemRead(IN, a, 1)` (R45): what the host wrote there, else a free value (R33, U15; log 2). -/
def inByte (s : State) (a : Nat) : Byte := s.inMem.readOr (Config.freeIn s.resets) a

/-- `MemRead(IN, a, n)` (R45), as the `n` single reads in ascending order. -/
def inBytes (s : State) (a n : Nat) : List Byte := (List.range n).map fun k => inByte s (a + k)

/-- `MemRead(OUT, a, 1)` (R45): what the run wrote there, else a free value (R33, U15; log 2). -/
def outByte (s : State) (a : Nat) : Byte := s.outMem.readOr (Config.freeOut s.fresh) a

/-- Every listed position is above `a`, and the positions rise strictly. -/
def Mem.risesAbove : Mem → Nat → Bool
  | [], _ => true
  | (k, _) :: m, a => decide (a < k) && Mem.risesAbove m k

/-- The canonical form: positions strictly rising. -/
def Mem.wf : Mem → Bool
  | [] => true
  | (k, _) :: m => Mem.risesAbove m k

/-! ## Ends of a run -/

/-- `raise F(pos)`, the fault entry of 60_exceptions.md R198, of the engine `e`: `ERR`, `ERR_POS`, `OUT_LEN <- 0`, the
engine's `OLEN <- 0`, `STATE <- ERROR`, and nothing else. -/
def raise (e : Engine) (f : ErrCode) (pos : Nat) (s : State) : State :=
  match e with
  | .decompress =>
    { s with err := f, errPos := pos, outLen := 0, dec := { s.dec with olen := 0 }, run := .error }
  | .compress =>
    { s with err := f, errPos := pos, outLen := 0, enc := { s.enc with olen := 0 }, run := .error }

/-- `stop OK` of a DEC run (40_decoder_loop.md R99) with the given `EOS`. -/
def stopDec (eos : Bool) (s : State) : State :=
  { s with inPos := s.dec.ip, outLen := s.dec.olen, eos := eos, run := .done }

/-- `stop OK` of an ENC run (43_encoder.md R169). -/
def stopEnc (s : State) : State :=
  { s with inPos := s.enc.n, outLen := s.enc.olen, run := .done }

/-- The capacity test of 60_exceptions.md R196: whether `n` more bytes would pass `OUT_CAP`. -/
def overflows (c : Params) (olen n : Nat) : Bool := !capFits c.outCap (olen + n)

/-! ## Call start and reset -/

/-- A free value of `w` bits. -/
def freeBits (w k : Nat) : BitVec w := BitVec.ofNat w (Config.freeValue k)

/-- Whether a number fits a register of width `AW` (00_scope.md R6). -/
def fitsWidth (aw : Option Nat) (n : Nat) : Bool :=
  match aw with
  | none => true
  | some w => decide (n < 2 ^ w)

/-- What a register of width `AW` holds of a number: its low `AW` bits, the number itself when it fits. -/
def toWidth (aw : Option Nat) (n : Nat) : Nat :=
  match aw with
  | none => n
  | some w => n % 2 ^ w

/-- A free value of width `AW`. -/
def freePos (c : Params) (k : Nat) : Nat := toWidth c.aw (Config.freeValue k)

/-- How many free values a call start takes. -/
def freeAtStart : Nat := 32

/-- The decoder's latches, unspecified (R13, R14, R33; log 6): free values from number `k`. -/
def DecLatch.free (c : Params) (k : Nat) : DecLatch :=
  { h := freeBits 8 k
    e := freeBits 8 (k + 1)
    kind := freeBits 3 (k + 2)
    len := freeBits 11 (k + 3)
    hl := freeBits 2 (k + 4)
    b0 := freeBits 8 (k + 5)
    b1 := freeBits 8 (k + 6)
    pos := freeBits 16 (k + 7)
    dist := freeBits 8 (k + 8)
    src := freePos c (k + 9)
    idx := freeBits 11 (k + 10) }

/-- The encoder's candidate latches, unspecified (R19, R33; log 6): free values from number `k`. -/
def EncLatch.free (k : Nat) : EncLatch :=
  { lb := freeBits 11 k
    lw := freeBits 11 (k + 1)
    li := freeBits 11 (k + 2)
    lr := freeBits 11 (k + 3)
    la := freeBits 11 (k + 4)
    dr := freeBits 8 (k + 5)
    pa := freeBits 16 (k + 6)
    sel := Config.freeSel k }

/-- What call start does whichever engine is selected (R221, R33): the previous result is lost, so `ERR_POS` and `IN_POS`
hold free values (log 6) and OUT holds no byte (log 20). -/
def startCommon (e : Engine) (s : State) : State :=
  { s with
    op := e
    run := .busy
    err := .none
    eos := false
    outLen := 0
    errPos := freePos s.params s.fresh
    inPos := freePos s.params (s.fresh + 1)
    outMem := []
    fresh := s.fresh + freeAtStart }

/-- Call start of a DEC run (R221). -/
def startDec (s : State) : State :=
  { startCommon .decompress s with dec := { ip := 0, olen := 0, latch := DecLatch.free s.params (s.fresh + 2) } }

/-- Call start of an ENC run (R221). `LIT_START` is unspecified until written (R18; log 6). -/
def startEnc (s : State) : State :=
  { startCommon .compress s with
    enc :=
      { n := s.inLen
        p := 0
        olen := 0
        litStart := freePos s.params (s.fresh + 13)
        litLen := 0
        latch := EncLatch.free (s.fresh + 14) } }

/-- Power-on reset (R220), also during a run: every register at its reset value, both buffers unspecified. The host's
schedule, the host's last read and the two counts are the model's own and go on; the counts move by one, since the buffers'
contents are unspecified anew (log 21). -/
def powerOn (s : State) : State :=
  { State.resetWith s.params with host := s.host, hostData := s.hostData, fresh := s.fresh + 1, resets := s.resets + 1 }

end Sys2Proof.Machine
end

