-- ==== Sys2Proof/Machine/Operands.lean ====
section
/-! DEFINITION. The operand forms of the instruction set: the bytes a fill produces (41_direct_and_fill.md R112, R114,
R116), the source of a repeat and its check (42_repeat.md R131), the overlapping copy (R130), and the decoder latches an
instruction's header and operands are held in (10_state.md R13, R14). -/

namespace Sys2Proof.Machine

/-- `L` bytes `b` (R112). -/
def byteFillBytes (len : Nat) (b : Byte) : List Byte := List.replicate len b

/-- `b0, b1, b0, …`, `L` bytes (R114). -/
def wordFillBytes (len : Nat) (b0 b1 : Byte) : List Byte :=
  (List.range len).map fun i => if i % 2 = 0 then b0 else b1

/-- `start, start + 1, …` modulo 256, `L` bytes (R116). -/
def incFillBytes (len : Nat) (start : Byte) : List Byte :=
  (List.range len).map fun i => start + BitVec.ofNat 8 i

/-- The source of kind 4 and its check (R131, R132): `SRC = pos`, which must be below `OLEN`. -/
def absSource (pos : BitVec 16) (olen : Nat) : Option Nat :=
  if olen ≤ pos.toNat then none else some pos.toNat

/-- The source of kind 6 and its check (R131, R136): `SRC = OLEN - dist`, with `dist` neither 0 nor above `OLEN`. -/
def relSource (dist : Byte) (olen : Nat) : Option Nat :=
  if dist.toNat = 0 ∨ olen < dist.toNat then none else some (olen - dist.toNat)

/-- The overlapping copy (R130): `n` single-byte moves in ascending order, each reading OUT and then writing OUT, so that
a move reads what the earlier moves wrote (20_memory.md R51). A position below `OLEN` that holds no byte reads as `free` (log 2);
no run meets one (R138). -/
def copyBytes (free : Nat → Byte) : Nat → Nat → Nat → Mem → Mem
  | 0, _, _, m => m
  | n + 1, src, dst, m => copyBytes free n (src + 1) (dst + 1) (m.store dst (m.readOr free src))

/-! ## Latches -/

/-- Write latches of the decoder. -/
def latchOperands (f : DecLatch → DecLatch) (s : State) : State :=
  { s with dec := { s.dec with latch := f s.dec.latch } }

/-- `H`, `E`, `KIND`, `L`, `HL` of a header (R13; 40_decoder_loop.md R92, R93). A short form writes no `E`. -/
def headerLatch (hd : Header) (l : DecLatch) : DecLatch :=
  { l with
    h := hd.first
    e := hd.second.getD l.e
    kind := hd.kind.toBits
    len := BitVec.ofNat 11 hd.len
    hl := BitVec.ofNat 2 hd.headerLen }

/-- `H` alone (R92), before the terminator or a missing continuation byte ends the run. -/
def firstLatch (b : Byte) (l : DecLatch) : DecLatch := { l with h := b }

/-- Write the header latches of an instruction (R13). -/
def latchHeader (hd : Header) (s : State) : State := latchOperands (headerLatch hd) s

/-- Write the latch of a header byte alone. -/
def latchFirst (b : Byte) (s : State) : State := latchOperands (firstLatch b) s

/-- Kind 0 has no operand latch. -/
def literalLatch (l : DecLatch) : DecLatch := l

/-- `B0` of kinds 1 and 3 (R14). -/
def byteLatch (b : Byte) (l : DecLatch) : DecLatch := { l with b0 := b }

/-- `B0`, `B1` of kind 2 (R14). -/
def pairLatch (b0 b1 : Byte) (l : DecLatch) : DecLatch := { l with b0 := b0, b1 := b1 }

/-- `POS` of kind 4, and `SRC <- POS` before the check (R132). `SRC` is `AW` bits wide: where `AW` is below 16 it holds the low
bits of a position that does not fit, which the check, made on `POS` itself, then refuses (log 22). -/
def posLatch (aw : Option Nat) (pos : BitVec 16) (l : DecLatch) : DecLatch :=
  { l with pos := pos, src := toWidth aw pos.toNat }

/-- `DIST` of kind 6 (R136). -/
def distLatch (dist : Byte) (l : DecLatch) : DecLatch := { l with dist := dist }

/-- `SRC` once the source check has passed (R132, R136). -/
def srcLatch (src : Nat) (l : DecLatch) : DecLatch := { l with src := src }

end Sys2Proof.Machine
end

