-- ==== Sys2Proof/Machine/Direct.lean ====
section
/-! DEFINITION. The meanings of kinds 0 to 3 (41_direct_and_fill.md R110 to R117), each over one shared operation that
follows the loop of 40_decoder_loop.md R90: header latches, payload presence (R94), capacity
(60_exceptions.md R196), operand latches, the writes, then `OLEN` and `IP` (R96, R98). -/

namespace Sys2Proof.Machine

/-- Whether the payload is not wholly inside `IN[0 .. IN_LEN)` (R94): `IP + HL + paylen > IN_LEN`. -/
def payloadMissing (hd : Header) (s : State) : Bool := decide (s.inLen < s.dec.ip + hd.size)

/-- Append the bytes an instruction of kinds 0 to 3 produces and complete it: OUT, the byte counter `I` (log 22), `OLEN`,
`IP`. -/
def appendBytes (hd : Header) (bs : List Byte) (s : State) : State :=
  { s with
    outMem := s.outMem.storeRun s.dec.olen bs
    dec :=
      { ip := s.dec.ip + hd.size
        olen := s.dec.olen + hd.len
        latch := { s.dec.latch with idx := BitVec.ofNat 11 (hd.len - 1) } } }

/-- An instruction of kinds 0 to 3 with header `hd`, operand latches `f` and output bytes `bs` (R90, R94, R98, R196). In the
order of R90 the capacity test comes before the pseudocode of R112, R114 and R116 loads `B0` and `B1`: an instruction that raises
`OutputOverflow` leaves them as they were, which is the model's reading where R14 leaves them unspecified (log 22). -/
def runAppend (hd : Header) (f : DecLatch → DecLatch) (bs : List Byte) (s : State) : Answer :=
  if payloadMissing hd s then .next (raise .decompress .truncated s.dec.ip (latchHeader hd s))
  else if overflows s.params s.dec.olen hd.len then
    .next (raise .decompress .outputOverflow s.dec.ip (latchHeader hd s))
  else .next (appendBytes hd bs (latchOperands f (latchHeader hd s)))

/-- `DCOPY` (R110). -/
def execDcopy (n : BitVec 5) (d : List Byte) (s : State) : Answer :=
  runAppend (shortHeader .direct n) literalLatch d s

/-- `DCOPY.X` (R111). -/
def execDcopyX (h l : BitVec 5) (d : List Byte) (s : State) : Answer :=
  runAppend (extHeader .direct h l) literalLatch d s

/-- `BFILL` (R112). -/
def execBfill (n : BitVec 5) (b : Byte) (s : State) : Answer :=
  runAppend (shortHeader .byteFill n) (byteLatch b) (byteFillBytes (shortLen n) b) s

/-- `BFILL.X` (R113). -/
def execBfillX (h l : BitVec 5) (b : Byte) (s : State) : Answer :=
  runAppend (extHeader .byteFill h l) (byteLatch b) (byteFillBytes (extLen h l) b) s

/-- `WFILL` (R114). -/
def execWfill (n : BitVec 5) (b0 b1 : Byte) (s : State) : Answer :=
  runAppend (shortHeader .wordFill n) (pairLatch b0 b1) (wordFillBytes (shortLen n) b0 b1) s

/-- `WFILL.X` (R115). -/
def execWfillX (h l : BitVec 5) (b0 b1 : Byte) (s : State) : Answer :=
  runAppend (extHeader .wordFill h l) (pairLatch b0 b1) (wordFillBytes (extLen h l) b0 b1) s

/-- `IFILL` (R116). -/
def execIfill (n : BitVec 5) (start : Byte) (s : State) : Answer :=
  runAppend (shortHeader .incFill n) (byteLatch start) (incFillBytes (shortLen n) start) s

/-- `IFILL.X` (R117). -/
def execIfillX (h l : BitVec 5) (start : Byte) (s : State) : Answer :=
  runAppend (extHeader .incFill h l) (byteLatch start) (incFillBytes (extLen h l) start) s

end Sys2Proof.Machine
end

