-- ==== Sys2Proof/Machine/Flags.lean ====
section
/-! DEFINITION. The flags and the status word. The format has no condition codes: no instruction reads a flag, and `EOS` is
the only one the decoder has (10_state.md R15, R22). This file gives `EOS`'s two values (40_decoder_loop.md R91, R97) and
the words the host reads (R25, R27, R28). -/

namespace Sys2Proof.Machine

/-- `EOS` when the run ends by consuming the terminator (R97). -/
def eosTerminator : Bool := true

/-- `EOS` when the run ends because IN is exhausted at an instruction boundary (R91). -/
def eosExhausted : Bool := false

/-- The coding of `STATE` in `STATUS[1:0]` (R27). -/
def RunState.code : RunState → BitVec 2
  | .idle => 0#2
  | .busy => 1#2
  | .done => 2#2
  | .error => 3#2

/-- The `STATUS` word: `EOS` in bit 2, `STATE` in bits 1:0 (R27). -/
def statusWord (s : State) : BitVec 3 := BitVec.ofBool s.eos ++ s.run.code

/-- The coding of `ERR` (R28, 60_exceptions.md R190). -/
def ErrCode.code : ErrCode → BitVec 3
  | .none => 0#3
  | .truncated => 1#3
  | .invalidOffset => 2#3
  | .unsupportedKind => 3#3
  | .reservedEncoding => 4#3
  | .outputOverflow => 5#3

/-- The engine `CTRL.OP` selects (R25; both engines are there, log 18). -/
def Engine.ofOp (b : Bool) : Engine := if b then .compress else .decompress

/-- The bit of `CTRL.OP` (R25). -/
def Engine.opBit : Engine → Bool
  | .decompress => false
  | .compress => true

/-- The `CTRL` word as it reads: `OP` in bit 1, `START` reads 0 (R25, R33; log 13). -/
def ctrlWord (s : State) : BitVec 2 := BitVec.ofBool s.op.opBit ++ 0#1

end Sys2Proof.Machine
end

