-- ==== Sys2Proof/Machine/Loop.lean ====
section
/-! DEFINITION. The instructions of the decoder's loop itself (40_decoder_loop.md): `END` (R97) and `EXT.RSVD` (R95). -/

namespace Sys2Proof.Machine

/-- `END` (R97): `IP <- IP + 1`, `EOS <- 1`, `stop OK`. -/
def execEndStream (s : State) : Answer :=
  let fetched := latchFirst Config.term s
  .next (stopDec eosTerminator { fetched with dec := { fetched.dec with ip := s.dec.ip + 1 } })

/-- `EXT.RSVD` (R95): always `ReservedEncoding`. -/
def execExtRsvd (h l : BitVec 5) (s : State) : Answer :=
  .next (raise .decompress .reservedEncoding s.dec.ip (latchHeader (extHeader .seven h l) s))

end Sys2Proof.Machine
end

