-- ==== Sys2Proof/Machine/Repeat.lean ====
section
/-! DEFINITION. The meanings of kinds 4 to 6 (42_repeat.md R130 to R137): the repeats over one shared operation in the
order of R90 and 60_exceptions.md R197 (payload, source, capacity, then the copy), and kind 5, which always raises
`UnsupportedKind`. -/

namespace Sys2Proof.Machine

/-- Complete a repeat whose copy left OUT as `m`: OUT, `I`, `OLEN`, `IP` (R130, R96). -/
def finishCopy (hd : Header) (m : Mem) (s : State) : State :=
  { s with
    outMem := m
    dec :=
      { ip := s.dec.ip + hd.size
        olen := s.dec.olen + hd.len
        latch := { s.dec.latch with idx := BitVec.ofNat 11 (hd.len - 1) } } }

/-- A repeat with header `hd`, operand latches `f` and the checked source `src` (R131, R132, R136). -/
def runRepeat (hd : Header) (f : DecLatch → DecLatch) (src : Option Nat) (s : State) : Answer :=
  if payloadMissing hd s then .next (raise .decompress .truncated s.dec.ip (latchHeader hd s))
  else
    match src with
    | none => .next (raise .decompress .invalidOffset s.dec.ip (latchOperands f (latchHeader hd s)))
    | some a =>
      let loaded := latchOperands (srcLatch a) (latchOperands f (latchHeader hd s))
      if overflows s.params s.dec.olen hd.len then
        .next (raise .decompress .outputOverflow s.dec.ip loaded)
      else
        .next (finishCopy hd (copyBytes (Config.freeOut s.fresh) hd.len a s.dec.olen s.outMem) loaded)

/-- `RABS` (R132). -/
def execRabs (n : BitVec 5) (pos : BitVec 16) (s : State) : Answer :=
  runRepeat (shortHeader .repAbs n) (posLatch s.params.aw pos) (absSource pos s.dec.olen) s

/-- `RABS.X` (R133). -/
def execRabsX (h l : BitVec 5) (pos : BitVec 16) (s : State) : Answer :=
  runRepeat (extHeader .repAbs h l) (posLatch s.params.aw pos) (absSource pos s.dec.olen) s

/-- `RREL` (R136). -/
def execRrel (n : BitVec 5) (dist : Byte) (s : State) : Answer :=
  runRepeat (shortHeader .repRel n) (distLatch dist) (relSource dist s.dec.olen) s

/-- `RREL.X` (R137). -/
def execRrelX (h l : BitVec 5) (dist : Byte) (s : State) : Answer :=
  runRepeat (extHeader .repRel h l) (distLatch dist) (relSource dist s.dec.olen) s

/-- `RALT` (R134): raised as soon as the kind is known, before any payload test. -/
def execRalt (n : BitVec 5) (s : State) : Answer :=
  .next (raise .decompress .unsupportedKind s.dec.ip (latchHeader (shortHeader .repAlt n) s))

/-- `RALT.X` (R135). -/
def execRaltX (h l : BitVec 5) (s : State) : Answer :=
  .next (raise .decompress .unsupportedKind s.dec.ip (latchHeader (extHeader .repAlt h l) s))

end Sys2Proof.Machine
end

