-- ==== Sys2Proof/Machine/Dispatch.lean ====
section
/-! DEFINITION. The dispatch (40_decoder_loop.md R98): one arm per row of spec/opcode_table.json. -/

namespace Sys2Proof.Machine

def exec (i : Instr) (s : State) : Host.Outcome State Fault Refusal :=
  match i with
  | .dcopy n d => Sys2Proof.Machine.execDcopy n d s
  | .bfill n b => Sys2Proof.Machine.execBfill n b s
  | .wfill n b0 b1 => Sys2Proof.Machine.execWfill n b0 b1 s
  | .ifill n start => Sys2Proof.Machine.execIfill n start s
  | .rabs n pos => Sys2Proof.Machine.execRabs n pos s
  | .ralt n => Sys2Proof.Machine.execRalt n s
  | .rrel n dist => Sys2Proof.Machine.execRrel n dist s
  | .dcopyX h l d => Sys2Proof.Machine.execDcopyX h l d s
  | .bfillX h l b => Sys2Proof.Machine.execBfillX h l b s
  | .wfillX h l b0 b1 => Sys2Proof.Machine.execWfillX h l b0 b1 s
  | .ifillX h l start => Sys2Proof.Machine.execIfillX h l start s
  | .rabsX h l pos => Sys2Proof.Machine.execRabsX h l pos s
  | .raltX h l => Sys2Proof.Machine.execRaltX h l s
  | .rrelX h l dist => Sys2Proof.Machine.execRrelX h l dist s
  | .extRsvd h l => Sys2Proof.Machine.execExtRsvd h l s
  | .endStream => Sys2Proof.Machine.execEndStream s

end Sys2Proof.Machine
end

