-- ==== Sys2Proof/Machine/Encoder.lean ====
section
/-! DEFINITION. The encoder engine (43_encoder.md): the candidate scans (R153 to R159), the selection (R160 to R163), the
emission (R164 to R166), and one pass of its loop (R152, R167 to R169). The scans read the input as the list of its bytes
IN[0 .. N). -/

namespace Sys2Proof.Machine

/-! ## Scans -/

/-- The byte at position `i` of the input. -/
def inputAt (x : List Byte) (i : Nat) : Byte := x.getD i 0#8

/-- How many consecutive indices from `i` on satisfy `ok`, looking at `fuel` of them, added to `i`. -/
def scanFrom (ok : Nat → Bool) : Nat → Nat → Nat
  | 0, i => i
  | fuel + 1, i => if ok i then scanFrom ok fuel (i + 1) else i

/-- The largest `L ≤ cap` such that `ok i` for every `i < L`. -/
def longest (ok : Nat → Bool) (cap : Nat) : Nat := scanFrom ok cap 0

/-- The length cap (R153): `CAP = min(ENC_MAXLEN, N - P)`. -/
def lengthCap (c : Params) (n p : Nat) : Nat := min (Config.encMaxLen c) (n - p)

/-- `LB`, the byte-fill scan (R154). -/
def scanByteFill (x : List Byte) (p cap : Nat) : Nat :=
  longest (fun i => inputAt x (p + i) == inputAt x p) cap

/-- `LW`, the word-fill scan (R155); 0 when only one byte is left. -/
def scanWordFill (x : List Byte) (n p cap : Nat) : Nat :=
  if n - p < 2 then 0 else longest (fun i => inputAt x (p + i) == inputAt x (p + i % 2)) cap

/-- `LI`, the increasing-fill scan (R156). -/
def scanIncFill (x : List Byte) (p cap : Nat) : Nat :=
  longest (fun i => inputAt x (p + i) == inputAt x p + BitVec.ofNat 8 i) cap

/-- `mlen(s, P)`, the match length with overlap (R157). -/
def matchLen (x : List Byte) (cap src p : Nat) : Nat :=
  longest (fun i => inputAt x (p + i) == inputAt x (src + i)) cap

/-- The best of a search over the `fuel` arguments from `k` on, in ascending order, given the best so far: a pair of the
largest value and the smallest argument that attains it. -/
def searchFrom (f : Nat → Nat) : Nat → Nat → Nat × Nat → Nat × Nat
  | 0, _, best => best
  | fuel + 1, k, best => searchFrom f fuel (k + 1) (if best.1 < f k then (f k, k) else best)

/-- `LR` and `DR`, the relative search over the distances 1 to `min(P, 255)` (R158). `LR = 0` means no candidate. -/
def searchRelative (x : List Byte) (cap p : Nat) : Nat × Nat :=
  searchFrom (fun dist => matchLen x cap (p - dist) p) (min p Config.relWindow) 1 (0, 0)

/-- `LA` and `PA`, the absolute search over the positions 0 to `min(P, 65536) - 1` (R159). `LA = 0` means no candidate. -/
def searchAbsolute (x : List Byte) (cap p : Nat) : Nat × Nat :=
  searchFrom (fun pos => matchLen x cap pos p) (min p Config.absWindow) 0 (0, 0)

/-- The results of the five scans at a cursor (R154 to R159). -/
structure Scans where
  lb : Nat
  lw : Nat
  li : Nat
  rel : Nat × Nat
  abs : Nat × Nat
  deriving DecidableEq, Repr

/-- Run the five scans at `p` (R163). -/
def runScans (c : Params) (x : List Byte) (n p : Nat) : Scans :=
  let cap := lengthCap c n p
  { lb := scanByteFill x p cap
    lw := scanWordFill x n p cap
    li := scanIncFill x p cap
    rel := searchRelative x cap p
    abs := searchAbsolute x cap p }

/-- The candidates a pass evaluates (R154 to R159); those of length 0 do not exist. -/
def candidates (x : List Byte) (p : Nat) (r : Scans) : List Cand :=
  [ { kind := .byteFill, len := r.lb, payload := [inputAt x p] },
    { kind := .wordFill, len := r.lw, payload := [inputAt x p, inputAt x (p + 1)] },
    { kind := .incFill, len := r.li, payload := [inputAt x p] },
    { kind := .repAbs, len := r.abs.1, payload := [BitVec.ofNat 8 r.abs.2, BitVec.ofNat 8 (r.abs.2 / 256)] },
    { kind := .repRel, len := r.rel.1, payload := [BitVec.ofNat 8 r.rel.2] } ]

/-! ## Selection -/

/-- `hdrlen(L)` (R160). -/
def hdrLen (len : Nat) : Nat := if len ≤ Config.shortMaxLen then 1 else 2

/-- `cost(k, L)`: the stream bytes a candidate occupies (R160). -/
def cost (c : Cand) : Nat := hdrLen c.len + payloadLen c.kind c.len

/-- Qualification (R162): `L > cost`. A candidate of length 0 never qualifies. -/
def qualifies (c : Cand) : Bool := decide (cost c < c.len)

/-- *Better than* (R161): the larger ratio, then the smaller cost, then the larger kind number. -/
def better (a b : Cand) : Bool :=
  decide (b.len * cost a < a.len * cost b) ||
    (decide (a.len * cost b = b.len * cost a) &&
      (decide (cost a < cost b) ||
        (decide (cost a = cost b) && decide (b.kind.toBits.toNat < a.kind.toBits.toNat))))

/-- Keep the better of the best so far and one more candidate. -/
def pick (best : Option Cand) (c : Cand) : Option Cand :=
  match best with
  | none => some c
  | some b => if better c b then some c else some b

/-- `select(P)` (R163): of the qualifying candidates the one better than every other, or none. -/
def select (cs : List Cand) : Option Cand := (cs.filter qualifies).foldl pick none

/-! ## Emission -/

/-- `emit(b)` (R166): append one byte to OUT, or `raise OutputOverflow(P)` when OUT is full. An error carries the state
after the fault entry. -/
def emit (b : Byte) (s : State) : Except State State :=
  if overflows s.params s.enc.olen 1 then .error (raise .compress .outputOverflow s.enc.p s)
  else .ok { s with
    outMem := s.outMem.store s.enc.olen b
    enc := { s.enc with olen := s.enc.olen + 1 } }

/-- Emit bytes in order. -/
def emitAll : List Byte → State → Except State State
  | [], s => .ok s
  | b :: bs, s =>
    match emit b s with
    | .ok s' => emitAll bs s'
    | .error s' => .error s'

/-- The bytes of `emit_instr(k, L, payload)` (R164). -/
def instrBytes (k : Kind) (len : Nat) (payload : List Byte) : List Byte := headerBytes k len ++ payload

/-- The literal bytes of the pending direct run (R18): `IN[LIT_START .. LIT_START + LIT_LEN)`. -/
def pendingBytes (x : List Byte) (s : State) : List Byte := (x.drop s.enc.litStart).take s.enc.litLen.toNat

/-- The pending direct run becomes empty: `LIT_LEN <- 0`, and `LIT_START`, unspecified while the run is empty (R18), takes a
free value (log 6). -/
def clearRun (s : State) : State :=
  { s with
    enc := { s.enc with litLen := 0, litStart := freePos s.params s.fresh }
    fresh := s.fresh + 1 }

/-- `flush()` (R165): write the pending direct run as one direct copy and clear it. -/
def flush (x : List Byte) (s : State) : Except State State :=
  if s.enc.litLen.toNat = 0 then .ok s
  else
    match emitAll (instrBytes .direct s.enc.litLen.toNat (pendingBytes x s)) s with
    | .ok s' => .ok (clearRun s')
    | .error s' => .error s'

/-! ## One pass of the loop -/

/-- Write the candidate latches (R19). Without a candidate of kind 6 the spec states no `DR`, and without one of kind 4 no
`PA` (R158, R159): each is then a free value (log 6). -/
def latchScans (r : Scans) (sel : Option Cand) (s : State) : State :=
  { s with
    enc := { s.enc with latch :=
      { lb := BitVec.ofNat 11 r.lb
        lw := BitVec.ofNat 11 r.lw
        li := BitVec.ofNat 11 r.li
        lr := BitVec.ofNat 11 r.rel.1
        la := BitVec.ofNat 11 r.abs.1
        dr := if r.rel.1 = 0 then freeBits 8 s.fresh else BitVec.ofNat 8 r.rel.2
        pa := if r.abs.1 = 0 then freeBits 16 (s.fresh + 1) else BitVec.ofNat 16 r.abs.2
        sel := sel } }
    fresh := s.fresh + 2 }

/-- A pass with a selection (R167): flush, emit the instruction, advance `P` by its length. -/
def passSelected (x : List Byte) (c : Cand) (s : State) : Except State State :=
  match flush x s with
  | .error s' => .error s'
  | .ok s' =>
    match emitAll (instrBytes c.kind c.len c.payload) s' with
    | .error s'' => .error s''
    | .ok s'' => .ok { s'' with enc := { s''.enc with p := s''.enc.p + c.len } }

/-- The byte at the cursor joins the pending direct run (R168). -/
def joinRun (s : State) : State :=
  { s with enc := { s.enc with
      litStart := if s.enc.litLen.toNat = 0 then s.enc.p else s.enc.litStart
      litLen := s.enc.litLen + 1
      p := s.enc.p + 1 } }

/-- A pass without a selection (R168): the byte joins the run, which is flushed on reaching `ENC_MAXLEN`. -/
def passLiteral (x : List Byte) (s : State) : Except State State :=
  if (joinRun s).enc.litLen.toNat = Config.encMaxLen s.params then flush x (joinRun s) else .ok (joinRun s)

/-- The end of the run (R169): flush, the terminator, `stop OK`. -/
def finishRun (x : List Byte) (s : State) : Except State State :=
  match flush x s with
  | .error s' => .error s'
  | .ok s' =>
    match emit Config.term s' with
    | .error s'' => .error s''
    | .ok s'' => .ok (stopEnc s'')

/-- Both ends of a pass are next states: a fault of the encoder has been entered by `emit`. -/
def settle : Except State State → Answer
  | .ok s => .next s
  | .error s => .next s

/-- One step of ENC (R152): a pass of the loop while `P < N`, else the end of the run. The pass works on the list of the `N` bytes
IN reads as (log 23). -/
def stepEncoder (s : State) : Answer :=
  let x := inBytes s 0 s.enc.n
  if s.enc.p < s.enc.n then
    let r := runScans s.params x s.enc.n s.enc.p
    match select (candidates x s.enc.p r) with
    | some c => settle (passSelected x c (latchScans r (some c) s))
    | none => settle (passLiteral x (latchScans r none s))
  else settle (finishRun x s)

end Sys2Proof.Machine
end

