-- ==== Sys2Proof/Machine/Fetch.lean ====
section
/-! DEFINITION. Fetching an instruction (40_decoder_loop.md R90 to R94): the end at exhaustion (R91), the header and the
payload read from IN, and the faults of an instruction that IN cuts short (R93, R94). -/

namespace Sys2Proof.Machine

/-- The most bytes one instruction takes: `DCOPY.X` with `L = 992` (41_direct_and_fill.md R111). -/
def maxInstrBytes : Nat := 994

/-- How many bytes of IN are left at `IP`. -/
def bytesLeft (s : State) : Nat := s.inLen - s.dec.ip

/-- The bytes at `IP` that the fetch may look at: no further than `IN_LEN` (20_memory.md R45) and than the longest instruction
(log 19). -/
def window (s : State) : List Byte := inBytes s s.dec.ip (min (bytesLeft s) maxInstrBytes)

/-- What fetching answers: an instruction to execute, or the state in which the run has ended. -/
inductive Fetched where
  | instr (i : Instr)
  | ended (t : State)
  deriving Repr

/-- An instruction whose bytes do not all lie below `IN_LEN`: `Truncated` (R93, R94), with the latches of what was read. A header
byte is missing only where `IP` is beyond `IN_LEN`, which no run reaches; there `Truncated` is what 20_memory.md R45 names for a
read of IN that is not made (log 24). -/
def fetchShort (r : Reject) (s : State) : State :=
  raise .decompress .truncated s.dec.ip
    (match r with
    | .noHeader => s
    | .noContinuation first => latchFirst first s
    | .noPayload hd => latchHeader hd s)

/-- Fetch at `IP` (R90): exhausted (R91), or the decoded instruction, or the fault of one cut short. -/
def fetch (s : State) : Fetched :=
  if s.dec.ip = s.inLen then .ended (stopDec eosExhausted s)
  else
    match decode (window s) with
    | .ok i _ => .instr i
    | .rejected r => .ended (fetchShort r s)

/-- Make the block ready to fetch at its `IP`: a DEC run in progress, with the host quiet. A block that is not in a DEC run
gets one started (70_reset_and_hazards.md R221); what R221 leaves unspecified at call start keeps the value it has. -/
def readyToFetch (s : State) : State :=
  match s.run, s.op with
  | .busy, .decompress => { s with host := [] }
  | _, _ =>
    { s with
      op := .decompress
      run := .busy
      err := .none
      eos := false
      outLen := 0
      outMem := []
      dec := { s.dec with ip := 0, olen := 0 }
      host := [] }

/-- Store the bytes of a table word's instruction at `IP` and set `IN_LEN` to their end (log 15). -/
def placeWord (nbits w : Nat) (s : State) : State :=
  let n := match decode (tableStream nbits w) with
    | .ok i _ => i.size
    | .rejected _ => maxInstrBytes
  { s with
    inMem := s.inMem.storeRun s.dec.ip ((tableStream nbits w).take n)
    inLen := s.dec.ip + n }

end Sys2Proof.Machine
end

