-- ==== Sys2Proof/Machine/HostPort.lean ====
section
/-! DEFINITION. What the host does to the block (10_state.md R24 to R32; 70_reset_and_hazards.md R220 to R228): register
reads and writes, IN writes, OUT reads, START and power-on reset, and the accesses R32 refuses. -/

namespace Sys2Proof.Machine

/-- Whether a run is in progress. -/
def isBusy (s : State) : Bool := decide (s.run = .busy)

/-- The one register the host may read while `STATE = BUSY` is `STATUS` (R32, R228, 92_eei_decisions.md D1, D14; log 14). -/
def HostReg.readableWhileBusy : HostReg → Bool
  | .ctrl => false
  | .inLen => false
  | .status => true
  | .err => false
  | .errPos => false
  | .inPos => false
  | .outLen => false

/-- The value a register reads as (R24 to R31). -/
def regValue (r : HostReg) (s : State) : Nat :=
  match r with
  | .ctrl => (ctrlWord s).toNat
  | .inLen => s.inLen
  | .status => (statusWord s).toNat
  | .err => s.err.code.toNat
  | .errPos => s.errPos
  | .inPos => s.inPos
  | .outLen => s.outLen

/-- START with engine `e` (R221), refused with `IN_LEN > IN_CAP` (R32). -/
def start (e : Engine) (s : State) : Answer :=
  if capFits s.params.inCap s.inLen then
    match e with
    | .decompress => .next (startDec s)
    | .compress => .next (startEnc s)
  else .refused .startInLenOverCap

/-- A write of `CTRL` (R25): with START it starts a run of the engine OP names, without it only OP is held (log 13). -/
def hostWriteCtrl (v : BitVec 2) (s : State) : Answer :=
  if isBusy s then .refused .hostAccessWhileBusy
  else if v.getLsbD 0 then start (Engine.ofOp (v.getLsbD 1)) s
  else .next { s with op := Engine.ofOp (v.getLsbD 1) }

/-- A write of `IN_LEN`, a register of width `AW` (R26, R223). A value above `IN_CAP` that fits the width is stored and then
refused by START (R32), and one that does not fit is refused here: both are the model's choice (log 25). -/
def hostWriteInLen (n : Nat) (s : State) : Answer :=
  if isBusy s then .refused .hostAccessWhileBusy
  else if fitsWidth s.params.aw n then .next { s with inLen := n }
  else .refused .inLenOverWidth

/-- A write of one byte of IN (R40, R223). -/
def hostWriteIn (pos : Nat) (b : Byte) (s : State) : Answer :=
  if isBusy s then .refused .hostAccessWhileBusy
  else if capHas s.params.inCap pos then .next { s with inMem := s.inMem.store pos b }
  else .fault .inPositionAbsent

/-- A read of a register (R24), whose value goes to `hostData` (log 11); only `STATUS` while `BUSY`. -/
def hostReadReg (r : HostReg) (s : State) : Answer :=
  if isBusy s && !r.readableWhileBusy then .refused .hostAccessWhileBusy
  else .next { s with hostData := regValue r s }

/-- The byte OUT shows the host at a position: the result below `OUT_LEN`, a free value from there on (R58, U12, U13; log 8). -/
def outValue (s : State) (pos : Nat) : Byte :=
  if pos < s.outLen then outByte s pos else Config.freeOut s.fresh pos

/-- A read of one byte of OUT (R226). It has no side effect, so that it may be repeated with the same result (20_memory.md
R49). -/
def hostReadOut (pos : Nat) (s : State) : Answer :=
  if isBusy s then .refused .hostAccessWhileBusy
  else if capHas s.params.outCap pos then .next { s with hostData := (outValue s pos).toNat }
  else .fault .outPositionAbsent

/-- One action of the host. -/
def hostAct (o : HostOp) (s : State) : Answer :=
  match o with
  | .writeCtrl v => hostWriteCtrl v s
  | .writeInLen n => hostWriteInLen n s
  | .writeIn pos b => hostWriteIn pos b s
  | .readReg r => hostReadReg r s
  | .readOut pos => hostReadOut pos s
  | .powerOnReset => .next (powerOn s)

end Sys2Proof.Machine
end

