-- ==== Sys2Proof/Machine/Step.lean ====
section
/-! DEFINITION. One step of the block: the host's turn, or the engine's (10_state.md R10, R20; log 9). -/

namespace Sys2Proof.Machine

/-- One step of DEC (40_decoder_loop.md R90): fetch, then execute. -/
def stepDecoder (s : State) : Answer :=
  match fetch s with
  | .instr i => exec i s
  | .ended t => .next t

/-- The block's own step: the engine selected while `STATE = BUSY`; otherwise it holds everything (60_exceptions.md R210). -/
def stepEngine (s : State) : Answer :=
  match s.run with
  | .busy =>
    match s.op with
    | .decompress => stepDecoder s
    | .compress => stepEncoder s
  | .idle => .next s
  | .done => .next s
  | .error => .next s

/-- One step: the head of the host's schedule says whether the host acts or is quiet; with nothing scheduled it is quiet. -/
def step (s : State) : Host.Outcome State Fault Refusal :=
  match s.host with
  | [] => stepEngine s
  | .quiet :: later => stepEngine { s with host := later }
  | .act o :: later => hostAct o { s with host := later }

/-- `s` with the instruction of a table word, every byte after the word 0, placed where the next step fetches: a DEC run in
progress (started if there is none), the instruction at `IP`, `IN_LEN` at its end, the host quiet (log 15). -/
def State.withFetchWord (s : State) (nbits w : Nat) : State := placeWord nbits w (readyToFetch s)

end Sys2Proof.Machine
end

