-- ==== Sys2Proof/Safety.lean ====
section
/-! DEFINITION. What claims speak of: the block's invariant, engines in progress, the frame of an instruction, and what a
whole run of an engine yields. -/

namespace Sys2Proof.Safety

open Sys2Proof.Machine

/-! ## Situations -/

/-- A DEC run is in progress. -/
def Decoding (s : State) : Prop := s.run = .busy ∧ s.op = .decompress

/-- An ENC run is in progress. -/
def Encoding (s : State) : Prop := s.run = .busy ∧ s.op = .compress

/-- The bytes `bs` stand in IN at position `a`. -/
def StandsAt (s : State) (a : Nat) (bs : List Byte) : Prop := inBytes s a bs.length = bs

/-- OUT holds a byte at exactly the positions below `n` (20_memory.md R41: strictly appending). -/
def OutFilled (s : State) (n : Nat) : Prop := ∀ a, (s.outMem.byteAt a).isSome ↔ a < n

/-- The instructions that produce output: kinds 0 to 4 and 6 (40_decoder_loop.md R98). -/
def ProducesOutput (i : Instr) : Prop := ∃ hd, i.header = some hd ∧ hd.kind ≠ .repAlt ∧ hd.kind ≠ .seven

/-- The instructions of kind `k` in either form. -/
def OfKind (k : Kind) (i : Instr) : Prop := ∃ hd, i.header = some hd ∧ hd.kind = k

/-- The source position a repeat computes when its check passes (42_repeat.md R131): `pos` below `OLEN`, or `OLEN - dist`
with `1 ≤ dist ≤ OLEN`. -/
def SourceOf (i : Instr) (olen src : Nat) : Prop :=
  match i with
  | .rabs _ pos => src = pos.toNat ∧ pos.toNat < olen
  | .rabsX _ _ pos => src = pos.toNat ∧ pos.toNat < olen
  | .rrel _ dist => src = olen - dist.toNat ∧ 1 ≤ dist.toNat ∧ dist.toNat ≤ olen
  | .rrelX _ _ dist => src = olen - dist.toNat ∧ 1 ≤ dist.toNat ∧ dist.toNat ≤ olen
  | _ => False

/-- Every register of width `AW` holds a value below `2^w`: `IN_LEN`, `ERR_POS`, `IN_POS`, `OUT_LEN` (10_state.md R24), `IP`,
`OLEN` and `SRC` of DEC (R11, R12, R14), `N`, `P`, `OLEN` and `LIT_START` of ENC (R16, R17, R18). -/
def PositionsBelow (w : Nat) (s : State) : Prop :=
  s.inLen < 2 ^ w ∧ s.errPos < 2 ^ w ∧ s.inPos < 2 ^ w ∧ s.outLen < 2 ^ w ∧
  s.dec.ip < 2 ^ w ∧ s.dec.olen < 2 ^ w ∧ s.dec.latch.src < 2 ^ w ∧
  s.enc.n < 2 ^ w ∧ s.enc.p < 2 ^ w ∧ s.enc.olen < 2 ^ w ∧ s.enc.litStart < 2 ^ w

/-! ## The invariant -/

/-- The block's invariant: what holds in every state a run reaches. -/
structure Inv (s : State) : Prop where
  /-- IN is in canonical form. -/
  inForm : s.inMem.wf = true
  /-- OUT is in canonical form. -/
  outForm : s.outMem.wf = true
  /-- IN holds positions below `IN_CAP` only (20_memory.md R40). -/
  inWithin : ∀ a, (s.inMem.byteAt a).isSome → capHas s.params.inCap a = true
  /-- `ERR` is not 0 exactly when `STATE = ERROR` (10_state.md R28). -/
  errExact : s.err ≠ .none ↔ s.run = .error
  /-- `EOS` is 1 only in `DONE` (10_state.md R15). -/
  eosDone : s.eos = true → s.run = .done
  /-- Only `DONE` has output (10_state.md R31). -/
  outLenDone : s.run ≠ .done → s.outLen = 0
  /-- In `DONE` the result stands in OUT and fits it (10_state.md R31). -/
  resultHeld : s.run = .done → OutFilled s s.outLen ∧ capFits s.params.outCap s.outLen = true
  /-- A run's input fits IN (10_state.md R26). -/
  inputFits : s.run = .busy → capFits s.params.inCap s.inLen = true
  /-- A DEC run's cursors (10_state.md R11, R12). -/
  decoder : Decoding s → s.dec.ip ≤ s.inLen ∧ OutFilled s s.dec.olen ∧ capFits s.params.outCap s.dec.olen = true
  /-- An ENC run's cursors (10_state.md R16, R17). -/
  encoder : Encoding s → s.enc.n = s.inLen ∧ s.enc.p ≤ s.enc.n ∧ OutFilled s s.enc.olen ∧
    capFits s.params.outCap s.enc.olen = true
  /-- An ENC run's pending direct run (10_state.md R18). -/
  pending : Encoding s → s.enc.litLen.toNat < Config.encMaxLen s.params ∧
    (0 < s.enc.litLen.toNat → s.enc.litStart + s.enc.litLen.toNat = s.enc.p)
  /-- With parameters that 00_scope.md R6 allows, every register of width `AW` holds an `AW`-bit value. -/
  widths : s.params.legal = true → ∀ w, s.params.aw = some w → PositionsBelow w s

/-! ## Frames and effects of instructions

The frames also name the model's own fields `host`, `hostData`, `fresh` and `resets` (log 2, 5, 9, 11): no instruction changes
them. -/

/-- Nothing outside the decoder engine and OUT differs: parameters, IN, the host registers, the encoder, the host's turns. -/
def SameButDecoder (s t : State) : Prop :=
  t.params = s.params ∧ t.inMem = s.inMem ∧ t.op = s.op ∧ t.inLen = s.inLen ∧ t.run = s.run ∧ t.eos = s.eos ∧
  t.err = s.err ∧ t.errPos = s.errPos ∧ t.inPos = s.inPos ∧ t.outLen = s.outLen ∧ t.enc = s.enc ∧ t.host = s.host ∧
  t.hostData = s.hostData ∧ t.fresh = s.fresh ∧ t.resets = s.resets

/-- The answer is a next state in which the instruction appended `len` bytes, the `i`-th being `byte i`, at the write
position `OLEN`; `IP` is `ip'`; every other byte of OUT and everything outside the decoder engine is as before. Of the
decoder only `IP`, `OLEN` and its latches may differ. -/
def Appends (o : Answer) (s : State) (ip' len : Nat) (byte : Nat → Option Byte) : Prop :=
  ∃ t, o = .next t ∧ t.dec.ip = ip' ∧ t.dec.olen = s.dec.olen + len ∧
    (∀ i, i < len → t.outMem.byteAt (s.dec.olen + i) = byte i) ∧
    (∀ a, a < s.dec.olen ∨ s.dec.olen + len ≤ a → t.outMem.byteAt a = s.outMem.byteAt a) ∧
    SameButDecoder s t

/-- The answer is the state after the fault entry of 60_exceptions.md R198 with cause `f` and position `pos` of a DEC run:
`ERR`, `ERR_POS`, `OUT_LEN = 0`, `OLEN = 0`, `STATE = ERROR`; memories and everything else are as before. Of the decoder
only `OLEN` and the latches may differ. -/
def Faults (o : Answer) (s : State) (f : ErrCode) (pos : Nat) : Prop :=
  ∃ t, o = .next t ∧ t.err = f ∧ t.errPos = pos ∧ t.outLen = 0 ∧ t.dec.olen = 0 ∧ t.run = .error ∧
    t.dec.ip = s.dec.ip ∧ t.outMem = s.outMem ∧ t.inMem = s.inMem ∧ t.params = s.params ∧ t.op = s.op ∧
    t.inLen = s.inLen ∧ t.eos = s.eos ∧ t.inPos = s.inPos ∧ t.enc = s.enc ∧ t.host = s.host ∧
    t.hostData = s.hostData ∧ t.fresh = s.fresh ∧ t.resets = s.resets

/-- The answer is the state after `stop OK` of a DEC run at position `ip'` with the given `EOS` (40_decoder_loop.md R99):
`IN_POS`, `OUT_LEN = OLEN`, `EOS`, `STATE = DONE`; memories and everything else are as before. Of the decoder only `IP` and
the latches may differ. -/
def Stops (o : Answer) (s : State) (ip' : Nat) (eos : Bool) : Prop :=
  ∃ t, o = .next t ∧ t.dec.ip = ip' ∧ t.inPos = ip' ∧ t.outLen = s.dec.olen ∧ t.dec.olen = s.dec.olen ∧ t.eos = eos ∧
    t.run = .done ∧ t.err = s.err ∧ t.errPos = s.errPos ∧ t.outMem = s.outMem ∧ t.inMem = s.inMem ∧
    t.params = s.params ∧ t.op = s.op ∧ t.inLen = s.inLen ∧ t.enc = s.enc ∧ t.host = s.host ∧
    t.hostData = s.hostData ∧ t.fresh = s.fresh ∧ t.resets = s.resets

/-- The answer is the state after a step of ENC that ran out of room in OUT, its capacity fault entered at position `pos`
(43_encoder.md R166, 60_exceptions.md R196, R198, 10_state.md R29): `ERR`, `ERR_POS = P = pos`, `OUT_LEN = 0`, `OLEN = 0`,
`STATE = ERROR`. OUT below the old `OLEN` and at or above `OUT_CAP` is unchanged, `N` is, and so is everything outside the
encoder, OUT and the registers named but the count of free values (log 5). -/
def Overflows (o : Answer) (s : State) (pos : Nat) : Prop :=
  ∃ t, o = .next t ∧ t.run = .error ∧ t.err = .outputOverflow ∧ t.errPos = pos ∧ t.outLen = 0 ∧ t.enc.olen = 0 ∧
    t.enc.n = s.enc.n ∧ t.enc.p = pos ∧
    (∀ a, a < s.enc.olen ∨ capHas s.params.outCap a = false → t.outMem.byteAt a = s.outMem.byteAt a) ∧
    t = { s with
      run := t.run, err := t.err, errPos := t.errPos, outLen := t.outLen, outMem := t.outMem, enc := t.enc, fresh := t.fresh }

/-! ## Whole runs -/

/-- The block right after the call start of a DEC run on the stream `bs`, the host quiet (R221). -/
def decCall (c : Params) (bs : List Byte) : State :=
  startDec { State.resetWith c with inMem := Mem.storeRun [] 0 bs, inLen := bs.length }

/-- The block right after the call start of an ENC run on the input `x`, the host quiet (R221). -/
def encCall (c : Params) (x : List Byte) : State :=
  startEnc { State.resetWith c with inMem := Mem.storeRun [] 0 x, inLen := x.length }

/-- The result bytes `OUT[0 .. OUT_LEN)` (10_state.md R31). -/
def resultBytes (s : State) : List Byte := s.outMem.runFrom 0 s.outLen

/-- A DEC run on `bs` in a block with parameters `c` ends in `DONE` with the given `EOS`, all of `bs` consumed, and the
result `x`. -/
def DecodesTo (c : Params) (bs : List Byte) (eos : Bool) (x : List Byte) : Prop :=
  ∃ k t, Sys2Proof.core.run k (decCall c bs) = .next t ∧ t.run = .done ∧ t.eos = eos ∧ t.inPos = bs.length ∧
    t.outLen = x.length ∧ resultBytes t = x

/-- The bytes an ENC run has emitted so far: `OUT[0 .. OLEN)`. -/
def emitted (s : State) : List Byte := s.outMem.runFrom 0 s.enc.olen

/-- The input of an ENC run: `IN[0 .. N)`. -/
def inputBytes (s : State) : List Byte := inBytes s 0 s.enc.n

/-- The pending direct run as the instruction it will be flushed as (43_encoder.md R165). -/
def pendingInstr (s : State) : List Byte :=
  if s.enc.litLen.toNat = 0 then []
  else instrBytes .direct s.enc.litLen.toNat (pendingBytes (inputBytes s) s)

/-- The prefix invariant (43_encoder.md R171): the emitted bytes decode to the input before the pending run, and the emitted
bytes followed by the pending run as a direct copy decode to `IN[0 .. P)`, both without a terminator. -/
def PrefixKept (s : State) : Prop :=
  DecodesTo Config.standard (emitted s) false ((inputBytes s).take (s.enc.p - s.enc.litLen.toNat)) ∧
  DecodesTo Config.standard (emitted s ++ pendingInstr s) false ((inputBytes s).take s.enc.p)

/-- The size invariant behind 43_encoder.md R173: at most two stream bytes for each input byte already emitted. -/
def SizeKept (s : State) : Prop := s.enc.olen ≤ 2 * (s.enc.p - s.enc.litLen.toNat)

/-- Two states the host cannot tell apart after a run (10_state.md R21): the same `STATE`, `ERR`, `EOS`, `OUT_LEN` and
result, `ERR_POS` when it is valid (R29) and `IN_POS` when it is valid (R30). -/
def SameResult (s t : State) : Prop :=
  s.run = t.run ∧ s.err = t.err ∧ s.eos = t.eos ∧ s.outLen = t.outLen ∧ resultBytes s = resultBytes t ∧
  (s.run = .error → s.errPos = t.errPos) ∧ (s.run = .done → s.inPos = t.inPos)

/-- Two answers the host cannot tell apart: the same result, or the same stop. -/
def SameRun (a b : Answer) : Prop :=
  match a, b with
  | .next s, .next t => SameResult s t
  | .fault f, .fault g => f = g
  | .refused r, .refused q => r = q
  | _, _ => False

/-! ## Scans of the encoder -/

/-- `len` is the largest length up to `cap` such that `ok i` holds for every `i` below it (43_encoder.md R154 to R157). -/
def LargestRun (ok : Nat → Prop) (cap len : Nat) : Prop :=
  len ≤ cap ∧ (∀ i, i < len → ok i) ∧ ∀ k, k ≤ cap → (∀ i, i < k → ok i) → k ≤ len

end Sys2Proof.Safety
end

