-- ==== Sys2Proof/Certificates/Slice0/Obligations.lean ====
section
/-! DEFINITION. The statements for the provers. Each docstring names the rules of spec/ it rests on. No statement rests on the
value of a free value or of a register the spec leaves unspecified at reset. -/

open Sys2Proof Sys2Proof.Machine Sys2Proof.Safety

/-! ## Encoding -/

/-- Decoding the encoding of a well-formed instruction, whatever follows it, gives the instruction with every operand, and
exactly the bytes that follow (30_encoding.md R62 to R74). -/
def Obligations.DecodeOfEncodeIsIdentity : Prop :=
  ∀ (i : Instr) (rest : List Byte), i.wellFormed = true → decode (encode i ++ rest) = .ok i rest

/-- What decodes to an instruction begins with that instruction's encoding, and the instruction is well-formed: no other bytes
mean it (30_encoding.md R68, R69, R72). -/
def Obligations.DecodedStreamBeginsWithItsEncoding : Prop :=
  ∀ (bs : List Byte) (i : Instr) (rest : List Byte), decode bs = .ok i rest →
    i.wellFormed = true ∧ bs = encode i ++ rest

/-- The decoder rejects only bytes that end too early, and says what is missing: a header, a continuation byte after
`0xE0 .. 0xFE`, or payload bytes (30_encoding.md R79 (c), 40_decoder_loop.md R93, R94). -/
def Obligations.OnlyStreamsCutShortAreRejected : Prop :=
  ∀ (bs : List Byte) (r : Reject), decode bs = .rejected r →
    (r = .noHeader ∧ bs = []) ∨
    (∃ b, r = .noContinuation b ∧ bs = [b] ∧ 0xE0 ≤ b.toNat ∧ b.toNat ≤ 0xFE) ∨
    (∃ hd, r = .noPayload hd ∧ hd.headerLen ≤ bs.length ∧ bs.length < hd.size ∧ hd.size ≤ 994)

/-- The header byte ranges partition the instruction set (30_encoding.md R76). -/
def Obligations.HeaderByteSelectsTheRow : Prop :=
  ∀ (b : Byte) (rest : List Byte) (i : Instr) (r : List Byte), decode (b :: rest) = .ok i r →
    (b.toNat ≤ 0x1F ↔ ∃ n d, i = .dcopy n d) ∧
    (0x20 ≤ b.toNat ∧ b.toNat ≤ 0x3F ↔ ∃ n x, i = .bfill n x) ∧
    (0x40 ≤ b.toNat ∧ b.toNat ≤ 0x5F ↔ ∃ n x y, i = .wfill n x y) ∧
    (0x60 ≤ b.toNat ∧ b.toNat ≤ 0x7F ↔ ∃ n x, i = .ifill n x) ∧
    (0x80 ≤ b.toNat ∧ b.toNat ≤ 0x9F ↔ ∃ n p, i = .rabs n p) ∧
    (0xA0 ≤ b.toNat ∧ b.toNat ≤ 0xBF ↔ ∃ n, i = .ralt n) ∧
    (0xC0 ≤ b.toNat ∧ b.toNat ≤ 0xDF ↔ ∃ n x, i = .rrel n x) ∧
    (0xE0 ≤ b.toNat ∧ b.toNat ≤ 0xFE ↔ ∃ hd, i.header = some hd ∧ hd.headerLen = 2) ∧
    (b.toNat = 0xFF ↔ i = .endStream)

/-- The short form: `KIND = H[7:5]`, `L = H[4:0] + 1`, `HL = 1`, `L` in 1..32, both for an instruction that is wholly there and
for one whose payload is missing (30_encoding.md R64). -/
def Obligations.ShortHeaderFieldsAreRead : Prop :=
  ∀ (b : Byte) (rest : List Byte), b.toNat < 0xE0 →
    ∃ hd : Header, hd.kind.toBits.toNat = b.toNat / 32 ∧ hd.len = b.toNat % 32 + 1 ∧ hd.headerLen = 1 ∧
      1 ≤ hd.len ∧ hd.len ≤ 32 ∧
      ((∃ i r, decode (b :: rest) = .ok i r ∧ i.header = some hd) ∨ decode (b :: rest) = .rejected (.noPayload hd))

/-- The extended form: one continuation byte `E` follows a header byte `0xE0 .. 0xFE`, `KIND = E[2:0]`,
`L = H[4:0] * 32 + E[7:3] + 1`, `HL = 2` (30_encoding.md R65, R66). -/
def Obligations.ExtendedHeaderFieldsAreRead : Prop :=
  ∀ (h e : Byte) (rest : List Byte) (i : Instr) (r : List Byte), 0xE0 ≤ h.toNat → h.toNat ≤ 0xFE →
    decode (h :: e :: rest) = .ok i r →
    ∃ hd, i.header = some hd ∧ hd.first = h ∧ hd.second = some e ∧ hd.kind.toBits.toNat = e.toNat % 8 ∧
      hd.len = h.toNat % 32 * 32 + e.toNat / 8 + 1 ∧ hd.headerLen = 2

/-- The lengths an extended header expresses are exactly 1 to 992, each in exactly one way (30_encoding.md R69). -/
def Obligations.ExtendedLengthsAreOneTo992 : Prop :=
  (∀ h l : BitVec 5, h ≠ 31#5 → 1 ≤ extLen h l ∧ extLen h l ≤ 992) ∧
  (∀ len, 1 ≤ len → len ≤ 992 → ∃ h l : BitVec 5, h ≠ 31#5 ∧ extLen h l = len ∧
    ∀ h' l' : BitVec 5, h' ≠ 31#5 → extLen h' l' = len → h' = h ∧ l' = l)

/-- The headers ENC writes, in the numbers of 30_encoding.md R67 and 43_encoder.md R164: short up to 32, else extended, and the
first byte is never the terminator. -/
def Obligations.EncoderHeadersFollowTheLayout : Prop :=
  ∀ (k : Kind) (len : Nat), k ≠ .seven → 1 ≤ len → len ≤ 992 →
    (len ≤ 32 → headerBytes k len = [BitVec.ofNat 8 ((k.toBits.toNat <<< 5) ||| (len - 1))]) ∧
    (32 < len → headerBytes k len =
      [BitVec.ofNat 8 (0xE0 ||| ((len - 1) >>> 5)),
       BitVec.ofNat 8 ((((len - 1) &&& 0x1F) <<< 3) ||| k.toBits.toNat)]) ∧
    (headerBytes k len).head? ≠ some 0xFF#8

/-- Words written out from 30_encoding.md R76 and 95_test_vectors.md decode to the instructions they stand for. -/
def Obligations.SpecWordsDecode : Prop :=
  decode [0x02#8, 0x41#8, 0x42#8, 0x43#8, 0xFF#8] = .ok (.dcopy 2#5 [0x41#8, 0x42#8, 0x43#8]) [0xFF#8] ∧
  decode [0x44#8, 0xAA#8, 0xBB#8] = .ok (.wfill 4#5 0xAA#8 0xBB#8) [] ∧
  decode [0x81#8, 0x02#8, 0x01#8] = .ok (.rabs 1#5 0x0102#16) [] ∧
  decode [0xC5#8, 0x03#8] = .ok (.rrel 5#5 0x03#8) [] ∧
  decode [0xE9#8, 0x5B#8, 0x00#8] = .ok (.ifillX 9#5 11#5 0x00#8) [] ∧
  decode [0xE0#8, 0x07#8, 0xFF#8] = .ok (.extRsvd 0#5 0#5) [0xFF#8] ∧
  decode [0xFF#8, 0x12#8] = .ok .endStream [0x12#8]

/-! ## Instructions that produce output: result and frame -/

/-- `DCOPY` and `DCOPY.X` append their payload (41_direct_and_fill.md R110, R111). -/
def Obligations.DirectCopyAppendsItsPayload : Prop :=
  (∀ (n : BitVec 5) (d : List Byte) (s : State), d.length = n.toNat + 1 →
    s.dec.ip + 1 + (n.toNat + 1) ≤ s.inLen → capFits s.params.outCap (s.dec.olen + (n.toNat + 1)) = true →
    Appends (exec (.dcopy n d) s) s (s.dec.ip + 1 + (n.toNat + 1)) (n.toNat + 1) (fun i => d[i]?)) ∧
  (∀ (h l : BitVec 5) (d : List Byte) (s : State), d.length = h.toNat * 32 + l.toNat + 1 →
    s.dec.ip + 2 + (h.toNat * 32 + l.toNat + 1) ≤ s.inLen →
    capFits s.params.outCap (s.dec.olen + (h.toNat * 32 + l.toNat + 1)) = true →
    Appends (exec (.dcopyX h l d) s) s (s.dec.ip + 2 + (h.toNat * 32 + l.toNat + 1)) (h.toNat * 32 + l.toNat + 1)
      (fun i => d[i]?))

/-- `BFILL` and `BFILL.X` repeat their byte (41_direct_and_fill.md R112, R113). -/
def Obligations.ByteFillRepeatsItsByte : Prop :=
  (∀ (n : BitVec 5) (b : Byte) (s : State), s.dec.ip + 2 ≤ s.inLen →
    capFits s.params.outCap (s.dec.olen + (n.toNat + 1)) = true →
    Appends (exec (.bfill n b) s) s (s.dec.ip + 2) (n.toNat + 1) (fun _ => some b)) ∧
  (∀ (h l : BitVec 5) (b : Byte) (s : State), s.dec.ip + 3 ≤ s.inLen →
    capFits s.params.outCap (s.dec.olen + (h.toNat * 32 + l.toNat + 1)) = true →
    Appends (exec (.bfillX h l b) s) s (s.dec.ip + 3) (h.toNat * 32 + l.toNat + 1) (fun _ => some b))

/-- `WFILL` and `WFILL.X` alternate their bytes, starting with `b0` (41_direct_and_fill.md R114, R115). -/
def Obligations.WordFillAlternatesItsBytes : Prop :=
  (∀ (n : BitVec 5) (b0 b1 : Byte) (s : State), s.dec.ip + 3 ≤ s.inLen →
    capFits s.params.outCap (s.dec.olen + (n.toNat + 1)) = true →
    Appends (exec (.wfill n b0 b1) s) s (s.dec.ip + 3) (n.toNat + 1)
      (fun i => some (if i % 2 = 0 then b0 else b1))) ∧
  (∀ (h l : BitVec 5) (b0 b1 : Byte) (s : State), s.dec.ip + 4 ≤ s.inLen →
    capFits s.params.outCap (s.dec.olen + (h.toNat * 32 + l.toNat + 1)) = true →
    Appends (exec (.wfillX h l b0 b1) s) s (s.dec.ip + 4) (h.toNat * 32 + l.toNat + 1)
      (fun i => some (if i % 2 = 0 then b0 else b1)))

/-- `IFILL` and `IFILL.X` count up modulo 256 (41_direct_and_fill.md R116, R117). -/
def Obligations.IncreasingFillCountsModulo256 : Prop :=
  (∀ (n : BitVec 5) (start : Byte) (s : State), s.dec.ip + 2 ≤ s.inLen →
    capFits s.params.outCap (s.dec.olen + (n.toNat + 1)) = true →
    Appends (exec (.ifill n start) s) s (s.dec.ip + 2) (n.toNat + 1)
      (fun i => some (BitVec.ofNat 8 ((start.toNat + i) % 256)))) ∧
  (∀ (h l : BitVec 5) (start : Byte) (s : State), s.dec.ip + 3 ≤ s.inLen →
    capFits s.params.outCap (s.dec.olen + (h.toNat * 32 + l.toNat + 1)) = true →
    Appends (exec (.ifillX h l start) s) s (s.dec.ip + 3) (h.toNat * 32 + l.toNat + 1)
      (fun i => some (BitVec.ofNat 8 ((start.toNat + i) % 256))))

/-- `RABS` and `RABS.X` append the output from `pos` on, repeated with period `OLEN - pos` (42_repeat.md R132, R133, in the
closed form of R139), each byte as OUT reads (20_memory.md R45; in a state no run reaches, a free value: log 2). -/
def Obligations.AbsoluteRepeatIsPeriodic : Prop :=
  (∀ (n : BitVec 5) (pos : BitVec 16) (s : State), s.dec.ip + 3 ≤ s.inLen → pos.toNat < s.dec.olen →
    capFits s.params.outCap (s.dec.olen + (n.toNat + 1)) = true →
    Appends (exec (.rabs n pos) s) s (s.dec.ip + 3) (n.toNat + 1)
      (fun i => some (outByte s (pos.toNat + i % (s.dec.olen - pos.toNat))))) ∧
  (∀ (h l : BitVec 5) (pos : BitVec 16) (s : State), s.dec.ip + 4 ≤ s.inLen → pos.toNat < s.dec.olen →
    capFits s.params.outCap (s.dec.olen + (h.toNat * 32 + l.toNat + 1)) = true →
    Appends (exec (.rabsX h l pos) s) s (s.dec.ip + 4) (h.toNat * 32 + l.toNat + 1)
      (fun i => some (outByte s (pos.toNat + i % (s.dec.olen - pos.toNat)))))

/-- `RREL` and `RREL.X` append the last `dist` bytes, repeated with period `dist` (42_repeat.md R136, R137, in the closed form
of R139), each byte as OUT reads (20_memory.md R45; in a state no run reaches, a free value: log 2). -/
def Obligations.RelativeRepeatIsPeriodic : Prop :=
  (∀ (n : BitVec 5) (dist : Byte) (s : State), s.dec.ip + 2 ≤ s.inLen → 1 ≤ dist.toNat → dist.toNat ≤ s.dec.olen →
    capFits s.params.outCap (s.dec.olen + (n.toNat + 1)) = true →
    Appends (exec (.rrel n dist) s) s (s.dec.ip + 2) (n.toNat + 1)
      (fun i => some (outByte s (s.dec.olen - dist.toNat + i % dist.toNat)))) ∧
  (∀ (h l : BitVec 5) (dist : Byte) (s : State), s.dec.ip + 3 ≤ s.inLen → 1 ≤ dist.toNat →
    dist.toNat ≤ s.dec.olen →
    capFits s.params.outCap (s.dec.olen + (h.toNat * 32 + l.toNat + 1)) = true →
    Appends (exec (.rrelX h l dist) s) s (s.dec.ip + 3) (h.toNat * 32 + l.toNat + 1)
      (fun i => some (outByte s (s.dec.olen - dist.toNat + i % dist.toNat))))

/-- A repeat that completes copies byte by byte, forward, within the same growing buffer: after it, a byte stands at `OLEN0 + k`
and is the byte read at `SRC + k`, for every `k < L`, also where the source range runs into what the repeat itself wrote; `OLEN` is
`OLEN0 + L`, and OUT is as before everywhere else (42_repeat.md R130, 20_memory.md R51). -/
def Obligations.RepeatCopiesBytewiseForward : Prop :=
  ∀ (i : Instr) (hd : Header) (s t : State) (src : Nat), i.header = some hd → SourceOf i s.dec.olen src →
    s.run = .busy → exec i s = .next t → t.run = .busy →
    (∀ k, k < hd.len → t.outMem.byteAt (s.dec.olen + k) = some (outByte t (src + k))) ∧
    t.dec.olen = s.dec.olen + hd.len ∧
    (∀ a, a < s.dec.olen ∨ s.dec.olen + hd.len ≤ a → t.outMem.byteAt a = s.outMem.byteAt a)

/-! ## Instructions that end the run -/

/-- `END`: `IP + 1`, `EOS = 1`, `stop OK`; nothing is written and `OLEN` stays; it is what a step does when the byte at `IP` is
`0xFF`, whatever stands after it (40_decoder_loop.md R97, R99). -/
def Obligations.TerminatorEndsTheRun : Prop :=
  (∀ s : State, Stops (exec .endStream s) s (s.dec.ip + 1) true) ∧
  (∀ s : State, Decoding s → s.host = [] → s.dec.ip < s.inLen → inByte s s.dec.ip = 0xFF#8 →
    Stops (step s) s (s.dec.ip + 1) true)

/-- `RALT` and `RALT.X` always raise `UnsupportedKind` at their header, whatever follows: as instructions, and as the step on a
header byte `0xA0 .. 0xBF`, or on `0xE0 .. 0xFE` followed by a byte with low bits 5 (42_repeat.md R134, R135). -/
def Obligations.Kind5IsUnsupported : Prop :=
  (∀ (n : BitVec 5) (s : State), Faults (exec (.ralt n) s) s .unsupportedKind s.dec.ip) ∧
  (∀ (h l : BitVec 5) (s : State), Faults (exec (.raltX h l) s) s .unsupportedKind s.dec.ip) ∧
  (∀ (s : State) (b : Byte), Decoding s → s.host = [] → s.dec.ip < s.inLen → inByte s s.dec.ip = b →
    0xA0 ≤ b.toNat → b.toNat ≤ 0xBF → Faults (step s) s .unsupportedKind s.dec.ip) ∧
  (∀ (s : State) (b e : Byte), Decoding s → s.host = [] → s.dec.ip + 1 < s.inLen → inByte s s.dec.ip = b →
    inByte s (s.dec.ip + 1) = e → 0xE0 ≤ b.toNat → b.toNat ≤ 0xFE → e.toNat % 8 = 5 →
    Faults (step s) s .unsupportedKind s.dec.ip)

/-- `EXT.RSVD` always raises `ReservedEncoding` at its header: as an instruction, and as the step on a byte `0xE0 .. 0xFE`
followed by a byte with low bits 7; with no continuation byte it is `Truncated` (40_decoder_loop.md R95, R93). -/
def Obligations.ReservedContinuationFaults : Prop :=
  (∀ (h l : BitVec 5) (s : State), Faults (exec (.extRsvd h l) s) s .reservedEncoding s.dec.ip) ∧
  (∀ (s : State) (b e : Byte), Decoding s → s.host = [] → s.dec.ip + 1 < s.inLen → inByte s s.dec.ip = b →
    inByte s (s.dec.ip + 1) = e → 0xE0 ≤ b.toNat → b.toNat ≤ 0xFE → e.toNat % 8 = 7 →
    Faults (step s) s .reservedEncoding s.dec.ip) ∧
  (∀ (s : State) (b : Byte), Decoding s → s.host = [] → s.dec.ip + 1 = s.inLen → inByte s s.dec.ip = b →
    0xE0 ≤ b.toNat → b.toNat ≤ 0xFE → Faults (step s) s .truncated s.dec.ip)

/-! ## Where the producing instructions fault, in the order of 60_exceptions.md R197 -/

/-- An instruction of kinds 0 to 4 or 6 whose payload does not lie wholly below `IN_LEN` raises `Truncated`, whatever its source
and the room in OUT (40_decoder_loop.md R94, 60_exceptions.md R191, R197). -/
def Obligations.MissingPayloadIsTruncated : Prop :=
  ∀ (i : Instr) (s : State), ProducesOutput i → s.inLen < s.dec.ip + i.size →
    Faults (exec i s) s .truncated s.dec.ip

/-- A repeat whose payload is there and whose source is not an already written position raises `InvalidOffset`, whatever the
room in OUT (42_repeat.md R131, 60_exceptions.md R192, R197). -/
def Obligations.BadSourceIsInvalidOffset : Prop :=
  ∀ (i : Instr) (s : State), OfKind .repAbs i ∨ OfKind .repRel i → s.dec.ip + i.size ≤ s.inLen →
    (∀ src, ¬SourceOf i s.dec.olen src) → Faults (exec i s) s .invalidOffset s.dec.ip

/-- An instruction of kinds 0 to 4 or 6 that passes the other checks but would pass `OUT_CAP` raises `OutputOverflow` before
writing: as an instruction, and as the step on the instruction IN holds at `IP`, whatever its payload bytes are and whether or not
the host wrote them (60_exceptions.md R196, R197, 40_decoder_loop.md R90). -/
def Obligations.FullOutputIsOutputOverflow : Prop :=
  (∀ (i : Instr) (hd : Header) (s : State), ProducesOutput i → i.header = some hd → s.dec.ip + i.size ≤ s.inLen →
    (OfKind .repAbs i ∨ OfKind .repRel i → ∃ src, SourceOf i s.dec.olen src) →
    capFits s.params.outCap (s.dec.olen + hd.len) = false → Faults (exec i s) s .outputOverflow s.dec.ip) ∧
  (∀ (i : Instr) (rest : List Byte) (hd : Header) (s : State), Decoding s → s.host = [] →
    decode (inBytes s s.dec.ip (s.inLen - s.dec.ip)) = .ok i rest → ProducesOutput i → i.header = some hd →
    (OfKind .repAbs i ∨ OfKind .repRel i → ∃ src, SourceOf i s.dec.olen src) →
    capFits s.params.outCap (s.dec.olen + hd.len) = false → Faults (step s) s .outputOverflow s.dec.ip)

/-- A fault is precise: the instruction that raises it has written nothing, and the fault entry changes `ERR`, `ERR_POS`,
`OUT_LEN`, `OLEN` and `STATE` only (60_exceptions.md R198, R199). -/
def Obligations.FaultsArePrecise : Prop :=
  ∀ (i : Instr) (s t : State), s.run = .busy → exec i s = .next t → t.run = .error →
    ∃ f, f ≠ .none ∧ Faults (.next t) s f s.dec.ip

/-- Nothing stops: every instruction answers a next state in every state, and so does every step of the block while the host is
quiet, whatever stands in IN, written or not (30_encoding.md R79, 10_state.md R33, 93_implementation_defined.md U15 and its
section 2: no behaviour has the treatment `stuck`). -/
def Obligations.EveryInstructionHasAnEffect : Prop :=
  (∀ (i : Instr) (s : State), ∃ t, exec i s = .next t) ∧
  (∀ s : State, s.host = [] → ∃ t, step s = .next t)

/-- The header decode of every instruction but the terminator writes `H`, `KIND`, `L`, `HL`, and `E` in an extended form
(10_state.md R13, 40_decoder_loop.md R92, R93); that they still hold it when the instruction is over is the model's choice
(log 7). -/
def Obligations.HeaderLatchesHoldTheHeader : Prop :=
  ∀ (i : Instr) (hd : Header) (s t : State), i.header = some hd → exec i s = .next t →
    t.dec.latch.h = hd.first ∧ (∀ e, hd.second = some e → t.dec.latch.e = e) ∧
    t.dec.latch.kind = hd.kind.toBits ∧ t.dec.latch.len = BitVec.ofNat 11 hd.len ∧
    t.dec.latch.hl = BitVec.ofNat 2 hd.headerLen

/-! ## Steps of the decoder -/

/-- When the bytes of a well-formed instruction stand in IN at `IP`, below `IN_LEN`, a step of the running decoder is the
execution of that instruction; the step adds nothing but taking the host's quiet turn, which is the model's form of a host that does not act (log 9)
(40_decoder_loop.md R90, R98). -/
def Obligations.StepRunsTheDecodedInstruction : Prop :=
  ∀ (i : Instr) (s : State), Decoding s → i.wellFormed = true → StandsAt s s.dec.ip (encode i) →
    s.dec.ip + (encode i).length ≤ s.inLen →
    (s.host = [] → step s = exec i s) ∧
    (∀ later, s.host = .quiet :: later → step s = exec i { s with host := later })

/-- At `IP = IN_LEN` the run ends normally with `EOS = 0` (40_decoder_loop.md R91). -/
def Obligations.ExhaustionEndsTheRun : Prop :=
  ∀ s : State, Decoding s → s.host = [] → s.dec.ip = s.inLen → Stops (step s) s s.dec.ip false

/-- When the input left at `IP` ends within an instruction, the step raises `Truncated` at its header (40_decoder_loop.md R93,
R94, 60_exceptions.md R191). -/
def Obligations.StreamCutShortIsTruncated : Prop :=
  ∀ (s : State) (r : Reject), Decoding s → s.host = [] → s.dec.ip < s.inLen →
    decode (inBytes s s.dec.ip (s.inLen - s.dec.ip)) = .rejected r →
    Faults (step s) s .truncated s.dec.ip

/-- A single header byte with nothing after it: `UnsupportedKind` for `0xA0 .. 0xBF`, `Truncated` for every other byte but the
terminator (40_decoder_loop.md R94, 90_conflicts.md C8). -/
def Obligations.LoneHeaderByteFails : Prop :=
  ∀ (s : State) (b : Byte), Decoding s → s.host = [] → s.inLen = s.dec.ip + 1 → inByte s s.dec.ip = b →
    b ≠ 0xFF#8 →
    if 0xA0 ≤ b.toNat ∧ b.toNat ≤ 0xBF then Faults (step s) s .unsupportedKind s.dec.ip
    else Faults (step s) s .truncated s.dec.ip

/-- While a DEC run goes on, every step moves `IP` forward by at least 2, not beyond `IN_LEN`, and lengthens the output by 1 to
992 bytes (10_state.md R11, R12, 40_decoder_loop.md R96). -/
def Obligations.InstructionPointerOnlyIncreases : Prop :=
  ∀ s t : State, Decoding s → s.host = [] → step s = .next t → t.run = .busy →
    s.dec.ip + 2 ≤ t.dec.ip ∧ t.dec.ip ≤ s.inLen ∧ s.dec.olen + 1 ≤ t.dec.olen ∧ t.dec.olen ≤ s.dec.olen + 992

/-- A DEC run ends: from `IP` at most `(IN_LEN - IP) / 2 + 1` steps take it out of `BUSY`
(70_reset_and_hazards.md R236). -/
def Obligations.DecoderRunEnds : Prop :=
  ∀ s : State, Inv s → Decoding s → s.host = [] →
    ∃ k t, k ≤ (s.inLen - s.dec.ip) / 2 + 1 ∧ Sys2Proof.core.run k s = .next t ∧ t.run ≠ .busy

/-! ## The whole block -/

/-- Every step keeps the block's invariant, whatever the host does (10_state.md R11, R12, R16 to R18, R20, R28, R31;
20_memory.md R40, R41). -/
def Obligations.EveryStepKeepsTheInvariant : Prop :=
  ∀ s t : State, Inv s → step s = .next t → Inv t

/-- The state after reset meets the invariant, whatever the parameters (10_state.md R33, 70_reset_and_hazards.md R220); that both
buffers list no byte there is the model's form of their being unspecified (log 2). -/
def Obligations.ResetMeetsTheInvariant : Prop :=
  Inv State.reset ∧ ∀ c : Params, Inv (State.resetWith c)

/-- No step changes the instance's parameters (00_scope.md R2, R6), which the model carries in the state (log 3). -/
def Obligations.ParametersNeverChange : Prop :=
  ∀ s t : State, step s = .next t → t.params = s.params

/-- A running engine writes neither IN nor `IN_LEN` nor `CTRL.OP`, and no register of the other engine (20_memory.md R40,
10_state.md R10, R26); nor the model's own fields for the host and for the contents of IN (log 2, 9, 11). -/
def Obligations.EnginesKeepToTheirOwn : Prop :=
  ∀ s t : State, s.run = .busy → s.host = [] → step s = .next t →
    t.inMem = s.inMem ∧ t.inLen = s.inLen ∧ t.op = s.op ∧ t.host = s.host ∧ t.hostData = s.hostData ∧
    t.resets = s.resets ∧ (s.op = .decompress → t.enc = s.enc) ∧ (s.op = .compress → t.dec = s.dec)

/-- OUT is strictly appending: a running engine changes no byte below its write position (20_memory.md R41). -/
def Obligations.OutputOnlyGrows : Prop :=
  ∀ s t : State, s.run = .busy → s.host = [] → step s = .next t →
    (s.op = .decompress → ∀ a, a < s.dec.olen → t.outMem.byteAt a = s.outMem.byteAt a) ∧
    (s.op = .compress → ∀ a, a < s.enc.olen → t.outMem.byteAt a = s.outMem.byteAt a)

/-- For finite capacities and every width with `2^aw > max(IN_CAP, OUT_CAP)` no cursor of a running engine leaves `aw` bits; and
in a block whose own `AW` meets that condition a step leaves every register of width `AW` with an `AW`-bit value, whatever the
engine or the host does (00_scope.md R6, 10_state.md R11, R12, R14, R16, R17, R18, R24), although the model holds positions as
naturals (log 4). -/
def Obligations.CursorsFitEveryAddressWidth : Prop :=
  (∀ (s t : State) (aw inCap outCap : Nat), Inv s → s.params.inCap = some inCap → s.params.outCap = some outCap →
    inCap < 2 ^ aw → outCap < 2 ^ aw → step s = .next t →
    (Decoding t → t.dec.ip < 2 ^ aw ∧ t.dec.olen < 2 ^ aw) ∧
    (Encoding t → t.enc.n < 2 ^ aw ∧ t.enc.p < 2 ^ aw ∧ t.enc.olen < 2 ^ aw)) ∧
  (∀ (s t : State) (aw inCap outCap : Nat), Inv s → s.params.inCap = some inCap → s.params.outCap = some outCap →
    s.params.aw = some aw → max inCap outCap < 2 ^ aw → step s = .next t → PositionsBelow aw t)

/-- A run depends on nothing before its START but the parameters, what IN reads as below `IN_LEN`, `IN_LEN` and `OP`: however the two blocks
differ otherwise, after any number of steps the host cannot tell their results apart (10_state.md R21, 70_reset_and_hazards.md
R221, 42_repeat.md R138). -/
def Obligations.RunDependsOnItsInputOnly : Prop :=
  ∀ (s u : State) (e : Engine) (k : Nat), s.params = u.params → s.inLen = u.inLen →
    (∀ a, a < s.inLen → inByte s a = inByte u a) → s.host = [] → u.host = [] →
    match start e s, start e u with
    | .next s', .next u' => SameRun (Sys2Proof.core.run k s') (Sys2Proof.core.run k u')
    | .refused r, .refused q => r = q
    | _, _ => False

/-! ## The host -/

/-- A block that is not running holds every register and both buffers (60_exceptions.md R210). -/
def Obligations.IdleBlockHolds : Prop :=
  ∀ s : State, s.run ≠ .busy → s.host = [] → step s = .next s

/-- START with `OP = 0` (70_reset_and_hazards.md R221): one step from a block that is not running, with `IN_LEN` at most
`IN_CAP`, begins a DEC run at `IP = 0`, `OLEN = 0`; IN and `IN_LEN` are as the host wrote them and the encoder is untouched. -/
def Obligations.StartBeginsADecoderRun : Prop :=
  ∀ (s : State) (later : List HostTurn), s.run ≠ .busy → capFits s.params.inCap s.inLen = true →
    s.host = .act (.writeCtrl 0b01#2) :: later →
    ∃ t, step s = .next t ∧ t.run = .busy ∧ t.op = .decompress ∧ t.err = .none ∧ t.eos = false ∧ t.outLen = 0 ∧
      t.dec.ip = 0 ∧ t.dec.olen = 0 ∧ t.inMem = s.inMem ∧ t.inLen = s.inLen ∧ t.params = s.params ∧ t.enc = s.enc ∧
      t.host = later ∧ t.hostData = s.hostData

/-- START with `OP = 1` (70_reset_and_hazards.md R221): it begins an ENC run at `P = 0`, `N = IN_LEN`, `OLEN = 0`,
`LIT_LEN = 0`; IN and `IN_LEN` are as the host wrote them and the decoder is untouched. -/
def Obligations.StartBeginsAnEncoderRun : Prop :=
  ∀ (s : State) (later : List HostTurn), s.run ≠ .busy → capFits s.params.inCap s.inLen = true →
    s.host = .act (.writeCtrl 0b11#2) :: later →
    ∃ t, step s = .next t ∧ t.run = .busy ∧ t.op = .compress ∧ t.err = .none ∧ t.eos = false ∧ t.outLen = 0 ∧
      t.enc.n = s.inLen ∧ t.enc.p = 0 ∧ t.enc.olen = 0 ∧ t.enc.litLen = 0 ∧ t.inMem = s.inMem ∧
      t.inLen = s.inLen ∧ t.params = s.params ∧ t.dec = s.dec ∧ t.host = later ∧ t.hostData = s.hostData

/-- Power-on reset, at any time, leaves `STATE = IDLE`, `EOS = 0`, `ERR = 0`, `OUT_LEN = 0`, `CTRL = 0`, and abandons a run
(70_reset_and_hazards.md R220); the parameters and the host's later turns go on, which is the model's choice (log 21). -/
def Obligations.PowerOnResetAbandonsTheRun : Prop :=
  ∀ (s : State) (later : List HostTurn), s.host = .act .powerOnReset :: later →
    ∃ t, step s = .next t ∧ t.run = .idle ∧ t.eos = false ∧ t.err = .none ∧ t.outLen = 0 ∧ ctrlWord t = 0#2 ∧
      t.params = s.params ∧ t.host = later

/-- The values the spec gives for reset (10_state.md R33): `STATE = IDLE`, `EOS = 0`, `ERR = 0`, `OUT_LEN = 0`, `CTRL = 0`. -/
def Obligations.ResetLeavesTheStatedValues : Prop :=
  State.reset.run = .idle ∧ State.reset.eos = false ∧ State.reset.err = .none ∧ State.reset.outLen = 0 ∧
  ctrlWord State.reset = 0#2 ∧ statusWord State.reset = 0#3

/-- The accesses without a meaning are refused: while `BUSY`, every access of the host but a read of `STATUS` (and power-on reset),
which takes in a write of `CTRL`, `IN_LEN` or IN and a read of OUT, `OUT_LEN`, `IN_POS` or `ERR_POS` (10_state.md R32); and START
with `IN_LEN > IN_CAP` (R32). That reads of `CTRL`, `IN_LEN` and `ERR` are refused too is the model's reading of
70_reset_and_hazards.md R228 and 92_eei_decisions.md D1, D14 (log 14). -/
def Obligations.MeaninglessHostAccessIsRefused : Prop :=
  (∀ (s : State) (o : HostOp) (later : List HostTurn), s.run = .busy → s.host = .act o :: later →
    o ≠ .readReg .status → o ≠ .powerOnReset → step s = .refused .hostAccessWhileBusy) ∧
  (∀ (s : State) (v : BitVec 2) (later : List HostTurn), s.run ≠ .busy → s.host = .act (.writeCtrl v) :: later →
    v.getLsbD 0 = true → capFits s.params.inCap s.inLen = false → step s = .refused .startInLenOverCap)

/-- Loading: outside a run, a host write of IN below `IN_CAP` stores the byte and changes no other, and a write of `IN_LEN` with a
value of at most `IN_CAP` sets it; nothing else changes (70_reset_and_hazards.md R223, 10_state.md R26, 20_memory.md R40). That a
value of `AW` bits above `IN_CAP` is stored too, and refused by START only (R26, R32), and that a value of more than `AW` bits is
refused at the write, is the model's choice (log 25). -/
def Obligations.HostLoadsTheInput : Prop :=
  (∀ (s : State) (pos : Nat) (b : Byte) (later : List HostTurn), s.run ≠ .busy →
    s.host = .act (.writeIn pos b) :: later → capHas s.params.inCap pos = true →
    ∃ m, step s = .next { s with host := later, inMem := m } ∧ m.byteAt pos = some b ∧
      ∀ a, a ≠ pos → m.byteAt a = s.inMem.byteAt a) ∧
  (∀ (s : State) (n : Nat) (later : List HostTurn), s.run ≠ .busy → s.host = .act (.writeInLen n) :: later →
    (∀ w, s.params.aw = some w → n < 2 ^ w) → step s = .next { s with host := later, inLen := n }) ∧
  (∀ (s : State) (n w : Nat) (later : List HostTurn), s.run ≠ .busy → s.host = .act (.writeInLen n) :: later →
    s.params.aw = some w → 2 ^ w ≤ n → step s = .refused .inLenOverWidth)

/-- Collecting: in `DONE` the host reads the result bytes below `OUT_LEN`; at any time it reads `STATUS`, with `EOS` in bit 2 and
`STATE` in bits 1:0 coded 0 `IDLE`, 1 `BUSY`, 2 `DONE`, 3 `ERROR`; outside a run it reads `ERR` in its coding, `OUT_LEN` and
`IN_LEN`; in `DONE` it reads `IN_POS`, in `ERROR` it reads `ERR_POS` (10_state.md R24, R26 to R31, 70_reset_and_hazards.md R226).
A read of `CTRL` outside a run gives `OP` in bit 1 and 0 in bit 0, where R24 lets the host write it and R25 says that `START` reads
as 0: that it can be read is the model's choice (log 13). A read changes nothing else; the answer goes to the model's own field
`hostData` (log 11). Every read of OUT outside a run, also at or above `OUT_LEN`, may be repeated with the same result (20_memory.md
R49). -/
def Obligations.HostCollectsTheResult : Prop :=
  (∀ (s : State) (a : Nat) (b : Byte) (later : List HostTurn), s.run = .done → s.host = .act (.readOut a) :: later →
    capHas s.params.outCap a = true → a < s.outLen → s.outMem.byteAt a = some b →
    step s = .next { s with host := later, hostData := b.toNat }) ∧
  (∀ (s : State) (later : List HostTurn), s.host = .act (.readReg .status) :: later →
    step s = .next { s with host := later, hostData := (if s.eos then 4 else 0) +
      (match s.run with | .idle => 0 | .busy => 1 | .done => 2 | .error => 3) }) ∧
  (∀ (s : State) (later : List HostTurn), s.run ≠ .busy → s.host = .act (.readReg .err) :: later →
    step s = .next { s with host := later, hostData :=
      match s.err with
      | .none => 0 | .truncated => 1 | .invalidOffset => 2 | .unsupportedKind => 3 | .reservedEncoding => 4
      | .outputOverflow => 5 }) ∧
  (∀ (s : State) (later : List HostTurn), s.run ≠ .busy → s.host = .act (.readReg .outLen) :: later →
    step s = .next { s with host := later, hostData := s.outLen }) ∧
  (∀ (s : State) (later : List HostTurn), s.run ≠ .busy → s.host = .act (.readReg .inLen) :: later →
    step s = .next { s with host := later, hostData := s.inLen }) ∧
  (∀ (s : State) (later : List HostTurn), s.run = .done → s.host = .act (.readReg .inPos) :: later →
    step s = .next { s with host := later, hostData := s.inPos }) ∧
  (∀ (s : State) (later : List HostTurn), s.run = .error → s.host = .act (.readReg .errPos) :: later →
    step s = .next { s with host := later, hostData := s.errPos }) ∧
  (∀ (s : State) (later : List HostTurn), s.run ≠ .busy → s.host = .act (.readReg .ctrl) :: later →
    step s = .next { s with host := later, hostData := (match s.op with | .decompress => 0 | .compress => 2) }) ∧
  (∀ (s : State) (a : Nat), s.run ≠ .busy → capHas s.params.outCap a = true →
    ∃ v : Byte, ∀ (old : Nat) (later : List HostTurn),
      step { s with host := .act (.readOut a) :: later, hostData := old } =
        .next { s with host := later, hostData := v.toNat })

/-! ## The encoder -/

/-- The three fill scans find the largest run within the cap (43_encoder.md R154, R155, R156). -/
def Obligations.FillScansFindTheLargestRun : Prop :=
  ∀ (x : List Byte) (n p cap : Nat),
    LargestRun (fun i => inputAt x (p + i) = inputAt x p) cap (scanByteFill x p cap) ∧
    (2 ≤ n - p → LargestRun (fun i => inputAt x (p + i) = inputAt x (p + i % 2)) cap (scanWordFill x n p cap)) ∧
    (n - p < 2 → scanWordFill x n p cap = 0) ∧
    LargestRun (fun i => inputAt x (p + i) = BitVec.ofNat 8 ((inputAt x p).toNat + i)) cap (scanIncFill x p cap)

/-- The match length compares with overlap and is the largest (43_encoder.md R157). -/
def Obligations.MatchLengthIsTheLargest : Prop :=
  ∀ (x : List Byte) (cap src p : Nat),
    LargestRun (fun i => inputAt x (p + i) = inputAt x (src + i)) cap (matchLen x cap src p)

/-- The relative search finds the longest match over the distances 1 to `min(P, 255)`, at the smallest distance that attains it,
or length 0 when there is none (43_encoder.md R158). -/
def Obligations.RelativeSearchIsLongestNearest : Prop :=
  ∀ (x : List Byte) (cap p : Nat),
    (∀ d, 1 ≤ d → d ≤ min p 255 → matchLen x cap (p - d) p ≤ (searchRelative x cap p).1) ∧
    (0 < (searchRelative x cap p).1 →
      1 ≤ (searchRelative x cap p).2 ∧ (searchRelative x cap p).2 ≤ min p 255 ∧
      matchLen x cap (p - (searchRelative x cap p).2) p = (searchRelative x cap p).1 ∧
      ∀ d, 1 ≤ d → d < (searchRelative x cap p).2 → matchLen x cap (p - d) p < (searchRelative x cap p).1)

/-- The absolute search finds the longest match over the positions 0 to `min(P, 65536) - 1`, at the smallest position that attains
it, or length 0 when there is none (43_encoder.md R159). -/
def Obligations.AbsoluteSearchIsLongestFirst : Prop :=
  ∀ (x : List Byte) (cap p : Nat),
    (∀ q, q < min p 65536 → matchLen x cap q p ≤ (searchAbsolute x cap p).1) ∧
    (0 < (searchAbsolute x cap p).1 →
      (searchAbsolute x cap p).2 < min p 65536 ∧
      matchLen x cap (searchAbsolute x cap p).2 p = (searchAbsolute x cap p).1 ∧
      ∀ q, q < (searchAbsolute x cap p).2 → matchLen x cap q p < (searchAbsolute x cap p).1)

/-- `select` returns none exactly when no candidate qualifies, and otherwise the qualifying candidate that is better than every
other qualifying one (43_encoder.md R161, R162, R163). -/
def Obligations.SelectionIsTheBestQualifying : Prop :=
  ∀ (x : List Byte) (p : Nat) (r : Scans),
    (select (candidates x p r) = none ↔ ∀ c ∈ candidates x p r, qualifies c = false) ∧
    (∀ c, select (candidates x p r) = some c → c ∈ candidates x p r ∧ qualifies c = true ∧
      ∀ d ∈ candidates x p r, qualifies d = true → d ≠ c → better c d = true)

/-- What `select` chooses at a cursor is within the length cap `min(ENC_MAXLEN, N - P)`, with `ENC_MAXLEN` 992 if `ENC_EXT = 1` and
32 if not, is of kind 1, 2, 3, 4 or 6 with that kind's payload size, and produces more bytes than it occupies (43_encoder.md
R150, R153, R162, R163, R176). -/
def Obligations.SelectionKeepsTheLengthCap : Prop :=
  ∀ (c : Params) (x : List Byte) (n p : Nat) (d : Cand), select (candidates x p (runScans c x n p)) = some d →
    d.len ≤ n - p ∧ d.len ≤ (if c.encExt then 992 else 32) ∧ d.kind ≠ .direct ∧ d.kind ≠ .repAlt ∧ d.kind ≠ .seven ∧
    d.payload.length = payloadLen d.kind d.len ∧ (headerBytes d.kind d.len ++ d.payload).length < d.len

/-- `emit` appends one byte at `OLEN`, or enters `OutputOverflow` at `P` when OUT is full (43_encoder.md R166, 60_exceptions.md
R196, R198). -/
def Obligations.EmitAppendsOrOverflows : Prop :=
  ∀ (b : Byte) (s : State),
    (capFits s.params.outCap (s.enc.olen + 1) = true →
      ∃ t, emit b s = .ok t ∧ t.outMem.byteAt s.enc.olen = some b ∧ t.enc = { s.enc with olen := s.enc.olen + 1 } ∧
        (∀ a, a ≠ s.enc.olen → t.outMem.byteAt a = s.outMem.byteAt a) ∧
        t = { s with outMem := t.outMem, enc := t.enc }) ∧
    (capFits s.params.outCap (s.enc.olen + 1) = false →
      emit b s = .error { s with
        err := .outputOverflow, errPos := s.enc.p, outLen := 0, enc := { s.enc with olen := 0 }, run := .error })

/-- A pass without a selection: the byte at the cursor joins the pending direct run and `P` moves by one. Below `ENC_MAXLEN`
nothing is written to OUT; on reaching it the run is written as one direct copy and is empty again, or, where OUT has no room for
it, `OutputOverflow` is entered at the cursor already moved (43_encoder.md R152, R165, R166, R168, 60_exceptions.md R196, R198). -/
def Obligations.LiteralPassExtendsTheRun : Prop :=
  ∀ s : State, Inv s → Encoding s → s.host = [] → s.enc.p < s.enc.n →
    select (candidates (inputBytes s) s.enc.p (runScans s.params (inputBytes s) s.enc.n s.enc.p)) = none →
    (s.enc.litLen.toNat + 1 < Config.encMaxLen s.params →
      ∃ t, step s = .next t ∧ t.run = .busy ∧ t.outMem = s.outMem ∧ t.enc.olen = s.enc.olen ∧ t.enc.n = s.enc.n ∧
        t.enc.p = s.enc.p + 1 ∧ t.enc.litLen.toNat = s.enc.litLen.toNat + 1 ∧
        t.enc.litStart = (if s.enc.litLen.toNat = 0 then s.enc.p else s.enc.litStart) ∧
        t = { s with enc := t.enc, fresh := t.fresh }) ∧
    (s.enc.litLen.toNat + 1 = Config.encMaxLen s.params →
      capFits s.params.outCap (s.enc.olen + ((headerBytes .direct (s.enc.litLen.toNat + 1)).length +
        (s.enc.litLen.toNat + 1))) = true →
      ∃ t, step s = .next t ∧ t.run = .busy ∧ t.enc.n = s.enc.n ∧ t.enc.p = s.enc.p + 1 ∧ t.enc.litLen = 0 ∧
        emitted t = emitted s ++ headerBytes .direct (s.enc.litLen.toNat + 1) ++
          ((inputBytes s).drop s.enc.litStart).take (s.enc.litLen.toNat + 1) ∧
        t.enc.olen = (emitted t).length ∧ t = { s with outMem := t.outMem, enc := t.enc, fresh := t.fresh }) ∧
    (s.enc.litLen.toNat + 1 = Config.encMaxLen s.params →
      capFits s.params.outCap (s.enc.olen + ((headerBytes .direct (s.enc.litLen.toNat + 1)).length +
        (s.enc.litLen.toNat + 1))) = false →
      Overflows (step s) s (s.enc.p + 1))

/-- A pass with a selection: with room in OUT the pending run is written as one direct copy, then the selected instruction, at the
write position, `P` moves by the instruction's length and the pending run is empty; without room for both `OutputOverflow` is
entered at the old cursor (43_encoder.md R152, R164, R165, R166, R167, 60_exceptions.md R196, R198). -/
def Obligations.SelectedPassWritesTheInstruction : Prop :=
  ∀ (s : State) (c : Cand), Inv s → Encoding s → s.host = [] → s.enc.p < s.enc.n →
    select (candidates (inputBytes s) s.enc.p (runScans s.params (inputBytes s) s.enc.n s.enc.p)) = some c →
    (capFits s.params.outCap
        (s.enc.olen + (pendingInstr s ++ headerBytes c.kind c.len ++ c.payload).length) = true →
      ∃ t, step s = .next t ∧ t.run = .busy ∧ t.enc.p = s.enc.p + c.len ∧ t.enc.litLen = 0 ∧ t.enc.n = s.enc.n ∧
        emitted t = emitted s ++ pendingInstr s ++ headerBytes c.kind c.len ++ c.payload ∧
        t.enc.olen = (emitted t).length ∧ t = { s with outMem := t.outMem, enc := t.enc, fresh := t.fresh }) ∧
    (capFits s.params.outCap
        (s.enc.olen + (pendingInstr s ++ headerBytes c.kind c.len ++ c.payload).length) = false →
      Overflows (step s) s s.enc.p)

/-- The end of an ENC run: with room in OUT the pending run, then the terminator, then `stop OK` with `IN_POS = N`,
`OUT_LEN = OLEN` and `EOS`, `ERR` as they were; without room for both `OutputOverflow` is entered at `P = N` (43_encoder.md R166,
R169, 60_exceptions.md R196, R198). -/
def Obligations.EncoderEndsWithTheTerminator : Prop :=
  ∀ s : State, Inv s → Encoding s → s.host = [] → s.enc.p = s.enc.n →
    (capFits s.params.outCap (s.enc.olen + (pendingInstr s).length + 1) = true →
      ∃ t, step s = .next t ∧ t.run = .done ∧ t.inPos = s.enc.n ∧ t.eos = s.eos ∧ t.err = s.err ∧
        resultBytes t = emitted s ++ pendingInstr s ++ [0xFF#8] ∧ t.outLen = (resultBytes t).length ∧
        t = { s with outMem := t.outMem, enc := t.enc, inPos := t.inPos, outLen := t.outLen, run := t.run, fresh := t.fresh }) ∧
    (capFits s.params.outCap (s.enc.olen + (pendingInstr s).length + 1) = false → Overflows (step s) s s.enc.n)

/-- An ENC run ends: from `P` at most `N - P` passes and the final step take it out of `BUSY`
(70_reset_and_hazards.md R236). -/
def Obligations.EncoderRunEnds : Prop :=
  ∀ s : State, Inv s → Encoding s → s.host = [] →
    ∃ k t, k ≤ s.enc.n - s.enc.p + 1 ∧ Sys2Proof.core.run k s = .next t ∧ t.run ≠ .busy

/-- The prefix invariant (43_encoder.md R171): it holds at call start, and every pass of the encoder that leaves it running keeps
it. -/
def Obligations.EncoderKeepsThePrefix : Prop :=
  (∀ (c : Params) (x : List Byte), PrefixKept (encCall c x)) ∧
  (∀ s t : State, Inv s → Encoding s → s.host = [] → PrefixKept s → step s = .next t →
    t.run = .busy → PrefixKept t)

/-- The size bound (43_encoder.md R173): with `OUT_CAP ≥ 2 * IN_LEN + 1` no step of the encoder enters the capacity fault, every
step keeps the size invariant, which holds at call start, and the result has at most `2 * N + 1` bytes. -/
def Obligations.EncoderNeverOverflows : Prop :=
  (∀ (c : Params) (x : List Byte), SizeKept (encCall c x)) ∧
  (∀ s t : State, Inv s → Encoding s → s.host = [] → SizeKept s →
    capFits s.params.outCap (2 * s.inLen + 1) = true → step s = .next t →
    t.run ≠ .error ∧ (t.run = .busy → SizeKept t) ∧ (t.run = .done → t.outLen ≤ 2 * s.enc.n + 1))

/-- The round trip (00_scope.md R5, 43_encoder.md R150, R172): for every byte sequence and either value of `ENC_EXT`, with room in
OUT on both runs, an ENC run ends in `DONE`, and a DEC run on its result, in a block with any parameters that leave room, ends in
`DONE` with `EOS = 1`, all of the stream consumed, and the sequence as its output. -/
def Obligations.RoundTrip : Prop :=
  ∀ (x : List Byte) (c c' : Params), capFits c.outCap (2 * x.length + 1) = true →
    capFits c'.outCap x.length = true →
    ∃ k t, Sys2Proof.core.run k (encCall c x) = .next t ∧ t.run = .done ∧ t.err = .none ∧ t.inPos = x.length ∧
      t.outLen = (resultBytes t).length ∧ DecodesTo c' (resultBytes t) true x
end

