-- ==== Sys2Proof/Laws/Memory.lean ====
section
/-! SUPPORT. The laws of a memory space: a read after a write, the canonical form kept, runs of bytes, and what the
overlapping copy keeps. -/

namespace Sys2Proof.Machine

@[simp] theorem Mem.byteAt_nil (a : Nat) : Mem.byteAt [] a = none := rfl

/-- A read after a write to the same position gives the byte; every other position reads as before. -/
theorem Mem.byteAt_store (m : Mem) (a : Nat) (b : Byte) (c : Nat) :
    (m.store a b).byteAt c = if c = a then some b else m.byteAt c := by
  induction m with
  | nil => simp [Mem.store, Mem.byteAt]
  | cons kv m ih =>
    obtain ⟨k, v⟩ := kv
    simp only [Mem.store]
    split
    · simp [Mem.byteAt]
    · split
      · subst_vars
        simp only [Mem.byteAt]
        split <;> rfl
      · simp only [Mem.byteAt, ih]
        by_cases hc : c = k
        · subst hc
          simp_all [eq_comm]
        · simp [hc]

@[simp] theorem Mem.byteAt_store_self (m : Mem) (a : Nat) (b : Byte) : (m.store a b).byteAt a = some b := by
  simp [Mem.byteAt_store]

theorem Mem.byteAt_store_other (m : Mem) (a : Nat) (b : Byte) {c : Nat} (h : c ≠ a) :
    (m.store a b).byteAt c = m.byteAt c := by
  simp [Mem.byteAt_store, h]

/-! ## The canonical form -/

theorem Mem.risesAbove_mono {m : Mem} {a c : Nat} (h : m.risesAbove a = true) (hc : c ≤ a) : m.risesAbove c = true := by
  cases m with
  | nil => rfl
  | cons kv m =>
    obtain ⟨k, v⟩ := kv
    simp only [Mem.risesAbove, Bool.and_eq_true, decide_eq_true_eq] at h ⊢
    exact ⟨by omega, h.2⟩

theorem Mem.wf_of_risesAbove {m : Mem} {a : Nat} (h : m.risesAbove a = true) : m.wf = true := by
  cases m with
  | nil => rfl
  | cons kv m =>
    simp only [Mem.risesAbove, Bool.and_eq_true] at h
    exact h.2

theorem Mem.risesAbove_store {m : Mem} {c a : Nat} (b : Byte) (h : m.risesAbove c = true) (hc : c < a) :
    (m.store a b).risesAbove c = true := by
  induction m generalizing c with
  | nil => simp [Mem.store, Mem.risesAbove, hc]
  | cons kv m ih =>
    obtain ⟨k, v⟩ := kv
    simp only [Mem.risesAbove, Bool.and_eq_true, decide_eq_true_eq] at h
    simp only [Mem.store]
    split
    · rename_i hlt
      simp [Mem.risesAbove, hc, hlt, h.2]
    · split
      · simp [Mem.risesAbove, h.1, h.2]
      · rename_i h1 h2
        simp [Mem.risesAbove, h.1, ih h.2 (by omega)]

/-- A write keeps the canonical form. -/
theorem Mem.wf_store {m : Mem} (a : Nat) (b : Byte) (h : m.wf = true) : (m.store a b).wf = true := by
  cases m with
  | nil => rfl
  | cons kv m =>
    obtain ⟨k, v⟩ := kv
    simp only [Mem.store]
    split
    · rename_i hlt
      have hr : Mem.risesAbove m k = true := h
      simp [Mem.wf, Mem.risesAbove, hlt, hr]
    · split
      · exact h
      · exact Mem.risesAbove_store b h (by omega)

/-- Writing several bytes keeps the canonical form. -/
theorem Mem.wf_storeRun {m : Mem} (a : Nat) (bs : List Byte) (h : m.wf = true) : (m.storeRun a bs).wf = true := by
  induction bs generalizing m a with
  | nil => exact h
  | cons b bs ih => exact ih (a + 1) (Mem.wf_store a b h)

/-- The overlapping copy keeps the canonical form. -/
theorem wf_copyBytes (free : Nat → Byte) (n src dst : Nat) {m : Mem} (h : m.wf = true) :
    (copyBytes free n src dst m).wf = true := by
  induction n generalizing src dst m with
  | zero => exact h
  | succ n ih => exact ih _ _ (Mem.wf_store _ _ h)

/-! ## Runs of bytes -/

/-- What a position reads after a run was written: the run's byte inside it, else as before. -/
theorem Mem.byteAt_storeRun (m : Mem) (a : Nat) (bs : List Byte) (c : Nat) :
    (m.storeRun a bs).byteAt c = if a ≤ c ∧ c < a + bs.length then bs[c - a]? else m.byteAt c := by
  induction bs generalizing m a with
  | nil =>
    simp only [Mem.storeRun, List.length_nil]
    rw [if_neg (by omega)]
  | cons b bs ih =>
    simp only [Mem.storeRun, ih, Mem.byteAt_store, List.length_cons]
    by_cases h1 : a + 1 ≤ c ∧ c < a + 1 + bs.length
    · have h2 : a ≤ c ∧ c < a + (bs.length + 1) := by omega
      obtain ⟨k, hk⟩ : ∃ k, c - a = k + 1 := ⟨c - (a + 1), by omega⟩
      have hk' : c - (a + 1) = k := by omega
      rw [if_pos h1, if_pos h2, hk, hk']
      rfl
    · by_cases h3 : c = a
      · have h2 : a ≤ c ∧ c < a + (bs.length + 1) := by omega
        have h4 : c - a = 0 := by omega
        rw [if_neg h1, if_pos h3, if_pos h2, h4]
        rfl
      · have h2 : ¬(a ≤ c ∧ c < a + (bs.length + 1)) := by omega
        rw [if_neg h1, if_neg h3, if_neg h2]

theorem Mem.length_runFrom_le (m : Mem) (a n : Nat) : (m.runFrom a n).length ≤ n := by
  induction n generalizing a with
  | zero => simp [Mem.runFrom]
  | succ n ih =>
    simp only [Mem.runFrom]
    split
    · have := ih (a + 1)
      simp
      omega
    · simp

/-- A run read back holds, at each index inside it, the byte at that position. -/
theorem Mem.runFrom_getElem? (m : Mem) (a n k : Nat) (h : k < (m.runFrom a n).length) :
    (m.runFrom a n)[k]? = m.byteAt (a + k) := by
  induction n generalizing a k with
  | zero => simp [Mem.runFrom] at h
  | succ n ih =>
    cases hb : m.byteAt a with
    | none => simp [Mem.runFrom, hb] at h
    | some b =>
      simp only [Mem.runFrom, hb] at h ⊢
      cases k with
      | zero => simpa using hb.symm
      | succ k =>
        simp only [List.length_cons, Nat.add_lt_add_iff_right] at h
        have hk := ih (a + 1) k h
        rw [show a + 1 + k = a + (k + 1) by omega] at hk
        simpa using hk

/-- A run is full when every position in it was written. -/
theorem Mem.length_runFrom {m : Mem} {a n : Nat} (h : ∀ k, k < n → (m.byteAt (a + k)).isSome) :
    (m.runFrom a n).length = n := by
  induction n generalizing a with
  | zero => rfl
  | succ n ih =>
    obtain ⟨b, hb⟩ := Option.isSome_iff_exists.mp (h 0 (by omega))
    simp only [Nat.add_zero] at hb
    simp only [Mem.runFrom, hb, List.length_cons]
    rw [ih]
    intro k hk
    have := h (k + 1) (by omega)
    rwa [show a + 1 + k = a + (k + 1) by omega]

/-- The overlapping copy writes only `[dst, dst + n)`. -/
theorem copyBytes_frame (free : Nat → Byte) (n src dst : Nat) (m : Mem) (a : Nat) (ha : a < dst ∨ dst + n ≤ a) :
    (copyBytes free n src dst m).byteAt a = m.byteAt a := by
  induction n generalizing src dst m with
  | zero => rfl
  | succ n ih => rw [copyBytes, ih _ _ _ (by omega), Mem.byteAt_store_other _ _ _ (by omega)]

/-! ## Reads, with a free value where nothing was written -/

/-- A position that holds a byte reads as that byte. -/
theorem Mem.readOr_of_byteAt {free : Nat → Byte} {m : Mem} {a : Nat} {b : Byte} (h : m.byteAt a = some b) :
    m.readOr free a = b := by
  simp [Mem.readOr, h]

/-- A read after a write, of the same place or another. -/
theorem Mem.readOr_store (free : Nat → Byte) (m : Mem) (a : Nat) (b : Byte) (c : Nat) :
    (m.store a b).readOr free c = if c = a then b else m.readOr free c := by
  simp only [Mem.readOr, Mem.byteAt_store]
  by_cases h : c = a <;> simp [h]

@[simp] theorem length_inBytes (s : State) (a n : Nat) : (inBytes s a n).length = n := by simp [inBytes]

/-- A run of IN holds, at each index inside it, the byte at that position. -/
theorem inBytes_getElem? (s : State) (a n k : Nat) (h : k < n) : (inBytes s a n)[k]? = some (inByte s (a + k)) := by
  simp [inBytes, h]

/-- IN reads the same in states that agree on IN and on the count of power-on resets. -/
theorem inBytes_congr {s t : State} (hm : t.inMem = s.inMem) (hr : t.resets = s.resets) (a n : Nat) :
    inBytes t a n = inBytes s a n := by
  simp [inBytes, inByte, hm, hr]

end Sys2Proof.Machine
end

