-- ==== Sys2Proof/Laws/State.lean ====
section
/-! SUPPORT. One lemma per field per update of the state, true by computation, so that no proof unfolds a record update. -/

namespace Sys2Proof.Machine

variable (s : State)

/-! ## The fault entry (60_exceptions.md R198) -/

@[simp] theorem raise_params (e : Engine) (f : ErrCode) (pos : Nat) : (raise e f pos s).params = s.params :=
    by cases e <;> rfl
@[simp] theorem raise_inMem (e : Engine) (f : ErrCode) (pos : Nat) : (raise e f pos s).inMem = s.inMem :=
    by cases e <;> rfl
@[simp] theorem raise_outMem (e : Engine) (f : ErrCode) (pos : Nat) : (raise e f pos s).outMem = s.outMem :=
    by cases e <;> rfl
@[simp] theorem raise_op (e : Engine) (f : ErrCode) (pos : Nat) : (raise e f pos s).op = s.op := by cases e <;> rfl
@[simp] theorem raise_inLen (e : Engine) (f : ErrCode) (pos : Nat) : (raise e f pos s).inLen = s.inLen :=
    by cases e <;> rfl
@[simp] theorem raise_run (e : Engine) (f : ErrCode) (pos : Nat) : (raise e f pos s).run = .error :=
    by cases e <;> rfl
@[simp] theorem raise_eos (e : Engine) (f : ErrCode) (pos : Nat) : (raise e f pos s).eos = s.eos := by cases e <;> rfl
@[simp] theorem raise_err (e : Engine) (f : ErrCode) (pos : Nat) : (raise e f pos s).err = f := by cases e <;> rfl
@[simp] theorem raise_errPos (e : Engine) (f : ErrCode) (pos : Nat) : (raise e f pos s).errPos = pos :=
    by cases e <;> rfl
@[simp] theorem raise_inPos (e : Engine) (f : ErrCode) (pos : Nat) : (raise e f pos s).inPos = s.inPos :=
    by cases e <;> rfl
@[simp] theorem raise_outLen (e : Engine) (f : ErrCode) (pos : Nat) : (raise e f pos s).outLen = 0 :=
    by cases e <;> rfl
@[simp] theorem raise_dec_ip (e : Engine) (f : ErrCode) (pos : Nat) : (raise e f pos s).dec.ip = s.dec.ip :=
    by cases e <;> rfl
@[simp] theorem raise_host (e : Engine) (f : ErrCode) (pos : Nat) : (raise e f pos s).host = s.host :=
    by cases e <;> rfl
@[simp] theorem raise_hostData (e : Engine) (f : ErrCode) (pos : Nat) : (raise e f pos s).hostData = s.hostData :=
    by cases e <;> rfl
@[simp] theorem raise_fresh (e : Engine) (f : ErrCode) (pos : Nat) : (raise e f pos s).fresh = s.fresh :=
    by cases e <;> rfl
@[simp] theorem raise_resets (e : Engine) (f : ErrCode) (pos : Nat) : (raise e f pos s).resets = s.resets := by cases e <;> rfl
@[simp] theorem raise_decompress_olen (f : ErrCode) (pos : Nat) : (raise .decompress f pos s).dec.olen = 0 := rfl
@[simp] theorem raise_decompress_enc (f : ErrCode) (pos : Nat) : (raise .decompress f pos s).enc = s.enc := rfl
@[simp] theorem raise_compress_dec (f : ErrCode) (pos : Nat) : (raise .compress f pos s).dec = s.dec := rfl
@[simp] theorem raise_compress_olen (f : ErrCode) (pos : Nat) : (raise .compress f pos s).enc.olen = 0 := rfl
@[simp] theorem raise_enc_p (e : Engine) (f : ErrCode) (pos : Nat) : (raise e f pos s).enc.p = s.enc.p := by
  cases e <;> rfl
@[simp] theorem raise_enc_n (e : Engine) (f : ErrCode) (pos : Nat) : (raise e f pos s).enc.n = s.enc.n := by
  cases e <;> rfl
@[simp] theorem raise_enc_litLen (e : Engine) (f : ErrCode) (pos : Nat) :
    (raise e f pos s).enc.litLen = s.enc.litLen := by cases e <;> rfl

/-! ## `stop OK` of DEC (40_decoder_loop.md R99) -/

@[simp] theorem stopDec_params (b : Bool) : (stopDec b s).params = s.params := rfl
@[simp] theorem stopDec_inMem (b : Bool) : (stopDec b s).inMem = s.inMem := rfl
@[simp] theorem stopDec_outMem (b : Bool) : (stopDec b s).outMem = s.outMem := rfl
@[simp] theorem stopDec_op (b : Bool) : (stopDec b s).op = s.op := rfl
@[simp] theorem stopDec_inLen (b : Bool) : (stopDec b s).inLen = s.inLen := rfl
@[simp] theorem stopDec_run (b : Bool) : (stopDec b s).run = .done := rfl
@[simp] theorem stopDec_eos (b : Bool) : (stopDec b s).eos = b := rfl
@[simp] theorem stopDec_err (b : Bool) : (stopDec b s).err = s.err := rfl
@[simp] theorem stopDec_errPos (b : Bool) : (stopDec b s).errPos = s.errPos := rfl
@[simp] theorem stopDec_inPos (b : Bool) : (stopDec b s).inPos = s.dec.ip := rfl
@[simp] theorem stopDec_outLen (b : Bool) : (stopDec b s).outLen = s.dec.olen := rfl
@[simp] theorem stopDec_dec_ip (b : Bool) : (stopDec b s).dec.ip = s.dec.ip := rfl
@[simp] theorem stopDec_dec_olen (b : Bool) : (stopDec b s).dec.olen = s.dec.olen := rfl
@[simp] theorem stopDec_enc (b : Bool) : (stopDec b s).enc = s.enc := rfl
@[simp] theorem stopDec_host (b : Bool) : (stopDec b s).host = s.host := rfl
@[simp] theorem stopDec_hostData (b : Bool) : (stopDec b s).hostData = s.hostData := rfl
@[simp] theorem stopDec_fresh (b : Bool) : (stopDec b s).fresh = s.fresh := rfl
@[simp] theorem stopDec_resets (b : Bool) : (stopDec b s).resets = s.resets := rfl

/-! ## `stop OK` of ENC (43_encoder.md R169) -/

@[simp] theorem stopEnc_params : (stopEnc s).params = s.params := rfl
@[simp] theorem stopEnc_inMem : (stopEnc s).inMem = s.inMem := rfl
@[simp] theorem stopEnc_outMem : (stopEnc s).outMem = s.outMem := rfl
@[simp] theorem stopEnc_op : (stopEnc s).op = s.op := rfl
@[simp] theorem stopEnc_inLen : (stopEnc s).inLen = s.inLen := rfl
@[simp] theorem stopEnc_run : (stopEnc s).run = .done := rfl
@[simp] theorem stopEnc_eos : (stopEnc s).eos = s.eos := rfl
@[simp] theorem stopEnc_err : (stopEnc s).err = s.err := rfl
@[simp] theorem stopEnc_errPos : (stopEnc s).errPos = s.errPos := rfl
@[simp] theorem stopEnc_inPos : (stopEnc s).inPos = s.enc.n := rfl
@[simp] theorem stopEnc_outLen : (stopEnc s).outLen = s.enc.olen := rfl
@[simp] theorem stopEnc_dec_ip : (stopEnc s).dec.ip = s.dec.ip := rfl
@[simp] theorem stopEnc_dec_olen : (stopEnc s).dec.olen = s.dec.olen := rfl
@[simp] theorem stopEnc_enc : (stopEnc s).enc = s.enc := rfl
@[simp] theorem stopEnc_host : (stopEnc s).host = s.host := rfl
@[simp] theorem stopEnc_hostData : (stopEnc s).hostData = s.hostData := rfl
@[simp] theorem stopEnc_fresh : (stopEnc s).fresh = s.fresh := rfl
@[simp] theorem stopEnc_resets : (stopEnc s).resets = s.resets := rfl

/-! ## The header latches (10_state.md R13) -/

@[simp] theorem latchHeader_params (hd : Header) : (latchHeader hd s).params = s.params := rfl
@[simp] theorem latchHeader_inMem (hd : Header) : (latchHeader hd s).inMem = s.inMem := rfl
@[simp] theorem latchHeader_outMem (hd : Header) : (latchHeader hd s).outMem = s.outMem := rfl
@[simp] theorem latchHeader_op (hd : Header) : (latchHeader hd s).op = s.op := rfl
@[simp] theorem latchHeader_inLen (hd : Header) : (latchHeader hd s).inLen = s.inLen := rfl
@[simp] theorem latchHeader_run (hd : Header) : (latchHeader hd s).run = s.run := rfl
@[simp] theorem latchHeader_eos (hd : Header) : (latchHeader hd s).eos = s.eos := rfl
@[simp] theorem latchHeader_err (hd : Header) : (latchHeader hd s).err = s.err := rfl
@[simp] theorem latchHeader_errPos (hd : Header) : (latchHeader hd s).errPos = s.errPos := rfl
@[simp] theorem latchHeader_inPos (hd : Header) : (latchHeader hd s).inPos = s.inPos := rfl
@[simp] theorem latchHeader_outLen (hd : Header) : (latchHeader hd s).outLen = s.outLen := rfl
@[simp] theorem latchHeader_dec_ip (hd : Header) : (latchHeader hd s).dec.ip = s.dec.ip := rfl
@[simp] theorem latchHeader_dec_olen (hd : Header) : (latchHeader hd s).dec.olen = s.dec.olen := rfl
@[simp] theorem latchHeader_enc (hd : Header) : (latchHeader hd s).enc = s.enc := rfl
@[simp] theorem latchHeader_host (hd : Header) : (latchHeader hd s).host = s.host := rfl
@[simp] theorem latchHeader_hostData (hd : Header) : (latchHeader hd s).hostData = s.hostData := rfl
@[simp] theorem latchHeader_fresh (hd : Header) : (latchHeader hd s).fresh = s.fresh := rfl
@[simp] theorem latchHeader_resets (hd : Header) : (latchHeader hd s).resets = s.resets := rfl

/-! ## The header byte latch -/

@[simp] theorem latchFirst_params (b : Byte) : (latchFirst b s).params = s.params := rfl
@[simp] theorem latchFirst_inMem (b : Byte) : (latchFirst b s).inMem = s.inMem := rfl
@[simp] theorem latchFirst_outMem (b : Byte) : (latchFirst b s).outMem = s.outMem := rfl
@[simp] theorem latchFirst_op (b : Byte) : (latchFirst b s).op = s.op := rfl
@[simp] theorem latchFirst_inLen (b : Byte) : (latchFirst b s).inLen = s.inLen := rfl
@[simp] theorem latchFirst_run (b : Byte) : (latchFirst b s).run = s.run := rfl
@[simp] theorem latchFirst_eos (b : Byte) : (latchFirst b s).eos = s.eos := rfl
@[simp] theorem latchFirst_err (b : Byte) : (latchFirst b s).err = s.err := rfl
@[simp] theorem latchFirst_errPos (b : Byte) : (latchFirst b s).errPos = s.errPos := rfl
@[simp] theorem latchFirst_inPos (b : Byte) : (latchFirst b s).inPos = s.inPos := rfl
@[simp] theorem latchFirst_outLen (b : Byte) : (latchFirst b s).outLen = s.outLen := rfl
@[simp] theorem latchFirst_dec_ip (b : Byte) : (latchFirst b s).dec.ip = s.dec.ip := rfl
@[simp] theorem latchFirst_dec_olen (b : Byte) : (latchFirst b s).dec.olen = s.dec.olen := rfl
@[simp] theorem latchFirst_enc (b : Byte) : (latchFirst b s).enc = s.enc := rfl
@[simp] theorem latchFirst_host (b : Byte) : (latchFirst b s).host = s.host := rfl
@[simp] theorem latchFirst_hostData (b : Byte) : (latchFirst b s).hostData = s.hostData := rfl
@[simp] theorem latchFirst_fresh (b : Byte) : (latchFirst b s).fresh = s.fresh := rfl
@[simp] theorem latchFirst_resets (b : Byte) : (latchFirst b s).resets = s.resets := rfl

/-! ## The operand latches (10_state.md R14) -/

@[simp] theorem latchOperands_params (f : DecLatch → DecLatch) : (latchOperands f s).params = s.params := rfl
@[simp] theorem latchOperands_inMem (f : DecLatch → DecLatch) : (latchOperands f s).inMem = s.inMem := rfl
@[simp] theorem latchOperands_outMem (f : DecLatch → DecLatch) : (latchOperands f s).outMem = s.outMem := rfl
@[simp] theorem latchOperands_op (f : DecLatch → DecLatch) : (latchOperands f s).op = s.op := rfl
@[simp] theorem latchOperands_inLen (f : DecLatch → DecLatch) : (latchOperands f s).inLen = s.inLen := rfl
@[simp] theorem latchOperands_run (f : DecLatch → DecLatch) : (latchOperands f s).run = s.run := rfl
@[simp] theorem latchOperands_eos (f : DecLatch → DecLatch) : (latchOperands f s).eos = s.eos := rfl
@[simp] theorem latchOperands_err (f : DecLatch → DecLatch) : (latchOperands f s).err = s.err := rfl
@[simp] theorem latchOperands_errPos (f : DecLatch → DecLatch) : (latchOperands f s).errPos = s.errPos := rfl
@[simp] theorem latchOperands_inPos (f : DecLatch → DecLatch) : (latchOperands f s).inPos = s.inPos := rfl
@[simp] theorem latchOperands_outLen (f : DecLatch → DecLatch) : (latchOperands f s).outLen = s.outLen := rfl
@[simp] theorem latchOperands_dec_ip (f : DecLatch → DecLatch) : (latchOperands f s).dec.ip = s.dec.ip := rfl
@[simp] theorem latchOperands_dec_olen (f : DecLatch → DecLatch) : (latchOperands f s).dec.olen = s.dec.olen := rfl
@[simp] theorem latchOperands_enc (f : DecLatch → DecLatch) : (latchOperands f s).enc = s.enc := rfl
@[simp] theorem latchOperands_host (f : DecLatch → DecLatch) : (latchOperands f s).host = s.host := rfl
@[simp] theorem latchOperands_hostData (f : DecLatch → DecLatch) : (latchOperands f s).hostData = s.hostData := rfl
@[simp] theorem latchOperands_fresh (f : DecLatch → DecLatch) : (latchOperands f s).fresh = s.fresh := rfl
@[simp] theorem latchOperands_resets (f : DecLatch → DecLatch) : (latchOperands f s).resets = s.resets := rfl

/-! ## Completing an instruction of kinds 0 to 3 -/

@[simp] theorem appendBytes_params (hd : Header) (bs : List Byte) : (appendBytes hd bs s).params = s.params := rfl
@[simp] theorem appendBytes_inMem (hd : Header) (bs : List Byte) : (appendBytes hd bs s).inMem = s.inMem := rfl
@[simp] theorem appendBytes_outMem (hd : Header) (bs : List Byte) : (appendBytes hd bs s).outMem = s.outMem.storeRun s.dec.olen bs :=
    rfl
@[simp] theorem appendBytes_op (hd : Header) (bs : List Byte) : (appendBytes hd bs s).op = s.op := rfl
@[simp] theorem appendBytes_inLen (hd : Header) (bs : List Byte) : (appendBytes hd bs s).inLen = s.inLen := rfl
@[simp] theorem appendBytes_run (hd : Header) (bs : List Byte) : (appendBytes hd bs s).run = s.run := rfl
@[simp] theorem appendBytes_eos (hd : Header) (bs : List Byte) : (appendBytes hd bs s).eos = s.eos := rfl
@[simp] theorem appendBytes_err (hd : Header) (bs : List Byte) : (appendBytes hd bs s).err = s.err := rfl
@[simp] theorem appendBytes_errPos (hd : Header) (bs : List Byte) : (appendBytes hd bs s).errPos = s.errPos := rfl
@[simp] theorem appendBytes_inPos (hd : Header) (bs : List Byte) : (appendBytes hd bs s).inPos = s.inPos := rfl
@[simp] theorem appendBytes_outLen (hd : Header) (bs : List Byte) : (appendBytes hd bs s).outLen = s.outLen := rfl
@[simp] theorem appendBytes_dec_ip (hd : Header) (bs : List Byte) : (appendBytes hd bs s).dec.ip = s.dec.ip + hd.size :=
    rfl
@[simp] theorem appendBytes_dec_olen (hd : Header) (bs : List Byte) : (appendBytes hd bs s).dec.olen = s.dec.olen + hd.len :=
    rfl
@[simp] theorem appendBytes_enc (hd : Header) (bs : List Byte) : (appendBytes hd bs s).enc = s.enc := rfl
@[simp] theorem appendBytes_host (hd : Header) (bs : List Byte) : (appendBytes hd bs s).host = s.host := rfl
@[simp] theorem appendBytes_hostData (hd : Header) (bs : List Byte) : (appendBytes hd bs s).hostData = s.hostData :=
    rfl
@[simp] theorem appendBytes_fresh (hd : Header) (bs : List Byte) : (appendBytes hd bs s).fresh = s.fresh := rfl
@[simp] theorem appendBytes_resets (hd : Header) (bs : List Byte) : (appendBytes hd bs s).resets = s.resets :=
    rfl

/-! ## Completing a repeat -/

@[simp] theorem finishCopy_params (hd : Header) (m : Mem) : (finishCopy hd m s).params = s.params := rfl
@[simp] theorem finishCopy_inMem (hd : Header) (m : Mem) : (finishCopy hd m s).inMem = s.inMem := rfl
@[simp] theorem finishCopy_outMem (hd : Header) (m : Mem) : (finishCopy hd m s).outMem = m := rfl
@[simp] theorem finishCopy_op (hd : Header) (m : Mem) : (finishCopy hd m s).op = s.op := rfl
@[simp] theorem finishCopy_inLen (hd : Header) (m : Mem) : (finishCopy hd m s).inLen = s.inLen := rfl
@[simp] theorem finishCopy_run (hd : Header) (m : Mem) : (finishCopy hd m s).run = s.run := rfl
@[simp] theorem finishCopy_eos (hd : Header) (m : Mem) : (finishCopy hd m s).eos = s.eos := rfl
@[simp] theorem finishCopy_err (hd : Header) (m : Mem) : (finishCopy hd m s).err = s.err := rfl
@[simp] theorem finishCopy_errPos (hd : Header) (m : Mem) : (finishCopy hd m s).errPos = s.errPos := rfl
@[simp] theorem finishCopy_inPos (hd : Header) (m : Mem) : (finishCopy hd m s).inPos = s.inPos := rfl
@[simp] theorem finishCopy_outLen (hd : Header) (m : Mem) : (finishCopy hd m s).outLen = s.outLen := rfl
@[simp] theorem finishCopy_dec_ip (hd : Header) (m : Mem) : (finishCopy hd m s).dec.ip = s.dec.ip + hd.size := rfl
@[simp] theorem finishCopy_dec_olen (hd : Header) (m : Mem) : (finishCopy hd m s).dec.olen = s.dec.olen + hd.len :=
    rfl
@[simp] theorem finishCopy_enc (hd : Header) (m : Mem) : (finishCopy hd m s).enc = s.enc := rfl
@[simp] theorem finishCopy_host (hd : Header) (m : Mem) : (finishCopy hd m s).host = s.host := rfl
@[simp] theorem finishCopy_hostData (hd : Header) (m : Mem) : (finishCopy hd m s).hostData = s.hostData := rfl
@[simp] theorem finishCopy_fresh (hd : Header) (m : Mem) : (finishCopy hd m s).fresh = s.fresh := rfl
@[simp] theorem finishCopy_resets (hd : Header) (m : Mem) : (finishCopy hd m s).resets = s.resets := rfl

/-! ## Call start of DEC (70_reset_and_hazards.md R221) -/

@[simp] theorem startDec_params : (startDec s).params = s.params := rfl
@[simp] theorem startDec_inMem : (startDec s).inMem = s.inMem := rfl
@[simp] theorem startDec_outMem : (startDec s).outMem = [] := rfl
@[simp] theorem startDec_op : (startDec s).op = .decompress := rfl
@[simp] theorem startDec_inLen : (startDec s).inLen = s.inLen := rfl
@[simp] theorem startDec_run : (startDec s).run = .busy := rfl
@[simp] theorem startDec_eos : (startDec s).eos = false := rfl
@[simp] theorem startDec_err : (startDec s).err = .none := rfl
@[simp] theorem startDec_errPos : (startDec s).errPos = freePos s.params s.fresh := rfl
@[simp] theorem startDec_inPos : (startDec s).inPos = freePos s.params (s.fresh + 1) := rfl
@[simp] theorem startDec_outLen : (startDec s).outLen = 0 := rfl
@[simp] theorem startDec_dec_ip : (startDec s).dec.ip = 0 := rfl
@[simp] theorem startDec_dec_olen : (startDec s).dec.olen = 0 := rfl
@[simp] theorem startDec_enc : (startDec s).enc = s.enc := rfl
@[simp] theorem startDec_host : (startDec s).host = s.host := rfl
@[simp] theorem startDec_hostData : (startDec s).hostData = s.hostData := rfl
@[simp] theorem startDec_fresh : (startDec s).fresh = s.fresh + freeAtStart := rfl
@[simp] theorem startDec_resets : (startDec s).resets = s.resets := rfl

/-! ## Call start of ENC (70_reset_and_hazards.md R221) -/

@[simp] theorem startEnc_params : (startEnc s).params = s.params := rfl
@[simp] theorem startEnc_inMem : (startEnc s).inMem = s.inMem := rfl
@[simp] theorem startEnc_outMem : (startEnc s).outMem = [] := rfl
@[simp] theorem startEnc_op : (startEnc s).op = .compress := rfl
@[simp] theorem startEnc_inLen : (startEnc s).inLen = s.inLen := rfl
@[simp] theorem startEnc_run : (startEnc s).run = .busy := rfl
@[simp] theorem startEnc_eos : (startEnc s).eos = false := rfl
@[simp] theorem startEnc_err : (startEnc s).err = .none := rfl
@[simp] theorem startEnc_errPos : (startEnc s).errPos = freePos s.params s.fresh := rfl
@[simp] theorem startEnc_inPos : (startEnc s).inPos = freePos s.params (s.fresh + 1) := rfl
@[simp] theorem startEnc_outLen : (startEnc s).outLen = 0 := rfl
@[simp] theorem startEnc_dec_ip : (startEnc s).dec.ip = s.dec.ip := rfl
@[simp] theorem startEnc_dec_olen : (startEnc s).dec.olen = s.dec.olen := rfl
@[simp] theorem startEnc_host : (startEnc s).host = s.host := rfl
@[simp] theorem startEnc_hostData : (startEnc s).hostData = s.hostData := rfl
@[simp] theorem startEnc_fresh : (startEnc s).fresh = s.fresh + freeAtStart := rfl
@[simp] theorem startEnc_resets : (startEnc s).resets = s.resets := rfl
@[simp] theorem startEnc_enc_n : (startEnc s).enc.n = s.inLen := rfl
@[simp] theorem startEnc_enc_p : (startEnc s).enc.p = 0 := rfl
@[simp] theorem startEnc_enc_olen : (startEnc s).enc.olen = 0 := rfl
@[simp] theorem startEnc_enc_litLen : (startEnc s).enc.litLen = 0 := rfl

/-! ## Power-on reset (70_reset_and_hazards.md R220) -/

@[simp] theorem powerOn_params : (powerOn s).params = s.params := rfl
@[simp] theorem powerOn_inMem : (powerOn s).inMem = [] := rfl
@[simp] theorem powerOn_outMem : (powerOn s).outMem = [] := rfl
@[simp] theorem powerOn_op : (powerOn s).op = .decompress := rfl
@[simp] theorem powerOn_inLen : (powerOn s).inLen = 0 := rfl
@[simp] theorem powerOn_run : (powerOn s).run = .idle := rfl
@[simp] theorem powerOn_eos : (powerOn s).eos = false := rfl
@[simp] theorem powerOn_err : (powerOn s).err = .none := rfl
@[simp] theorem powerOn_errPos : (powerOn s).errPos = 0 := rfl
@[simp] theorem powerOn_inPos : (powerOn s).inPos = 0 := rfl
@[simp] theorem powerOn_outLen : (powerOn s).outLen = 0 := rfl
@[simp] theorem powerOn_dec_ip : (powerOn s).dec.ip = 0 := rfl
@[simp] theorem powerOn_dec_olen : (powerOn s).dec.olen = 0 := rfl
@[simp] theorem powerOn_host : (powerOn s).host = s.host := rfl
@[simp] theorem powerOn_hostData : (powerOn s).hostData = s.hostData := rfl
@[simp] theorem powerOn_fresh : (powerOn s).fresh = s.fresh + 1 := rfl
@[simp] theorem powerOn_resets : (powerOn s).resets = s.resets + 1 := rfl

/-! ## The candidate latches of ENC (10_state.md R19) -/

@[simp] theorem latchScans_params (r : Scans) (c : Option Cand) : (latchScans r c s).params = s.params := rfl
@[simp] theorem latchScans_inMem (r : Scans) (c : Option Cand) : (latchScans r c s).inMem = s.inMem := rfl
@[simp] theorem latchScans_outMem (r : Scans) (c : Option Cand) : (latchScans r c s).outMem = s.outMem := rfl
@[simp] theorem latchScans_op (r : Scans) (c : Option Cand) : (latchScans r c s).op = s.op := rfl
@[simp] theorem latchScans_inLen (r : Scans) (c : Option Cand) : (latchScans r c s).inLen = s.inLen := rfl
@[simp] theorem latchScans_run (r : Scans) (c : Option Cand) : (latchScans r c s).run = s.run := rfl
@[simp] theorem latchScans_eos (r : Scans) (c : Option Cand) : (latchScans r c s).eos = s.eos := rfl
@[simp] theorem latchScans_err (r : Scans) (c : Option Cand) : (latchScans r c s).err = s.err := rfl
@[simp] theorem latchScans_errPos (r : Scans) (c : Option Cand) : (latchScans r c s).errPos = s.errPos := rfl
@[simp] theorem latchScans_inPos (r : Scans) (c : Option Cand) : (latchScans r c s).inPos = s.inPos := rfl
@[simp] theorem latchScans_outLen (r : Scans) (c : Option Cand) : (latchScans r c s).outLen = s.outLen := rfl
@[simp] theorem latchScans_dec_ip (r : Scans) (c : Option Cand) : (latchScans r c s).dec.ip = s.dec.ip := rfl
@[simp] theorem latchScans_dec_olen (r : Scans) (c : Option Cand) : (latchScans r c s).dec.olen = s.dec.olen := rfl
@[simp] theorem latchScans_host (r : Scans) (c : Option Cand) : (latchScans r c s).host = s.host := rfl
@[simp] theorem latchScans_hostData (r : Scans) (c : Option Cand) : (latchScans r c s).hostData = s.hostData := rfl
@[simp] theorem latchScans_fresh (r : Scans) (c : Option Cand) : (latchScans r c s).fresh = s.fresh + 2 := rfl
@[simp] theorem latchScans_resets (r : Scans) (c : Option Cand) : (latchScans r c s).resets = s.resets := rfl
@[simp] theorem latchScans_enc_n (r : Scans) (c : Option Cand) : (latchScans r c s).enc.n = s.enc.n := rfl
@[simp] theorem latchScans_enc_p (r : Scans) (c : Option Cand) : (latchScans r c s).enc.p = s.enc.p := rfl
@[simp] theorem latchScans_enc_olen (r : Scans) (c : Option Cand) : (latchScans r c s).enc.olen = s.enc.olen := rfl
@[simp] theorem latchScans_enc_litStart (r : Scans) (c : Option Cand) : (latchScans r c s).enc.litStart = s.enc.litStart := rfl
@[simp] theorem latchScans_enc_litLen (r : Scans) (c : Option Cand) : (latchScans r c s).enc.litLen = s.enc.litLen := rfl

/-! ## A byte joins the pending direct run (43_encoder.md R168) -/

@[simp] theorem joinRun_params : (joinRun s).params = s.params := rfl
@[simp] theorem joinRun_inMem : (joinRun s).inMem = s.inMem := rfl
@[simp] theorem joinRun_outMem : (joinRun s).outMem = s.outMem := rfl
@[simp] theorem joinRun_op : (joinRun s).op = s.op := rfl
@[simp] theorem joinRun_inLen : (joinRun s).inLen = s.inLen := rfl
@[simp] theorem joinRun_run : (joinRun s).run = s.run := rfl
@[simp] theorem joinRun_eos : (joinRun s).eos = s.eos := rfl
@[simp] theorem joinRun_err : (joinRun s).err = s.err := rfl
@[simp] theorem joinRun_errPos : (joinRun s).errPos = s.errPos := rfl
@[simp] theorem joinRun_inPos : (joinRun s).inPos = s.inPos := rfl
@[simp] theorem joinRun_outLen : (joinRun s).outLen = s.outLen := rfl
@[simp] theorem joinRun_dec_ip : (joinRun s).dec.ip = s.dec.ip := rfl
@[simp] theorem joinRun_dec_olen : (joinRun s).dec.olen = s.dec.olen := rfl
@[simp] theorem joinRun_host : (joinRun s).host = s.host := rfl
@[simp] theorem joinRun_hostData : (joinRun s).hostData = s.hostData := rfl
@[simp] theorem joinRun_fresh : (joinRun s).fresh = s.fresh := rfl
@[simp] theorem joinRun_resets : (joinRun s).resets = s.resets := rfl
@[simp] theorem joinRun_enc_n : (joinRun s).enc.n = s.enc.n := rfl
@[simp] theorem joinRun_enc_p : (joinRun s).enc.p = s.enc.p + 1 := rfl
@[simp] theorem joinRun_enc_olen : (joinRun s).enc.olen = s.enc.olen := rfl
@[simp] theorem joinRun_enc_litLen : (joinRun s).enc.litLen = s.enc.litLen + 1 := rfl
@[simp] theorem joinRun_enc_litStart :
    (joinRun s).enc.litStart = if s.enc.litLen.toNat = 0 then s.enc.p else s.enc.litStart := rfl

/-! ## The pending direct run becomes empty (43_encoder.md R165, 10_state.md R18) -/

@[simp] theorem clearRun_params : (clearRun s).params = s.params := rfl
@[simp] theorem clearRun_inMem : (clearRun s).inMem = s.inMem := rfl
@[simp] theorem clearRun_outMem : (clearRun s).outMem = s.outMem := rfl
@[simp] theorem clearRun_op : (clearRun s).op = s.op := rfl
@[simp] theorem clearRun_inLen : (clearRun s).inLen = s.inLen := rfl
@[simp] theorem clearRun_run : (clearRun s).run = s.run := rfl
@[simp] theorem clearRun_eos : (clearRun s).eos = s.eos := rfl
@[simp] theorem clearRun_err : (clearRun s).err = s.err := rfl
@[simp] theorem clearRun_errPos : (clearRun s).errPos = s.errPos := rfl
@[simp] theorem clearRun_inPos : (clearRun s).inPos = s.inPos := rfl
@[simp] theorem clearRun_outLen : (clearRun s).outLen = s.outLen := rfl
@[simp] theorem clearRun_dec : (clearRun s).dec = s.dec := rfl
@[simp] theorem clearRun_host : (clearRun s).host = s.host := rfl
@[simp] theorem clearRun_hostData : (clearRun s).hostData = s.hostData := rfl
@[simp] theorem clearRun_enc_n : (clearRun s).enc.n = s.enc.n := rfl
@[simp] theorem clearRun_enc_p : (clearRun s).enc.p = s.enc.p := rfl
@[simp] theorem clearRun_enc_olen : (clearRun s).enc.olen = s.enc.olen := rfl
@[simp] theorem clearRun_fresh : (clearRun s).fresh = s.fresh + 1 := rfl
@[simp] theorem clearRun_resets : (clearRun s).resets = s.resets := rfl
@[simp] theorem clearRun_enc_litLen : (clearRun s).enc.litLen = 0 := rfl

end Sys2Proof.Machine
end

