-- ==== Sys2Proof/Laws/Decoder.lean ====
section
/-! SUPPORT. What the decoder's shared operations can do: one inversion lemma for each, the overlapping copy, and the three
ways an instruction can complete. -/

namespace Sys2Proof.Machine

/-! ## Latches are operand updates -/

theorem latchHeader_eq (hd : Header) (s : State) : latchHeader hd s = latchOperands (headerLatch hd) s := rfl

theorem latchFirst_eq (b : Byte) (s : State) : latchFirst b s = latchOperands (firstLatch b) s := rfl

theorem latchOperands_comp (f g : DecLatch → DecLatch) (s : State) :
    latchOperands f (latchOperands g s) = latchOperands (f ∘ g) s := rfl

theorem appendBytes_eq (hd : Header) (bs : List Byte) (s : State) :
    appendBytes hd bs s = finishCopy hd (s.outMem.storeRun s.dec.olen bs) s := rfl

/-! ## The shared operations -/

/-- Everything an instruction of kinds 0 to 3 can answer. -/
theorem runAppend_cases (hd : Header) (f : DecLatch → DecLatch) (bs : List Byte) (s : State) :
    (s.inLen < s.dec.ip + hd.size ∧
      runAppend hd f bs s = .next (raise .decompress .truncated s.dec.ip (latchHeader hd s))) ∨
    (s.dec.ip + hd.size ≤ s.inLen ∧ overflows s.params s.dec.olen hd.len = true ∧
      runAppend hd f bs s = .next (raise .decompress .outputOverflow s.dec.ip (latchHeader hd s))) ∨
    (s.dec.ip + hd.size ≤ s.inLen ∧ overflows s.params s.dec.olen hd.len = false ∧
      runAppend hd f bs s = .next (appendBytes hd bs (latchOperands f (latchHeader hd s)))) := by
  unfold runAppend payloadMissing
  by_cases h : s.inLen < s.dec.ip + hd.size
  · exact .inl ⟨h, by simp [h]⟩
  · by_cases ho : overflows s.params s.dec.olen hd.len = true
    · exact .inr (.inl ⟨by omega, ho, by simp [h, ho]⟩)
    · exact .inr (.inr ⟨by omega, by simpa using ho, by simp [h, ho]⟩)

/-- Everything a repeat can answer. -/
theorem runRepeat_cases (hd : Header) (f : DecLatch → DecLatch) (src : Option Nat) (s : State) :
    (s.inLen < s.dec.ip + hd.size ∧
      runRepeat hd f src s = .next (raise .decompress .truncated s.dec.ip (latchHeader hd s))) ∨
    (s.dec.ip + hd.size ≤ s.inLen ∧ src = none ∧
      runRepeat hd f src s =
        .next (raise .decompress .invalidOffset s.dec.ip (latchOperands f (latchHeader hd s)))) ∨
    (∃ a, s.dec.ip + hd.size ≤ s.inLen ∧ src = some a ∧ overflows s.params s.dec.olen hd.len = true ∧
      runRepeat hd f src s = .next (raise .decompress .outputOverflow s.dec.ip
        (latchOperands (srcLatch a) (latchOperands f (latchHeader hd s))))) ∨
    (∃ a, s.dec.ip + hd.size ≤ s.inLen ∧ src = some a ∧ overflows s.params s.dec.olen hd.len = false ∧
      runRepeat hd f src s =
        .next (finishCopy hd (copyBytes (Config.freeOut s.fresh) hd.len a s.dec.olen s.outMem)
          (latchOperands (srcLatch a) (latchOperands f (latchHeader hd s))))) := by
  unfold runRepeat payloadMissing
  by_cases h : s.inLen < s.dec.ip + hd.size
  · exact .inl ⟨h, by simp [h]⟩
  · cases src with
    | none => exact .inr (.inl ⟨by omega, rfl, by simp [h]⟩)
    | some a =>
      by_cases ho : overflows s.params s.dec.olen hd.len = true
      · exact .inr (.inr (.inl ⟨a, by omega, rfl, ho, by simp [h, ho]⟩))
      · exact .inr (.inr (.inr ⟨a, by omega, rfl, by simpa using ho, by simp [h, ho]⟩))

/-! ## The overlapping copy -/

/-- From a source below the write position of a filled OUT the copy leaves OUT filled further. -/
theorem copyBytes_filled {n src dst : Nat} {m : Mem} (free : Nat → Byte) (hs : src < dst)
    (hm : ∀ a, (m.byteAt a).isSome ↔ a < dst) (a : Nat) :
    ((copyBytes free n src dst m).byteAt a).isSome ↔ a < dst + n := by
  induction n generalizing src dst m with
  | zero => exact hm a
  | succ n ih =>
    rw [copyBytes, ih (by omega) (by
      intro c
      rw [Mem.byteAt_store]
      split
      · simp
        omega
      · rw [hm]
        omega)]
    omega

/-- The copy's own law (42_repeat.md R130): after it, the byte read at `dst + k` is the byte read at `src + k`, for every `k < n`,
also where the source range runs into what the copy wrote. -/
theorem copyBytes_reads {n src dst k : Nat} {m : Mem} (free : Nat → Byte) (hs : src < dst) (hk : k < n) :
    (copyBytes free n src dst m).readOr free (dst + k) = (copyBytes free n src dst m).readOr free (src + k) := by
  induction n generalizing src dst k m with
  | zero => omega
  | succ n ih =>
    have read : ∀ a, a < dst + 1 →
        (copyBytes free n (src + 1) (dst + 1) (m.store dst (m.readOr free src))).readOr free a =
          (m.store dst (m.readOr free src)).readOr free a := by
      intro a ha
      simp only [Mem.readOr, copyBytes_frame free n (src + 1) (dst + 1) _ a (by omega)]
    cases k with
    | zero =>
      rw [copyBytes, show dst + 0 = dst from rfl, show src + 0 = src from rfl, read dst (by omega), read src (by omega),
        Mem.readOr_store, Mem.readOr_store, if_pos rfl, if_neg (by omega)]
    | succ k =>
      have := ih (src := src + 1) (dst := dst + 1) (k := k) (m := m.store dst (m.readOr free src)) (by omega) (by omega)
      rwa [show dst + 1 + k = dst + (k + 1) by omega, show src + 1 + k = src + (k + 1) by omega] at this

/-- Appending `n` bytes at the end of a filled OUT fills it further. -/
theorem storeRun_filled {m : Mem} {n : Nat} (bs : List Byte) (hm : ∀ a, (m.byteAt a).isSome ↔ a < n) (a : Nat) :
    ((m.storeRun n bs).byteAt a).isSome ↔ a < n + bs.length := by
  rw [Mem.byteAt_storeRun]
  split
  · rename_i h
    have : a - n < bs.length := by omega
    simp [List.getElem?_eq_getElem this]
    omega
  · rw [hm]
    omega

/-! ## Sources -/

theorem absSource_cases (pos : BitVec 16) (olen : Nat) :
    (olen ≤ pos.toNat ∧ absSource pos olen = none) ∨ (pos.toNat < olen ∧ absSource pos olen = some pos.toNat) := by
  unfold absSource
  by_cases h : olen ≤ pos.toNat
  · exact .inl ⟨h, by simp [h]⟩
  · exact .inr ⟨by omega, by simp [h]⟩

theorem relSource_cases (dist : Byte) (olen : Nat) :
    ((dist.toNat = 0 ∨ olen < dist.toNat) ∧ relSource dist olen = none) ∨
    (1 ≤ dist.toNat ∧ dist.toNat ≤ olen ∧ relSource dist olen = some (olen - dist.toNat)) := by
  unfold relSource
  by_cases h : dist.toNat = 0 ∨ olen < dist.toNat
  · exact .inl ⟨h, by rw [if_pos h]⟩
  · exact .inr ⟨by omega, by omega, by rw [if_neg h]⟩

/-- A checked source of kind 4 lies below `OLEN`. -/
theorem absSource_lt {pos : BitVec 16} {olen a : Nat} (h : absSource pos olen = some a) : a < olen := by
  rcases absSource_cases pos olen with ⟨_, h1⟩ | ⟨h1, h2⟩
  · simp [h1] at h
  · simp only [h2, Option.some.injEq] at h
    omega

/-- A checked source of kind 6 lies below `OLEN`. -/
theorem relSource_lt {dist : Byte} {olen a : Nat} (h : relSource dist olen = some a) : a < olen := by
  rcases relSource_cases dist olen with ⟨_, h1⟩ | ⟨h0, h1, h2⟩
  · simp [h1] at h
  · simp only [h2, Option.some.injEq] at h
    omega

/-! ## Produced bytes -/

@[simp] theorem length_byteFillBytes (n : Nat) (b : Byte) : (byteFillBytes n b).length = n := by
  simp [byteFillBytes]

@[simp] theorem length_wordFillBytes (n : Nat) (b0 b1 : Byte) : (wordFillBytes n b0 b1).length = n := by
  simp [wordFillBytes]

@[simp] theorem length_incFillBytes (n : Nat) (b : Byte) : (incFillBytes n b).length = n := by
  simp [incFillBytes]

/-! ## Completion of an instruction -/

/-- The write an instruction of kinds 0 to 4 or 6 made: OUT became `m`, filled by `len` more bytes when it was filled. -/
structure Wrote (s : State) (len : Nat) (m : Mem) : Prop where
  below : ∀ a, a < s.dec.olen ∨ s.dec.olen + len ≤ a → m.byteAt a = s.outMem.byteAt a
  form : s.outMem.wf = true → m.wf = true
  filled : (∀ a, (s.outMem.byteAt a).isSome ↔ a < s.dec.olen) → ∀ a, (m.byteAt a).isSome ↔ a < s.dec.olen + len

/-- The three ways a well-formed instruction gives a next state: it raised a fault, it appended output and moved on, or it was
the terminator. Whatever happened, only latches changed besides. -/
def Completes (i : Instr) (s t : State) : Prop :=
  (∃ f g, f ≠ .none ∧ t = raise .decompress f s.dec.ip (latchOperands g s)) ∨
  (∃ hd m g, t = finishCopy hd m (latchOperands g s) ∧ Wrote s hd.len m ∧ 2 ≤ hd.size ∧ 1 ≤ hd.len ∧
    hd.len ≤ Config.extMaxLen ∧ hd.size = i.size ∧ s.dec.ip + hd.size ≤ s.inLen ∧
    overflows s.params s.dec.olen hd.len = false) ∨
  (i = .endStream ∧ ∃ g, t = stopDec true
    { latchOperands g s with dec := { (latchOperands g s).dec with ip := s.dec.ip + 1 } })

theorem wrote_storeRun (s : State) (bs : List Byte) : Wrote s bs.length (s.outMem.storeRun s.dec.olen bs) where
  below a ha := by
    rw [Mem.byteAt_storeRun, if_neg (by omega)]
  form h := Mem.wf_storeRun _ _ h
  filled h a := storeRun_filled bs h a

theorem wrote_copyBytes {s : State} {len a : Nat} (ha : a < s.dec.olen) (free : Nat → Byte) :
    Wrote s len (copyBytes free len a s.dec.olen s.outMem) where
  below c hc := copyBytes_frame free len a s.dec.olen s.outMem c hc
  form hw := wf_copyBytes free len a s.dec.olen hw
  filled hf c := copyBytes_filled free ha hf c

theorem runAppend_completes {i : Instr} {hd : Header} {f : DecLatch → DecLatch} {bs : List Byte} {s t : State}
    (hb : bs.length = hd.len) (h2 : 2 ≤ hd.size) (h1 : 1 ≤ hd.len) (hm : hd.len ≤ Config.extMaxLen)
    (hi : hd.size = i.size) (h : runAppend hd f bs s = .next t) : Completes i s t := by
  rcases runAppend_cases hd f bs s with ⟨_, e⟩ | ⟨_, _, e⟩ | ⟨hp, ho, e⟩ <;> rw [h] at e <;> cases e
  · exact .inl ⟨.truncated, headerLatch hd, by decide, rfl⟩
  · exact .inl ⟨.outputOverflow, headerLatch hd, by decide, rfl⟩
  · exact .inr (.inl ⟨hd, _, f ∘ headerLatch hd, rfl, hb ▸ wrote_storeRun s bs, h2, h1, hm, hi, hp, ho⟩)

theorem runRepeat_completes {i : Instr} {hd : Header} {f : DecLatch → DecLatch} {src : Option Nat} {s t : State}
    (hs : ∀ a, src = some a → a < s.dec.olen) (h2 : 2 ≤ hd.size) (h1 : 1 ≤ hd.len) (hm : hd.len ≤ Config.extMaxLen)
    (hi : hd.size = i.size) (h : runRepeat hd f src s = .next t) : Completes i s t := by
  rcases runRepeat_cases hd f src s with
    ⟨_, e⟩ | ⟨_, _, e⟩ | ⟨a, _, _, _, e⟩ | ⟨a, hp, ha, ho, e⟩ <;> rw [h] at e <;> cases e
  · exact .inl ⟨.truncated, headerLatch hd, by decide, rfl⟩
  · exact .inl ⟨.invalidOffset, f ∘ headerLatch hd, by decide, rfl⟩
  · exact .inl ⟨.outputOverflow, srcLatch a ∘ f ∘ headerLatch hd, by decide, rfl⟩
  · exact .inr (.inl ⟨hd, _, srcLatch a ∘ f ∘ headerLatch hd, rfl, wrote_copyBytes (hs a ha) _, h2, h1, hm, hi, hp, ho⟩)

/-! ## Lengths -/

theorem shortLen_pos (n : BitVec 5) : 1 ≤ shortLen n := by simp [shortLen]

theorem shortLen_le (n : BitVec 5) : shortLen n ≤ 32 := by
  have := n.isLt
  simp [shortLen]
  omega

theorem extLen_pos (h l : BitVec 5) : 1 ≤ extLen h l := by simp [extLen]

theorem extLen_le {h : BitVec 5} (l : BitVec 5) (hh : extHighOk h = true) : extLen h l ≤ 992 := by
  have h1 := h.isLt
  have h2 := l.isLt
  have h3 : h.toNat ≠ 31 := by
    intro e
    have : h = 31#5 := BitVec.eq_of_toNat_eq e
    simp [extHighOk, this] at hh
  simp only [extLen]
  omega

theorem shortHeader_size (k : Kind) (n : BitVec 5) : (shortHeader k n).size = 1 + payloadLen k (shortLen n) := rfl

theorem extHeader_size (k : Kind) (h l : BitVec 5) : (extHeader k h l).size = 2 + payloadLen k (extLen h l) := rfl

/-- What any well-formed instruction can do when it answers a next state. -/
theorem exec_completes {i : Instr} {s t : State} (hw : i.wellFormed = true) (h : exec i s = .next t) :
    Completes i s t := by
  cases i with
  | dcopy n d =>
    have := shortLen_pos n; have := shortLen_le n
    simp only [Instr.wellFormed, beq_iff_eq] at hw
    exact runAppend_completes hw (by simp only [shortHeader_size, payloadLen]; omega) (shortLen_pos n)
      (by simp only [shortHeader, Config.extMaxLen]; omega) rfl h
  | bfill n b =>
    have := shortLen_le n
    exact runAppend_completes (by simp [shortHeader]) (by simp [shortHeader_size, payloadLen]) (shortLen_pos n)
      (by simp only [shortHeader, Config.extMaxLen]; omega) rfl h
  | wfill n b0 b1 =>
    have := shortLen_le n
    exact runAppend_completes (by simp [shortHeader]) (by simp [shortHeader_size, payloadLen]) (shortLen_pos n)
      (by simp only [shortHeader, Config.extMaxLen]; omega) rfl h
  | ifill n b =>
    have := shortLen_le n
    exact runAppend_completes (by simp [shortHeader]) (by simp [shortHeader_size, payloadLen]) (shortLen_pos n)
      (by simp only [shortHeader, Config.extMaxLen]; omega) rfl h
  | rabs n pos =>
    have := shortLen_le n
    exact runRepeat_completes (fun a => absSource_lt) (by simp [shortHeader_size, payloadLen]) (shortLen_pos n)
      (by simp only [shortHeader, Config.extMaxLen]; omega) rfl h
  | rrel n dist =>
    have := shortLen_le n
    exact runRepeat_completes (fun a => relSource_lt) (by simp [shortHeader_size, payloadLen]) (shortLen_pos n)
      (by simp only [shortHeader, Config.extMaxLen]; omega) rfl h
  | dcopyX hh l d =>
    simp only [Instr.wellFormed, Bool.and_eq_true, beq_iff_eq] at hw
    exact runAppend_completes hw.2 (by simp only [extHeader_size]; omega) (extLen_pos hh l) (extLen_le l hw.1) rfl h
  | bfillX hh l b =>
    exact runAppend_completes (by simp [extHeader]) (by simp only [extHeader_size]; omega) (extLen_pos hh l)
      (extLen_le l hw) rfl h
  | wfillX hh l b0 b1 =>
    exact runAppend_completes (by simp [extHeader]) (by simp only [extHeader_size]; omega) (extLen_pos hh l)
      (extLen_le l hw) rfl h
  | ifillX hh l b =>
    exact runAppend_completes (by simp [extHeader]) (by simp only [extHeader_size]; omega) (extLen_pos hh l)
      (extLen_le l hw) rfl h
  | rabsX hh l pos =>
    exact runRepeat_completes (fun a => absSource_lt) (by simp only [extHeader_size]; omega) (extLen_pos hh l)
      (extLen_le l hw) rfl h
  | rrelX hh l dist =>
    exact runRepeat_completes (fun a => relSource_lt) (by simp only [extHeader_size]; omega) (extLen_pos hh l)
      (extLen_le l hw) rfl h
  | ralt n =>
    cases h
    exact .inl ⟨.unsupportedKind, headerLatch (shortHeader .repAlt n), by decide, rfl⟩
  | raltX hh l =>
    cases h
    exact .inl ⟨.unsupportedKind, headerLatch (extHeader .repAlt hh l), by decide, rfl⟩
  | extRsvd hh l =>
    cases h
    exact .inl ⟨.reservedEncoding, headerLatch (extHeader .seven hh l), by decide, rfl⟩
  | endStream =>
    cases h
    exact .inr (.inr ⟨rfl, firstLatch Config.term, rfl⟩)

end Sys2Proof.Machine
end

