-- ==== Sys2Proof/Laws/Encoder.lean ====
section
/-! SUPPORT. What the encoder's shared operations can do: emission appends or enters the fault, a flush is nothing or one
direct copy, and the bounds of the scans. -/

namespace Sys2Proof.Machine

/-- The state after emitting `bs` at the write position: OUT and `ENC.OLEN` only. -/
def emittedState (bs : List Byte) (s : State) : State :=
  { s with outMem := s.outMem.storeRun s.enc.olen bs, enc := { s.enc with olen := s.enc.olen + bs.length } }

@[simp] theorem emittedState_nil (s : State) : emittedState [] s = s := rfl

theorem emittedState_append (as bs : List Byte) (s : State) :
    emittedState bs (emittedState as s) = emittedState (as ++ bs) s := by
  have h : ∀ (m : Mem) (a : Nat), (m.storeRun a as).storeRun (a + as.length) bs = m.storeRun a (as ++ bs) := by
    induction as with
    | nil => intro m a; rfl
    | cons x as ih =>
      intro m a
      have := ih (m.store a x) (a + 1)
      rw [show a + 1 + as.length = a + (x :: as).length by simp; omega] at this
      exact this
  simp only [emittedState, h, List.length_append, Nat.add_assoc]

/-- Everything `emit` can do (43_encoder.md R166). -/
theorem emit_cases (b : Byte) (s : State) :
    (overflows s.params s.enc.olen 1 = true ∧ emit b s = .error (raise .compress .outputOverflow s.enc.p s)) ∨
    (overflows s.params s.enc.olen 1 = false ∧ emit b s = .ok (emittedState [b] s)) := by
  unfold emit
  by_cases h : overflows s.params s.enc.olen 1 = true
  · exact .inl ⟨h, by rw [if_pos h]⟩
  · exact .inr ⟨by simpa using h, by rw [if_neg h]; rfl⟩

theorem overflows_eq_false {c : Params} {olen n : Nat} :
    overflows c olen n = false ↔ capFits c.outCap (olen + n) = true := by
  simp [overflows]

theorem capFits_mono {cap : Option Nat} {n k : Nat} (h : capFits cap n = true) (hk : k ≤ n) : capFits cap k = true := by
  cases cap with
  | none => rfl
  | some c =>
    simp only [capFits, decide_eq_true_eq] at h ⊢
    omega

/-- Emitting bytes appends them all when they fit, or ends in the fault with some of them written. -/
theorem emitAll_cases (bs : List Byte) (s : State) :
    (capFits s.params.outCap (s.enc.olen + bs.length) = true ∧ emitAll bs s = .ok (emittedState bs s)) ∨
    (bs = [] ∧ emitAll bs s = .ok s) ∨
    (capFits s.params.outCap (s.enc.olen + bs.length) = false ∧ ∃ as, as <+: bs ∧
      emitAll bs s = .error (raise .compress .outputOverflow s.enc.p (emittedState as s))) := by
  induction bs generalizing s with
  | nil => exact .inr (.inl ⟨rfl, rfl⟩)
  | cons b bs ih =>
    rcases emit_cases b s with ⟨ho, he⟩ | ⟨ho, he⟩
    · refine .inr (.inr ⟨?_, [], List.nil_prefix, by simp only [emitAll, he]; rfl⟩)
      have h1 : capFits s.params.outCap (s.enc.olen + 1) = false := by simpa [overflows] using ho
      cases hf : capFits s.params.outCap (s.enc.olen + (b :: bs).length) with
      | false => rfl
      | true =>
        rw [capFits_mono hf (by simp)] at h1
        cases h1
    · have ha : ∀ cs, emittedState cs (emittedState [b] s) = emittedState (b :: cs) s :=
        fun cs => emittedState_append [b] cs s
      have hl : (emittedState [b] s).enc.olen + bs.length = s.enc.olen + (b :: bs).length := by
        simp [emittedState]
        omega
      have hp : (emittedState [b] s).params = s.params := rfl
      rcases ih (emittedState [b] s) with ⟨hf, h⟩ | ⟨rfl, h⟩ | ⟨hf, as, hx, h⟩
      · rw [hl, hp] at hf
        exact .inl ⟨hf, by simp only [emitAll, he, h, ha]⟩
      · refine .inl ⟨?_, by simp only [emitAll, he]⟩
        exact overflows_eq_false.mp ho
      · rw [hl, hp] at hf
        exact .inr (.inr ⟨hf, b :: as, by simpa using hx, by simp only [emitAll, he, h, ha]; rfl⟩)

/-- A flush that ends normally is nothing, or the pending run written as one direct copy and cleared (R165). -/
theorem flush_ok {x : List Byte} {s t : State} (h : flush x s = .ok t) :
    (s.enc.litLen.toNat = 0 ∧ t = s) ∨
    (0 < s.enc.litLen.toNat ∧
      emitAll (instrBytes .direct s.enc.litLen.toNat (pendingBytes x s)) s =
        .ok (emittedState (instrBytes .direct s.enc.litLen.toNat (pendingBytes x s)) s) ∧
      t = clearRun (emittedState (instrBytes .direct s.enc.litLen.toNat (pendingBytes x s)) s)) := by
  unfold flush at h
  by_cases h0 : s.enc.litLen.toNat = 0
  · rw [if_pos h0] at h
    cases h
    exact .inl ⟨h0, rfl⟩
  · rw [if_neg h0] at h
    refine .inr ⟨by omega, ?_⟩
    rcases emitAll_cases (instrBytes .direct s.enc.litLen.toNat (pendingBytes x s)) s with
      ⟨_, he⟩ | ⟨hn, he⟩ | ⟨_, as, _, he⟩ <;> rw [he] at h <;> cases h
    · exact ⟨he, rfl⟩
    · rw [he, hn]
      exact ⟨rfl, rfl⟩

/-! ## Scans -/

theorem scanFrom_le (ok : Nat → Bool) (fuel i : Nat) : scanFrom ok fuel i ≤ i + fuel := by
  induction fuel generalizing i with
  | zero => simp [scanFrom]
  | succ fuel ih =>
    simp only [scanFrom]
    split
    · have := ih (i + 1)
      omega
    · omega

theorem longest_le (ok : Nat → Bool) (cap : Nat) : longest ok cap ≤ cap := by
  simpa [longest] using scanFrom_le ok cap 0

theorem encMaxLen_cases (c : Params) : Config.encMaxLen c = 992 ∨ Config.encMaxLen c = 32 := by
  unfold Config.encMaxLen
  split
  · exact .inl rfl
  · exact .inr rfl

/-! ## Steps -/

/-- Everything a step of ENC can be (43_encoder.md R152): a pass with a selection, a pass without one, or the end of the run. -/
theorem stepEncoder_cases (s : State) :
    (s.enc.n ≤ s.enc.p ∧ stepEncoder s = settle (finishRun (inBytes s 0 s.enc.n) s)) ∨
    (s.enc.p < s.enc.n ∧ ∃ r, r = runScans s.params (inBytes s 0 s.enc.n) s.enc.n s.enc.p ∧
      ((∃ c, select (candidates (inBytes s 0 s.enc.n) s.enc.p r) = some c ∧
        stepEncoder s = settle (passSelected (inBytes s 0 s.enc.n) c (latchScans r (some c) s))) ∨
      (select (candidates (inBytes s 0 s.enc.n) s.enc.p r) = none ∧
        stepEncoder s = settle (passLiteral (inBytes s 0 s.enc.n) (latchScans r none s))))) := by
  unfold stepEncoder
  by_cases h : s.enc.p < s.enc.n
  · refine .inr ⟨h, _, rfl, ?_⟩
    simp only [if_pos h]
    cases select (candidates (inBytes s 0 s.enc.n) s.enc.p (runScans s.params (inBytes s 0 s.enc.n) s.enc.n s.enc.p)) with
    | some c => exact .inl ⟨c, rfl, rfl⟩
    | none => exact .inr ⟨rfl, rfl⟩
  · exact .inl ⟨by omega, by simp only [if_neg h]⟩

/-- A pass always leaves a next state. -/
theorem settle_next (r : Except State State) : ∃ t, settle r = .next t := by
  cases r with
  | ok t => exact ⟨t, rfl⟩
  | error t => exact ⟨t, rfl⟩

/-- A flush that fails has entered the capacity fault with some bytes written (R165, R166). -/
theorem flush_error {x : List Byte} {s t : State} (h : flush x s = .error t) :
    ∃ as, t = raise .compress .outputOverflow s.enc.p (emittedState as s) := by
  unfold flush at h
  by_cases h0 : s.enc.litLen.toNat = 0
  · rw [if_pos h0] at h
    cases h
  · rw [if_neg h0] at h
    rcases emitAll_cases (instrBytes .direct s.enc.litLen.toNat (pendingBytes x s)) s with
      ⟨_, he⟩ | ⟨_, he⟩ | ⟨_, as, _, he⟩ <;> rw [he] at h <;> cases h
    exact ⟨as, rfl⟩

end Sys2Proof.Machine
end

