-- ==== Sys2Proof/Laws/Encoding.lean ====
section
/-! SUPPORT. The bit fields of the headers and the payload helpers, each said once. -/

namespace Sys2Proof

@[simp] theorem Kind.ofBits_toBits (k : Kind) : Kind.ofBits k.toBits = k := by cases k <;> rfl

@[simp] theorem Kind.toBits_ofBits (b : BitVec 3) : (Kind.ofBits b).toBits = b := by
  revert b
  decide

@[simp] theorem selector_shortByte (k : Kind) (n : BitVec 5) : selector (shortByte k n) = k.toBits := by
  simp only [selector, shortByte]
  cases k <;> (revert n; decide)

@[simp] theorem lowField_shortByte (k : Kind) (n : BitVec 5) : lowField (shortByte k n) = n := by
  simp only [lowField, shortByte]
  cases k <;> (revert n; decide)

@[simp] theorem selector_extByte (h : BitVec 5) : selector (extByte h) = 7#3 := by
  revert h
  decide

@[simp] theorem lowField_extByte (h : BitVec 5) : lowField (extByte h) = h := by
  revert h
  decide

@[simp] theorem contKind_contByte (l : BitVec 5) (k : Kind) : contKind (contByte l k) = k.toBits := by
  simp only [contKind, contByte]
  cases k <;> (revert l; decide)

@[simp] theorem contLow_contByte (l : BitVec 5) (k : Kind) : contLow (contByte l k) = l := by
  simp only [contLow, contByte]
  cases k <;> (revert l; decide)

/-- A header byte is its selector and its low field. -/
theorem shortByte_selector (b : Byte) : shortByte (Kind.ofBits (selector b)) (lowField b) = b := by
  revert b
  decide

/-- A continuation byte is its low length bits and its kind. -/
theorem contByte_fields (b : Byte) : contByte (contLow b) (Kind.ofBits (contKind b)) = b := by
  revert b
  decide

/-- A position is its two bytes, the low one first. -/
@[simp] theorem posOfBytes_split (pos : BitVec 16) : posOfBytes (posLow pos) (posHigh pos) = pos := by
  apply BitVec.eq_of_getLsbD_eq
  intro i hi
  simp only [posOfBytes, posLow, posHigh, BitVec.getLsbD_append, BitVec.getLsbD_extractLsb']
  by_cases h : i < 8
  · simp [h]
  · simp [h, show i - 8 < 8 by omega, show 8 + (i - 8) = i by omega]

@[simp] theorem posLow_posOfBytes (p0 p1 : Byte) : posLow (posOfBytes p0 p1) = p0 := by
  apply BitVec.eq_of_getLsbD_eq
  intro i hi
  simp only [posOfBytes, posLow, BitVec.getLsbD_append, BitVec.getLsbD_extractLsb']
  simp [hi]

@[simp] theorem posHigh_posOfBytes (p0 p1 : Byte) : posHigh (posOfBytes p0 p1) = p1 := by
  apply BitVec.eq_of_getLsbD_eq
  intro i hi
  simp only [posOfBytes, posHigh, BitVec.getLsbD_append, BitVec.getLsbD_extractLsb']
  simp [hi]

/-- The value of a position: `p0 + 256 * p1` (30_encoding.md R74). -/
theorem posOfBytes_toNat (p0 p1 : Byte) : (posOfBytes p0 p1).toNat = p0.toNat + 256 * p1.toNat := by
  have := p0.isLt
  simp only [posOfBytes, BitVec.toNat_append]
  rw [← Nat.shiftLeft_add_eq_or_of_lt p0.isLt, Nat.shiftLeft_eq]
  omega

/-- `takeBytes` splits off exactly `n` bytes. -/
theorem takeBytes_eq_some {n : Nat} {bs d rest : List Byte} :
    takeBytes n bs = some (d, rest) ↔ bs = d ++ rest ∧ d.length = n := by
  induction n generalizing bs d with
  | zero =>
    cases d <;> simp [takeBytes]
  | succ n ih =>
    cases bs with
    | nil => cases d <;> simp [takeBytes]
    | cons b bs =>
      cases d with
      | nil =>
        simp only [takeBytes]
        cases takeBytes n bs <;> simp
      | cons x d =>
        have := @ih bs d
        simp only [takeBytes]
        cases ht : takeBytes n bs with
        | none => simp_all
        | some p =>
          simp only [ht, Option.some.injEq] at this
          obtain ⟨d', r'⟩ := p
          simp only [Option.some.injEq, Prod.mk.injEq, List.cons.injEq, List.cons_append, List.length_cons,
            Nat.add_right_cancel_iff] at this ⊢
          constructor
          · rintro ⟨⟨rfl, rfl⟩, rfl⟩
            exact ⟨⟨rfl, (this.mp ⟨rfl, rfl⟩).1⟩, (this.mp ⟨rfl, rfl⟩).2⟩
          · rintro ⟨⟨rfl, h1⟩, h2⟩
            obtain ⟨rfl, rfl⟩ := this.mpr ⟨h1, h2⟩
            exact ⟨⟨rfl, rfl⟩, rfl⟩

theorem takeBytes_eq_none {n : Nat} {bs : List Byte} : takeBytes n bs = none ↔ bs.length < n := by
  induction n generalizing bs with
  | zero => simp [takeBytes]
  | succ n ih =>
    cases bs with
    | nil => simp [takeBytes]
    | cons b bs =>
      simp only [takeBytes, List.length_cons, Nat.add_lt_add_iff_right, ← ih]
      cases takeBytes n bs <;> simp

end Sys2Proof
end

