-- ==== Sys2Proof/Laws/Host.lean ====
section
/-! SUPPORT. What the host can do to the block, and the state after reset. -/

namespace Sys2Proof.Machine

theorem isBusy_iff (s : State) : isBusy s = true ↔ s.run = .busy := by simp [isBusy]

/-- Everything START can do (70_reset_and_hazards.md R221, 10_state.md R32). -/
theorem start_cases (e : Engine) (s : State) :
    (capFits s.params.inCap s.inLen = false ∧ start e s = .refused .startInLenOverCap) ∨
    (capFits s.params.inCap s.inLen = true ∧
      ((e = .decompress ∧ start e s = .next (startDec s)) ∨ (e = .compress ∧ start e s = .next (startEnc s)))) := by
  cases h : capFits s.params.inCap s.inLen with
  | false => exact .inl ⟨rfl, by simp [start, h]⟩
  | true =>
    cases e with
    | decompress => exact .inr ⟨rfl, .inl ⟨rfl, by simp [start, h]⟩⟩
    | compress => exact .inr ⟨rfl, .inr ⟨rfl, by simp [start, h]⟩⟩

/-- Everything an action of the host that is accepted can do (10_state.md R24 to R32, 70_reset_and_hazards.md R220 to R226). -/
theorem hostAct_next {o : HostOp} {s t : State} (h : hostAct o s = .next t) :
    (s.run ≠ .busy ∧ capFits s.params.inCap s.inLen = true ∧ (t = startDec s ∨ t = startEnc s)) ∨
    (s.run ≠ .busy ∧ ∃ e, t = { s with op := e }) ∨
    (s.run ≠ .busy ∧ ∃ n, fitsWidth s.params.aw n = true ∧ t = { s with inLen := n }) ∨
    (s.run ≠ .busy ∧ ∃ a b, capHas s.params.inCap a = true ∧ t = { s with inMem := s.inMem.store a b }) ∨
    (∃ v, t = { s with hostData := v }) ∨
    t = powerOn s := by
  cases o with
  | writeCtrl v =>
    simp only [hostAct, hostWriteCtrl] at h
    split at h
    · cases h
    · rename_i hb
      have hb : s.run ≠ .busy := fun hr => hb ((isBusy_iff s).mpr hr)
      split at h
      · rcases start_cases (Engine.ofOp (v.getLsbD 1)) s with ⟨_, he⟩ | ⟨hc, ⟨_, he⟩ | ⟨_, he⟩⟩ <;> rw [he] at h <;> cases h
        · exact .inl ⟨hb, hc, .inl rfl⟩
        · exact .inl ⟨hb, hc, .inr rfl⟩
      · cases h
        exact .inr (.inl ⟨hb, _, rfl⟩)
  | writeInLen n =>
    simp only [hostAct, hostWriteInLen] at h
    split at h
    · cases h
    · rename_i hb
      split at h
      · rename_i hc
        cases h
        exact .inr (.inr (.inl ⟨fun hr => hb ((isBusy_iff s).mpr hr), n, hc, rfl⟩))
      · cases h
  | writeIn a b =>
    simp only [hostAct, hostWriteIn] at h
    split at h
    · cases h
    · rename_i hb
      split at h
      · rename_i hc
        cases h
        exact .inr (.inr (.inr (.inl ⟨fun hr => hb ((isBusy_iff s).mpr hr), a, b, hc, rfl⟩)))
      · cases h
  | readReg r =>
    simp only [hostAct, hostReadReg] at h
    split at h
    · cases h
    · cases h
      exact .inr (.inr (.inr (.inr (.inl ⟨_, rfl⟩))))
  | readOut a =>
    simp only [hostAct, hostReadOut] at h
    split at h
    · cases h
    · split at h
      · cases h
        exact .inr (.inr (.inr (.inr (.inl ⟨_, rfl⟩))))
      · cases h
  | powerOnReset =>
    cases h
    exact .inr (.inr (.inr (.inr (.inr rfl))))

/-- Both memories are in canonical form after reset. -/
theorem reset_memories_wf : State.reset.inMem.wf = true ∧ State.reset.outMem.wf = true := ⟨rfl, rfl⟩

end Sys2Proof.Machine
end

