-- ==== Sys2Proof/Laws/Params.lean ====
section
/-! SUPPORT. The width `AW` (00_scope.md R6): what fits the capacities of legal parameters fits the width, what a register of
that width holds fits it, and what an instruction leaves in `SRC`. -/

namespace Sys2Proof.Machine

theorem lt_of_capFits_inCap {c : Params} {w n : Nat} (hl : c.legal = true) (hw : c.aw = some w)
    (hn : capFits c.inCap n = true) : n < 2 ^ w := by
  unfold Params.legal at hl
  rw [hw] at hl
  cases hi : c.inCap <;> cases ho : c.outCap <;> simp [hi, ho, capFits] at hl hn
  omega

theorem lt_of_capFits_outCap {c : Params} {w n : Nat} (hl : c.legal = true) (hw : c.aw = some w)
    (hn : capFits c.outCap n = true) : n < 2 ^ w := by
  unfold Params.legal at hl
  rw [hw] at hl
  cases hi : c.inCap <;> cases ho : c.outCap <;> simp [hi, ho, capFits] at hl hn
  omega

@[simp] theorem fitsWidth_none (n : Nat) : fitsWidth none n = true := rfl

@[simp] theorem fitsWidth_some (w n : Nat) : fitsWidth (some w) n = true ↔ n < 2 ^ w := by simp [fitsWidth]

@[simp] theorem toWidth_none (n : Nat) : toWidth none n = n := rfl

theorem toWidth_lt (w n : Nat) : toWidth (some w) n < 2 ^ w := Nat.mod_lt _ (Nat.two_pow_pos w)

theorem toWidth_of_fits {aw : Option Nat} {n : Nat} (h : fitsWidth aw n = true) : toWidth aw n = n := by
  cases aw with
  | none => rfl
  | some w => exact Nat.mod_eq_of_lt (by simpa using h)

theorem freePos_lt {c : Params} {w : Nat} (hw : c.aw = some w) (k : Nat) : freePos c k < 2 ^ w := by
  unfold freePos
  rw [hw]
  exact toWidth_lt w _

/-- What may stand in `SRC` after an instruction: what stood there, a source below `OLEN`, or a position cut to `AW` bits. -/
def SrcAfter (s t : State) : Prop :=
  t.dec.latch.src = s.dec.latch.src ∨ t.dec.latch.src < s.dec.olen ∨ ∃ n, t.dec.latch.src = toWidth s.params.aw n

theorem runAppend_src {hd : Header} {f : DecLatch → DecLatch} {bs : List Byte} {s t : State}
    (hf : ∀ l, (f l).src = l.src) (h : runAppend hd f bs s = .next t) : SrcAfter s t := by
  rcases runAppend_cases hd f bs s with ⟨_, e⟩ | ⟨_, _, e⟩ | ⟨_, _, e⟩ <;> rw [h] at e <;> cases e
  · exact .inl rfl
  · exact .inl rfl
  · exact .inl (hf _)

theorem runRepeat_src {hd : Header} {f : DecLatch → DecLatch} {src : Option Nat} {s t : State}
    (hs : ∀ a, src = some a → a < s.dec.olen)
    (hf : ∀ l, (f l).src = l.src ∨ ∃ n, (f l).src = toWidth s.params.aw n)
    (h : runRepeat hd f src s = .next t) : SrcAfter s t := by
  rcases runRepeat_cases hd f src s with
    ⟨_, e⟩ | ⟨_, _, e⟩ | ⟨a, _, ha, _, e⟩ | ⟨a, _, ha, _, e⟩ <;> rw [h] at e <;> cases e
  · exact .inl rfl
  · rcases hf (headerLatch hd s.dec.latch) with h1 | h1
    · exact .inl h1
    · exact .inr (.inr h1)
  · exact .inr (.inl (hs a ha))
  · exact .inr (.inl (hs a ha))

/-- What every instruction leaves in `SRC` (10_state.md R14). -/
theorem exec_src {i : Instr} {s t : State} (h : exec i s = .next t) : SrcAfter s t := by
  cases i with
  | dcopy | bfill | wfill | ifill | dcopyX | bfillX | wfillX | ifillX => exact runAppend_src (by exact fun _ => rfl) h
  | rabs | rabsX => exact runRepeat_src (by exact fun _ ha => absSource_lt ha) (by exact fun _ => .inr ⟨_, rfl⟩) h
  | rrel | rrelX => exact runRepeat_src (by exact fun _ ha => relSource_lt ha) (by exact fun _ => .inl rfl) h
  | ralt | raltX | extRsvd | endStream =>
    cases h
    exact .inl rfl

end Sys2Proof.Machine
end

