-- ==== Sys2Proof/Laws/PerInstr.lean ====
section
/-! SUPPORT. A family of facts about the instructions as syntax, one lemma per constructor: a well-formed instruction is
encoded in `HL + paylen(KIND, L)` bytes (30_encoding.md R68, R72). -/

namespace Sys2Proof.Laws.EncodedSize

/-- A well-formed instruction's encoding has the size the Command Model gives. -/
def Statement (i : Instr) : Prop := i.wellFormed = true → (encode i).length = i.size

theorem dcopy (n : BitVec 5) (d : List Byte) : Statement (.dcopy n d) := by
  intro h
  simp only [Instr.wellFormed, beq_iff_eq] at h
  simp [encode, Instr.size, Instr.header, Header.size, Header.headerLen, shortHeader, payloadLen, h]
  omega

theorem bfill (n : BitVec 5) (b : Byte) : Statement (.bfill n b) := fun _ => rfl

theorem wfill (n : BitVec 5) (b0 b1 : Byte) : Statement (.wfill n b0 b1) := fun _ => rfl

theorem ifill (n : BitVec 5) (start : Byte) : Statement (.ifill n start) := fun _ => rfl

theorem rabs (n : BitVec 5) (pos : BitVec 16) : Statement (.rabs n pos) := fun _ => rfl

theorem ralt (n : BitVec 5) : Statement (.ralt n) := fun _ => rfl

theorem rrel (n : BitVec 5) (dist : Byte) : Statement (.rrel n dist) := fun _ => rfl

theorem dcopyX (h l : BitVec 5) (d : List Byte) : Statement (.dcopyX h l d) := by
  intro hw
  simp only [Instr.wellFormed, Bool.and_eq_true, beq_iff_eq] at hw
  simp [encode, Instr.size, Instr.header, Header.size, Header.headerLen, extHeader, payloadLen, hw.2]
  omega

theorem bfillX (h l : BitVec 5) (b : Byte) : Statement (.bfillX h l b) := fun _ => rfl

theorem wfillX (h l : BitVec 5) (b0 b1 : Byte) : Statement (.wfillX h l b0 b1) := fun _ => rfl

theorem ifillX (h l : BitVec 5) (start : Byte) : Statement (.ifillX h l start) := fun _ => rfl

theorem rabsX (h l : BitVec 5) (pos : BitVec 16) : Statement (.rabsX h l pos) := fun _ => rfl

theorem raltX (h l : BitVec 5) : Statement (.raltX h l) := fun _ => rfl

theorem rrelX (h l : BitVec 5) (dist : Byte) : Statement (.rrelX h l dist) := fun _ => rfl

theorem extRsvd (h l : BitVec 5) : Statement (.extRsvd h l) := fun _ => rfl

theorem endStream : Statement .endStream := fun _ => rfl

end Sys2Proof.Laws.EncodedSize
end

