-- ==== Sys2Proof/Laws/Step.lean ====
section
/-! SUPPORT. What a step can be: the host's turn or the block's own, and what a fetch can answer. -/

namespace Sys2Proof.Machine

@[simp] theorem step_quiet_nil {s : State} (h : s.host = []) : step s = stepEngine s := by
  unfold step
  rw [h]

theorem step_quiet_cons {s : State} {later : List HostTurn} (h : s.host = .quiet :: later) :
    step s = stepEngine { s with host := later } := by
  unfold step
  rw [h]

theorem step_act {s : State} {o : HostOp} {later : List HostTurn} (h : s.host = .act o :: later) :
    step s = hostAct o { s with host := later } := by
  unfold step
  rw [h]

theorem stepEngine_decoding {s : State} (hr : s.run = .busy) (ho : s.op = .decompress) :
    stepEngine s = stepDecoder s := by
  unfold stepEngine
  rw [hr, ho]

theorem stepEngine_encoding {s : State} (hr : s.run = .busy) (ho : s.op = .compress) :
    stepEngine s = stepEncoder s := by
  unfold stepEngine
  rw [hr, ho]

theorem stepEngine_holds {s : State} (hr : s.run ≠ .busy) : stepEngine s = .next s := by
  unfold stepEngine
  cases h : s.run <;> simp_all

/-- What an instruction cut short leaves: `Truncated` at its header, whatever latches it had written. -/
theorem fetchShort_cases (r : Reject) (s : State) :
    ∃ g, fetchShort r s = raise .decompress .truncated s.dec.ip (latchOperands g s) := by
  cases r with
  | noHeader => exact ⟨id, rfl⟩
  | noContinuation b => exact ⟨firstLatch b, rfl⟩
  | noPayload hd => exact ⟨headerLatch hd, rfl⟩

/-- An instruction is decoded only where a byte is left below `IN_LEN`. -/
theorem ip_lt_of_decoded {s : State} {i : Instr} {rest : List Byte} (h : decode (window s) = .ok i rest) :
    s.dec.ip < s.inLen := by
  by_contra hc
  have h0 : min (bytesLeft s) maxInstrBytes = 0 := by simp [bytesLeft]; omega
  simp [window, h0, inBytes, decode] at h

/-- Everything a fetch can answer. -/
theorem fetch_cases (s : State) :
    (s.dec.ip = s.inLen ∧ fetch s = .ended (stopDec false s)) ∨
    (s.dec.ip < s.inLen ∧ ∃ i rest, decode (window s) = .ok i rest ∧ fetch s = .instr i) ∨
    (s.dec.ip ≠ s.inLen ∧ ∃ r g, decode (window s) = .rejected r ∧
      fetch s = .ended (raise .decompress .truncated s.dec.ip (latchOperands g s))) := by
  unfold fetch
  by_cases h1 : s.dec.ip = s.inLen
  · exact .inl ⟨h1, by rw [if_pos h1]; rfl⟩
  · cases hd : decode (window s) with
    | ok i rest => exact .inr (.inl ⟨ip_lt_of_decoded hd, i, rest, rfl, by rw [if_neg h1]⟩)
    | rejected r =>
      obtain ⟨g, hg⟩ := fetchShort_cases r s
      exact .inr (.inr ⟨h1, r, g, rfl, by rw [if_neg h1, ← hg]⟩)

end Sys2Proof.Machine
end

