-- ==== Sys2Proof/Tests/Slice0.lean ====
section
/-! SUPPORT. Tests, each expected value taken from spec/ (95_test_vectors.md and the rules' own examples): well-formedness, the
decoding of words written out from 30_encoding.md, single steps, and for every statement with hypotheses a state and operands
that meet them. -/

namespace Sys2Proof.Tests

open Sys2Proof.Machine Sys2Proof.Safety

/-! ## Small states -/

/-- A DEC run in progress at `IP = ip` on the stream `bs`, with the bytes `out` already written. -/
def decState (c : Params) (bs out : List Byte) (ip : Nat) : State :=
  { State.resetWith c with
    inMem := Mem.storeRun [] 0 bs
    inLen := bs.length
    run := .busy
    outMem := Mem.storeRun [] 0 out
    dec := { ip := ip, olen := out.length, latch := DecLatch.zero } }

/-- An ENC run in progress at `P = p` on the input `x`, with the bytes `out` already emitted. -/
def encState (c : Params) (x out : List Byte) (p litStart : Nat) (litLen : BitVec 11) : State :=
  { State.resetWith c with
    inMem := Mem.storeRun [] 0 x
    inLen := x.length
    op := .compress
    run := .busy
    outMem := Mem.storeRun [] 0 out
    enc := { n := x.length, p := p, olen := out.length, litStart := litStart, litLen := litLen, latch := EncLatch.zero } }

/-- A block in `DONE` with the result `out`. -/
def doneState (out : List Byte) : State :=
  { State.reset with run := .done, outMem := Mem.storeRun [] 0 out, outLen := out.length }

/-- The block with the host about to act. -/
def withHost (o : HostOp) (s : State) : State := { s with host := [.act o] }

/-- Finite capacities, and positions of ten bits. -/
def caps (inCap outCap : Nat) : Params :=
  { inCap := some inCap, outCap := some outCap, aw := some 10, csrMap := #v[0, 4, 8, 12, 16, 20, 24], encExt := true }

/-- `ENC_EXT = 0`. -/
def shortOnly : Params := { Config.standard with encExt := false }

/-- `ENC_EXT = 0`, room for 32 bytes of input and `outCap` of output. -/
def shortCaps (outCap : Nat) : Params := { caps 32 outCap with encExt := false }

/-- A DEC run at `BFILL 32` whose payload byte, below `IN_LEN`, the host never wrote. -/
def unwritten (c : Params) : State := { decState c [0x3F#8] [] 0 with inLen := 2 }

/-- What a DEC step left: `OUT[0 .. OLEN)` and `IP`, while the run goes on. -/
def produced : Answer → Option (List Byte × Nat)
  | .next t => if t.run = .busy then some (t.outMem.runFrom 0 t.dec.olen, t.dec.ip) else none
  | _ => none

/-- How a step ended a run in a fault: `ERR`, `ERR_POS`, `OUT_LEN`. -/
def failed : Answer → Option (ErrCode × Nat × Nat)
  | .next t => if t.run = .error then some (t.err, t.errPos, t.outLen) else none
  | _ => none

/-- How a step ended a run normally: `OUT[0 .. OUT_LEN)`, `IN_POS`, `EOS`. -/
def finished : Answer → Option (List Byte × Nat × Bool)
  | .next t => if t.run = .done then some (resultBytes t, t.inPos, t.eos) else none
  | _ => none

/-- What an ENC step left: `OUT[0 .. OLEN)`, `P` and `LIT_LEN`, while the run goes on. -/
def passed : Answer → Option (List Byte × Nat × BitVec 11)
  | .next t => if t.run = .busy then some (emitted t, t.enc.p, t.enc.litLen) else none
  | _ => none

/-- Whether bytes decode to an instruction. -/
def accepted : Decoded → Bool
  | .ok _ _ => true
  | .rejected _ => false

theorem accepted_ok {d : Decoded} (h : accepted d = true) : ∃ i r, d = .ok i r := by
  cases d with
  | ok i r => exact ⟨i, r, rfl⟩
  | rejected r => cases h

/-! ## The small states meet the invariant -/

theorem filled_from_zero (bs : List Byte) (a : Nat) : ((Mem.storeRun [] 0 bs).byteAt a).isSome ↔ a < bs.length := by
  have := storeRun_filled (m := []) (n := 0) bs (by simp) a
  simpa using this

theorem capHas_of_fits {cap : Option Nat} {n a : Nat} (h : capFits cap n = true) (ha : a < n) : capHas cap a = true := by
  cases cap with
  | none => rfl
  | some c =>
    simp only [capFits, capHas, decide_eq_true_eq] at h ⊢
    omega

theorem decState_inv {c : Params} {bs out : List Byte} {ip : Nat} (h1 : ip ≤ bs.length)
    (h2 : capFits c.inCap bs.length = true) (h3 : capFits c.outCap out.length = true) : Inv (decState c bs out ip) where
  inForm := Mem.wf_storeRun 0 bs rfl
  outForm := Mem.wf_storeRun 0 out rfl
  inWithin := fun a ha => capHas_of_fits h2 ((filled_from_zero bs a).mp ha)
  errExact := by simp [decState, State.resetWith]
  eosDone := by simp [decState, State.resetWith]
  outLenDone := fun _ => rfl
  resultHeld := by simp [decState]
  inputFits := fun _ => h2
  decoder := fun _ => ⟨h1, filled_from_zero out, h3⟩
  encoder := by simp [Encoding, decState, State.resetWith]
  pending := by simp [Encoding, decState, State.resetWith]
  widths := fun hl w hw =>
    have hp := Nat.two_pow_pos w
    have hi : bs.length < 2 ^ w := lt_of_capFits_inCap hl hw h2
    have ho : out.length < 2 ^ w := lt_of_capFits_outCap hl hw h3
    ⟨hi, hp, hp, hp, show ip < 2 ^ w by omega, ho, hp, hp, hp, hp, hp⟩

theorem encState_inv {c : Params} {x out : List Byte} {p litStart : Nat} {litLen : BitVec 11} (h1 : p ≤ x.length)
    (h2 : capFits c.inCap x.length = true) (h3 : capFits c.outCap out.length = true)
    (h4 : litLen.toNat < Config.encMaxLen c) (h5 : 0 < litLen.toNat → litStart + litLen.toNat = p)
    (h6 : litStart ≤ x.length := by decide) :
    Inv (encState c x out p litStart litLen) where
  inForm := Mem.wf_storeRun 0 x rfl
  outForm := Mem.wf_storeRun 0 out rfl
  inWithin := fun a ha => capHas_of_fits h2 ((filled_from_zero x a).mp ha)
  errExact := by simp [encState, State.resetWith]
  eosDone := by simp [encState, State.resetWith]
  outLenDone := fun _ => rfl
  resultHeld := by simp [encState]
  inputFits := fun _ => h2
  decoder := by simp [Decoding, encState]
  encoder := fun _ => ⟨rfl, h1, filled_from_zero out, h3⟩
  pending := fun _ => ⟨h4, h5⟩
  widths := fun hl w hw =>
    have hp := Nat.two_pow_pos w
    have hi : x.length < 2 ^ w := lt_of_capFits_inCap hl hw h2
    have ho : out.length < 2 ^ w := lt_of_capFits_outCap hl hw h3
    ⟨hi, hp, hp, hp, hp, hp, hp, hi, show p < 2 ^ w by omega, ho, show litStart < 2 ^ w by omega⟩

/-! ## Well-formedness: a term each check refuses -/

theorem test_wf_dcopy_length : (Instr.dcopy 1#5 [0x41#8]).wellFormed = false := by decide
theorem test_wf_dcopyX_length : (Instr.dcopyX 0#5 1#5 [0x41#8]).wellFormed = false := by decide
theorem test_wf_dcopyX_high : (Instr.dcopyX 31#5 0#5 (List.replicate 993 0#8)).wellFormed = false := by decide
theorem test_wf_bfillX_high : (Instr.bfillX 31#5 0#5 0x41#8).wellFormed = false := by decide
theorem test_wf_wfillX_high : (Instr.wfillX 31#5 0#5 0xAA#8 0xBB#8).wellFormed = false := by decide
theorem test_wf_ifillX_high : (Instr.ifillX 31#5 0#5 0#8).wellFormed = false := by decide
theorem test_wf_rabsX_high : (Instr.rabsX 31#5 0#5 0#16).wellFormed = false := by decide
theorem test_wf_raltX_high : (Instr.raltX 31#5 0#5).wellFormed = false := by decide
theorem test_wf_rrelX_high : (Instr.rrelX 31#5 0#5 1#8).wellFormed = false := by decide
theorem test_wf_extRsvd_high : (Instr.extRsvd 31#5 0#5).wellFormed = false := by decide

/-! ## Decoding: words written out bit by bit from 30_encoding.md R63, R66, R76 -/

-- 000 00010, then three bytes (R110's example).
theorem test_decode_dcopy :
    decode [0b00000010#8, 0x41#8, 0x42#8, 0x43#8, 0xFF#8] = .ok (.dcopy 2#5 [0x41#8, 0x42#8, 0x43#8]) [0xFF#8] := by decide
-- 001 00011 (R112's example).
theorem test_decode_bfill : decode [0b00100011#8, 0x41#8, 0xFF#8] = .ok (.bfill 3#5 0x41#8) [0xFF#8] := by decide
-- 010 00100, b0 first (R114's example).
theorem test_decode_wfill : decode [0b01000100#8, 0xAA#8, 0xBB#8] = .ok (.wfill 4#5 0xAA#8 0xBB#8) [] := by decide
-- 011 00010; the payload FF is data (R116's example).
theorem test_decode_ifill : decode [0b01100010#8, 0xFF#8, 0xFF#8] = .ok (.ifill 2#5 0xFF#8) [0xFF#8] := by decide
-- 100 00001, pos 0x0102 little-endian (R132's example).
theorem test_decode_rabs : decode [0b10000001#8, 0x02#8, 0x01#8] = .ok (.rabs 1#5 0x0102#16) [] := by decide
-- 101 00000: nothing read past the header (R134's example).
theorem test_decode_ralt : decode [0b10100000#8, 0x01#8] = .ok (.ralt 0#5) [0x01#8] := by decide
-- 110 00101 (R136's example).
theorem test_decode_rrel : decode [0b11000101#8, 0x03#8] = .ok (.rrel 5#5 0x03#8) [] := by decide
-- 111 00000, 00010 000 (R111's example).
theorem test_decode_dcopyX :
    decode [0b11100000#8, 0b00010000#8, 0x41#8, 0x42#8, 0x43#8] = .ok (.dcopyX 0#5 2#5 [0x41#8, 0x42#8, 0x43#8]) [] := by
  decide
-- 111 00001, 00000 001 (R113's example).
theorem test_decode_bfillX : decode [0b11100001#8, 0b00000001#8, 0x41#8] = .ok (.bfillX 1#5 0#5 0x41#8) [] := by decide
-- 111 00001, 00000 010 (R115's example).
theorem test_decode_wfillX :
    decode [0b11100001#8, 0b00000010#8, 0xAA#8, 0xBB#8] = .ok (.wfillX 1#5 0#5 0xAA#8 0xBB#8) [] := by decide
-- 111 01001, 01011 011 (R117's example).
theorem test_decode_ifillX : decode [0b11101001#8, 0b01011011#8, 0x00#8] = .ok (.ifillX 9#5 11#5 0x00#8) [] := by decide
-- 111 00001, 00111 100, pos 0x0100 (95_test_vectors.md P2).
theorem test_decode_rabsX :
    decode [0b11100001#8, 0b00111100#8, 0x00#8, 0x01#8] = .ok (.rabsX 1#5 7#5 0x0100#16) [] := by decide
-- 111 00000, 00000 101 (R135's example).
theorem test_decode_raltX : decode [0b11100000#8, 0b00000101#8, 0x00#8] = .ok (.raltX 0#5 0#5) [0x00#8] := by decide
-- 111 00111, 11110 110 (R137's example).
theorem test_decode_rrelX : decode [0b11100111#8, 0b11110110#8, 0x01#8] = .ok (.rrelX 7#5 30#5 0x01#8) [] := by decide
-- 111 11110, 11111 111: FF in continuation position is not END (95_test_vectors.md 2.1).
theorem test_decode_extRsvd : decode [0b11111110#8, 0b11111111#8] = .ok (.extRsvd 30#5 31#5) [] := by decide
-- 11111111 (R97's example).
theorem test_decode_endStream : decode [0b11111111#8, 0x12#8] = .ok .endStream [0x12#8] := by decide
-- 95_test_vectors.md 1.4: a lone header byte.
theorem test_decode_cut_payload : decode [0x20#8] = .rejected (.noPayload (shortHeader .byteFill 0#5)) := by decide
theorem test_decode_cut_continuation : decode [0xFE#8] = .rejected (.noContinuation 0xFE#8) := by decide

/-! ## Encoding: the worked headers of 43_encoder.md R164 -/

theorem test_encode_short : encode (.bfill 31#5 0x41#8) = [0x3F#8, 0x41#8] := by decide
theorem test_encode_ext : encode (.rrelX 30#5 31#5 0x01#8) = [0xFE#8, 0xFE#8, 0x01#8] := by decide
theorem test_header_bytes :
    headerBytes .byteFill 32 = [0x3F#8] ∧ headerBytes .byteFill 33 = [0xE1#8, 0x01#8] ∧
    headerBytes .repRel 992 = [0xFE#8, 0xFE#8] := by decide

/-! ## Table words: every row of spec/opcode_table.json as a word, and as the first instruction after reset -/

theorem test_row_dcopy : decodeTableWord 8 0x00 = some (.dcopy 0#5 [0#8]) := by decide
theorem test_row_bfill : decodeTableWord 8 0x20 = some (.bfill 0#5 0#8) := by decide
theorem test_row_wfill : decodeTableWord 8 0x40 = some (.wfill 0#5 0#8 0#8) := by decide
theorem test_row_ifill : decodeTableWord 8 0x60 = some (.ifill 0#5 0#8) := by decide
theorem test_row_rabs : decodeTableWord 8 0x80 = some (.rabs 0#5 0#16) := by decide
theorem test_row_ralt : decodeTableWord 8 0xA0 = some (.ralt 0#5) := by decide
theorem test_row_rrel : decodeTableWord 8 0xC0 = some (.rrel 0#5 0#8) := by decide
theorem test_row_endStream : decodeTableWord 8 0xFF = some .endStream := by decide
theorem test_row_dcopyX : decodeTableWord 16 0xE000 = some (.dcopyX 0#5 0#5 [0#8]) := by decide
theorem test_row_bfillX : decodeTableWord 16 0xE001 = some (.bfillX 0#5 0#5 0#8) := by decide
theorem test_row_wfillX : decodeTableWord 16 0xE002 = some (.wfillX 0#5 0#5 0#8 0#8) := by decide
theorem test_row_ifillX : decodeTableWord 16 0xE003 = some (.ifillX 0#5 0#5 0#8) := by decide
theorem test_row_rabsX : decodeTableWord 16 0xE004 = some (.rabsX 0#5 0#5 0#16) := by decide
theorem test_row_raltX : decodeTableWord 16 0xE005 = some (.raltX 0#5 0#5) := by decide
theorem test_row_rrelX : decodeTableWord 16 0xE006 = some (.rrelX 0#5 0#5 0#8) := by decide
theorem test_row_extRsvd : decodeTableWord 16 0xE007 = some (.extRsvd 0#5 0#5) := by decide

theorem test_first_dcopy : produced (step (State.reset.withFetchWord 8 0x00)) = some ([0#8], 2) := by decide
theorem test_first_bfill : produced (step (State.reset.withFetchWord 8 0x20)) = some ([0#8], 2) := by decide
theorem test_first_wfill : produced (step (State.reset.withFetchWord 8 0x40)) = some ([0#8], 3) := by decide
theorem test_first_ifill : produced (step (State.reset.withFetchWord 8 0x60)) = some ([0#8], 2) := by decide
theorem test_first_rabs : failed (step (State.reset.withFetchWord 8 0x80)) = some (.invalidOffset, 0, 0) := by decide
theorem test_first_ralt : failed (step (State.reset.withFetchWord 8 0xA0)) = some (.unsupportedKind, 0, 0) := by decide
theorem test_first_rrel : failed (step (State.reset.withFetchWord 8 0xC0)) = some (.invalidOffset, 0, 0) := by decide
theorem test_first_endStream : finished (step (State.reset.withFetchWord 8 0xFF)) = some ([], 1, true) := by decide
theorem test_first_dcopyX : produced (step (State.reset.withFetchWord 16 0xE000)) = some ([0#8], 3) := by decide
theorem test_first_bfillX : produced (step (State.reset.withFetchWord 16 0xE001)) = some ([0#8], 3) := by decide
theorem test_first_wfillX : produced (step (State.reset.withFetchWord 16 0xE002)) = some ([0#8], 4) := by decide
theorem test_first_ifillX : produced (step (State.reset.withFetchWord 16 0xE003)) = some ([0#8], 3) := by decide
theorem test_first_rabsX : failed (step (State.reset.withFetchWord 16 0xE004)) = some (.invalidOffset, 0, 0) := by decide
theorem test_first_raltX : failed (step (State.reset.withFetchWord 16 0xE005)) = some (.unsupportedKind, 0, 0) := by decide
theorem test_first_rrelX : failed (step (State.reset.withFetchWord 16 0xE006)) = some (.invalidOffset, 0, 0) := by decide
theorem test_first_extRsvd : failed (step (State.reset.withFetchWord 16 0xE007)) = some (.reservedEncoding, 0, 0) := by decide

/-! ## Single steps of the decoder: 95_test_vectors.md section 2 and the rules' examples -/

theorem test_step_dcopy :
    produced (step (decState Config.standard [0x02#8, 0x41#8, 0x42#8, 0x43#8, 0xFF#8] [] 0)) =
      some ([0x41#8, 0x42#8, 0x43#8], 4) := by decide
theorem test_step_dcopy_short :
    failed (step (decState Config.standard [0x02#8, 0x41#8, 0x42#8] [] 0)) = some (.truncated, 0, 0) := by decide
theorem test_step_dcopyX :
    produced (step (decState Config.standard [0xE0#8, 0x10#8, 0x41#8, 0x42#8, 0x43#8, 0xFF#8] [] 0)) =
      some ([0x41#8, 0x42#8, 0x43#8], 5) := by decide
theorem test_step_bfill_full :
    failed (step (decState (caps 16 32) [0x00#8, 0x41#8, 0x3F#8, 0x42#8, 0xFF#8] [0x41#8] 2)) =
      some (.outputOverflow, 2, 0) := by decide
theorem test_step_bfill_exact :
    produced (step (decState (caps 16 33) [0x00#8, 0x41#8, 0x3F#8, 0x42#8, 0xFF#8] [0x41#8] 2)) =
      some (0x41#8 :: List.replicate 32 0x42#8, 4) := by decide
theorem test_step_bfillX :
    produced (step (decState Config.standard [0xE1#8, 0x01#8, 0x41#8, 0xFF#8] [] 0)) =
      some (List.replicate 33 0x41#8, 3) := by decide
theorem test_step_wfill :
    produced (step (decState Config.standard [0x44#8, 0xAA#8, 0xBB#8, 0xFF#8] [] 0)) =
      some ([0xAA#8, 0xBB#8, 0xAA#8, 0xBB#8, 0xAA#8], 3) := by decide
theorem test_step_wfill_short :
    failed (step (decState Config.standard [0x40#8, 0xAA#8] [] 0)) = some (.truncated, 0, 0) := by decide
theorem test_step_wfillX :
    produced (step (decState Config.standard [0xE0#8, 0x12#8, 0xAA#8, 0xBB#8, 0xFF#8] [] 0)) =
      some ([0xAA#8, 0xBB#8, 0xAA#8], 4) := by decide
theorem test_step_ifill :
    produced (step (decState Config.standard [0x62#8, 0xFF#8, 0xFF#8] [] 0)) = some ([0xFF#8, 0x00#8, 0x01#8], 2) := by decide
theorem test_step_ifillX :
    produced (step (decState Config.standard [0xE0#8, 0x13#8, 0xFE#8, 0xFF#8] [] 0)) =
      some ([0xFE#8, 0xFF#8, 0x00#8], 3) := by decide
theorem test_step_rabs :
    produced (step (decState Config.standard [0x02#8, 0x41#8, 0x42#8, 0x43#8, 0x83#8, 0x01#8, 0x00#8, 0xFF#8]
      [0x41#8, 0x42#8, 0x43#8] 4)) = some ([0x41#8, 0x42#8, 0x43#8, 0x42#8, 0x43#8, 0x42#8, 0x43#8], 7) := by decide
theorem test_step_rabs_at_length :
    failed (step (decState Config.standard [0x01#8, 0x41#8, 0x42#8, 0x84#8, 0x02#8, 0x00#8, 0xFF#8] [0x41#8, 0x42#8] 3)) =
      some (.invalidOffset, 3, 0) := by decide
theorem test_step_rabsX :
    produced (step (decState Config.standard [0x02#8, 0x41#8, 0x42#8, 0x43#8, 0xE0#8, 0x44#8, 0x01#8, 0x00#8, 0xFF#8]
      [0x41#8, 0x42#8, 0x43#8] 4)) =
      some ([0x41#8, 0x42#8, 0x43#8, 0x42#8, 0x43#8, 0x42#8, 0x43#8, 0x42#8, 0x43#8, 0x42#8, 0x43#8, 0x42#8], 8) := by decide
theorem test_step_ralt :
    failed (step (decState Config.standard [0x00#8, 0x41#8, 0xA0#8, 0x01#8, 0xFF#8] [0x41#8] 2)) =
      some (.unsupportedKind, 2, 0) := by decide
theorem test_step_ralt_lone : failed (step (decState Config.standard [0xBF#8] [] 0)) = some (.unsupportedKind, 0, 0) := by decide
theorem test_step_raltX : failed (step (decState Config.standard [0xE0#8, 0x05#8] [] 0)) = some (.unsupportedKind, 0, 0) := by
  decide
theorem test_step_rrel :
    produced (step (decState Config.standard [0x02#8, 0x41#8, 0x42#8, 0x43#8, 0xC5#8, 0x03#8, 0xFF#8]
      [0x41#8, 0x42#8, 0x43#8] 4)) =
      some ([0x41#8, 0x42#8, 0x43#8, 0x41#8, 0x42#8, 0x43#8, 0x41#8, 0x42#8, 0x43#8], 6) := by decide
theorem test_step_rrel_zero :
    failed (step (decState Config.standard [0x00#8, 0x41#8, 0xC0#8, 0x00#8, 0xFF#8] [0x41#8] 2)) =
      some (.invalidOffset, 2, 0) := by decide
theorem test_step_rrelX :
    produced (step (decState Config.standard [0x02#8, 0x41#8, 0x42#8, 0x43#8, 0xE0#8, 0x46#8, 0x02#8, 0xFF#8]
      [0x41#8, 0x42#8, 0x43#8] 4)) =
      some ([0x41#8, 0x42#8, 0x43#8, 0x42#8, 0x43#8, 0x42#8, 0x43#8, 0x42#8, 0x43#8, 0x42#8, 0x43#8, 0x42#8], 7) := by decide
theorem test_step_rrelX_far :
    failed (step (decState Config.standard [0x00#8, 0x41#8, 0xE0#8, 0x06#8, 0x02#8, 0xFF#8] [0x41#8] 2)) =
      some (.invalidOffset, 2, 0) := by decide
theorem test_step_extRsvd :
    failed (step (decState Config.standard [0xFE#8, 0xFF#8] [] 0)) = some (.reservedEncoding, 0, 0) := by decide
theorem test_step_endStream :
    finished (step (decState Config.standard [0xFF#8, 0x12#8, 0x34#8] [] 0)) = some ([], 1, true) := by decide
theorem test_step_exhausted :
    finished (step (decState Config.standard [0x02#8, 0x41#8, 0x42#8, 0x43#8] [0x41#8, 0x42#8, 0x43#8] 4)) =
      some ([0x41#8, 0x42#8, 0x43#8], 4, false) := by decide
-- A payload byte the host never wrote is any value (R33, U15): the run goes on, with 32 bytes more and `IP` past the payload.
theorem test_step_unwritten_full : failed (step (unwritten (caps 2 31))) = some (.outputOverflow, 0, 0) := by decide
theorem test_step_unwritten_room : (produced (step (unwritten (caps 2 32)))).map (fun p => (p.1.length, p.2)) = some (32, 2) := by
  decide
theorem test_step_lone_extended :
    failed (step (decState Config.standard [0xFE#8] [] 0)) = some (.truncated, 0, 0) := by decide

/-! ## Single steps of the encoder: 95_test_vectors.md section 1.1, 3 and P4 -/

/-- The input of P4. -/
def p4 : List Byte := [0x10#8, 0x20#8, 0x30#8, 0x10#8, 0x20#8, 0x30#8, 0x10#8, 0x20#8]

theorem test_enc_literal : passed (step (encState Config.standard p4 [] 2 0 2#11)) = some ([], 3, 3#11) := by decide
theorem test_enc_repeat :
    passed (step (encState Config.standard p4 [] 3 0 3#11)) =
      some ([0x02#8, 0x10#8, 0x20#8, 0x30#8, 0xC4#8, 0x03#8], 8, 0#11) := by decide
theorem test_enc_incfill :
    passed (step (encState Config.standard [1#8, 2#8, 3#8, 4#8, 1#8, 2#8, 3#8, 4#8] [] 0 0 0#11)) =
      some ([0x63#8, 0x01#8], 4, 0#11) := by decide
-- Kinds 3 and 6 tie; kind 6 wins by case (3) of R161.
theorem test_enc_tie :
    passed (step (encState Config.standard [1#8, 2#8, 3#8, 4#8, 1#8, 2#8, 3#8, 4#8] [0x63#8, 0x01#8] 4 0 0#11)) =
      some ([0x63#8, 0x01#8, 0xC3#8, 0x04#8], 8, 0#11) := by decide
theorem test_enc_wordfill :
    passed (step (encState Config.standard [0xAA#8, 0xBB#8, 0xAA#8, 0xBB#8, 0xAA#8] [] 0 0 0#11)) =
      some ([0x44#8, 0xAA#8, 0xBB#8], 5, 0#11) := by decide
theorem test_enc_bytefill_flush :
    passed (step (encState Config.standard [0x41#8, 0x42#8, 0x41#8, 0x41#8, 0x41#8] [] 2 0 2#11)) =
      some ([0x01#8, 0x41#8, 0x42#8, 0x22#8, 0x41#8], 5, 0#11) := by decide
theorem test_enc_end :
    finished (step (encState Config.standard [0x41#8] [] 1 0 1#11)) = some ([0x00#8, 0x41#8, 0xFF#8], 1, false) := by decide
theorem test_enc_full :
    failed (step (encState (caps 8 2) [0x41#8] [] 1 0 1#11)) = some (.outputOverflow, 1, 0) := by decide
/-- 32 bytes in which no candidate qualifies at the last position. -/
def steps : List Byte := (List.range 32).map fun i => BitVec.ofNat 8 (i * i)

-- `ERR_POS` is `P`: the old cursor in a pass with a selection, the moved one at `ENC_MAXLEN` (R152, R166, R167, R168).
theorem test_enc_full_selected :
    failed (step (encState (caps 8 5) p4 [] 3 0 3#11)) = some (.outputOverflow, 3, 0) := by decide
theorem test_enc_full_literal :
    failed (step (encState (shortCaps 32) steps [] 31 0 31#11)) = some (.outputOverflow, 32, 0) := by decide +kernel
theorem test_enc_short_only :
    passed (step (encState shortOnly (List.replicate 33 0x41#8) [] 0 0 0#11)) = some ([0x3F#8, 0x41#8], 32, 0#11) := by decide
theorem test_enc_extended :
    passed (step (encState Config.standard (List.replicate 33 0x41#8) [] 0 0 0#11)) =
      some ([0xE1#8, 0x01#8, 0x41#8], 33, 0#11) := by decide

/-! ## Single steps of the host -/

theorem test_host_status :
    (match step (withHost (.readReg .status) { doneState [] with eos := true }) with
      | .next t => some t.hostData | _ => none) = some 6 := by decide
theorem test_host_refused :
    (match step (withHost (.writeInLen 3) (decState Config.standard [] [] 0)) with
      | .refused r => some r | _ => none) = some .hostAccessWhileBusy := by decide

-- While `BUSY` only `STATUS` is answered (92_eei_decisions.md D14).
theorem test_host_inLen_busy :
    (match step (withHost (.readReg .inLen) (decState Config.standard [] [] 0)) with
      | .refused r => some r | _ => none) = some .hostAccessWhileBusy := by decide

/-! ## Witnesses: states and operands that meet a statement's hypotheses -/

/-- Three bytes written, the cursor at the instruction after them. -/
def abc : List Byte := [0x41#8, 0x42#8, 0x43#8]

theorem decode_all_accepted {bs : List (List Byte)} (h : bs.all (fun b => accepted (decode b)) = true) :
    ∀ b ∈ bs, ∃ i r, decode b = .ok i r :=
  fun b hb => accepted_ok (List.all_eq_true.mp h b hb)

theorem test_witness_DecodeOfEncodeIsIdentity :
    (Instr.dcopy 31#5 (List.replicate 32 0xFF#8)).wellFormed = true ∧ (Instr.dcopyX 0#5 0#5 [0x41#8]).wellFormed = true ∧
    (Instr.rabsX 30#5 31#5 0xFFFF#16).wellFormed = true ∧ (Instr.extRsvd 30#5 31#5).wellFormed = true := by decide

theorem test_witness_DecodedStreamBeginsWithItsEncoding :
    ∃ bs i rest, decode bs = .ok i rest ∧ bs = [0xFE#8, 0xF9#8, 0x41#8, 0xFF#8] := ⟨_, _, _, rfl, rfl⟩

theorem test_witness_OnlyStreamsCutShortAreRejected :
    (∃ r, decode [] = .rejected r) ∧ (∃ r, decode [0xE0#8] = .rejected r) ∧ (∃ r, decode [0xFE#8] = .rejected r) ∧
    (∃ r, decode [0x00#8] = .rejected r) ∧ (∃ r, decode [0xE0#8, 0x04#8, 0x00#8] = .rejected r) :=
  ⟨⟨_, rfl⟩, ⟨_, rfl⟩, ⟨_, rfl⟩, ⟨_, rfl⟩, ⟨_, rfl⟩⟩

/-- Both ends of every range of header bytes. -/
def rangeEnds : List Byte :=
  [0x00#8, 0x1F#8, 0x20#8, 0x3F#8, 0x40#8, 0x5F#8, 0x60#8, 0x7F#8, 0x80#8, 0x9F#8, 0xA0#8, 0xBF#8, 0xC0#8, 0xDF#8, 0xE0#8,
   0xFE#8, 0xFF#8]

theorem test_witness_HeaderByteSelectsTheRow :
    ∀ bs ∈ rangeEnds.map (fun b => b :: 0x01#8 :: List.replicate 32 0#8), ∃ i r, decode bs = .ok i r :=
  decode_all_accepted (by decide)

theorem test_witness_ShortHeaderFieldsAreRead : (0x00#8 : Byte).toNat < 0xE0 ∧ (0xDF#8 : Byte).toNat < 0xE0 := by decide

theorem test_witness_ExtendedHeaderFieldsAreRead :
    (∃ i r, 0xE0 ≤ (0xE0#8 : Byte).toNat ∧ (0xE0#8 : Byte).toNat ≤ 0xFE ∧ decode [0xE0#8, 0x00#8, 0x41#8] = .ok i r) ∧
    (∃ i r, 0xE0 ≤ (0xFE#8 : Byte).toNat ∧ (0xFE#8 : Byte).toNat ≤ 0xFE ∧ decode [0xFE#8, 0xFF#8] = .ok i r) :=
  ⟨⟨_, _, by decide, by decide, rfl⟩, ⟨_, _, by decide, by decide, rfl⟩⟩

theorem test_witness_ExtendedLengthsAreOneTo992 :
    (0#5 ≠ 31#5 ∧ extLen 0#5 0#5 = 1) ∧ (30#5 ≠ 31#5 ∧ extLen 30#5 31#5 = 992) := by decide

theorem test_witness_EncoderHeadersFollowTheLayout :
    ∀ len ∈ [1, 32, 33, 992], Kind.repRel ≠ .seven ∧ 1 ≤ len ∧ len ≤ 992 := by decide

theorem test_witness_DirectCopyAppendsItsPayload :
    (∃ d : List Byte, ∃ s : State, d.length = (31#5 : BitVec 5).toNat + 1 ∧
      s.dec.ip + 1 + ((31#5 : BitVec 5).toNat + 1) ≤ s.inLen ∧
      capFits s.params.outCap (s.dec.olen + ((31#5 : BitVec 5).toNat + 1)) = true) ∧
    (∃ d : List Byte, ∃ s : State, d.length = (0#5 : BitVec 5).toNat * 32 + (0#5 : BitVec 5).toNat + 1 ∧
      s.dec.ip + 2 + ((0#5 : BitVec 5).toNat * 32 + (0#5 : BitVec 5).toNat + 1) ≤ s.inLen ∧
      capFits s.params.outCap (s.dec.olen + ((0#5 : BitVec 5).toNat * 32 + (0#5 : BitVec 5).toNat + 1)) = true) :=
  ⟨⟨List.replicate 32 0x55#8, decState (caps 33 32) (0x1F#8 :: List.replicate 32 0x55#8) [] 0, by decide⟩,
   ⟨[0x41#8], decState (caps 3 1) [0xE0#8, 0x00#8, 0x41#8] [] 0, by decide⟩⟩

theorem test_witness_ByteFillRepeatsItsByte :
    (∃ s : State, s.dec.ip + 2 ≤ s.inLen ∧ capFits s.params.outCap (s.dec.olen + ((31#5 : BitVec 5).toNat + 1)) = true) ∧
    (∃ s : State, s.dec.ip + 3 ≤ s.inLen ∧
      capFits s.params.outCap (s.dec.olen + ((30#5 : BitVec 5).toNat * 32 + (31#5 : BitVec 5).toNat + 1)) = true) :=
  ⟨⟨decState (caps 2 32) [0x3F#8, 0x41#8] [] 0, by decide⟩,
   ⟨decState (caps 3 992) [0xFE#8, 0xF9#8, 0x41#8] [] 0, by decide⟩⟩

theorem test_witness_WordFillAlternatesItsBytes :
    (∃ s : State, s.dec.ip + 3 ≤ s.inLen ∧ capFits s.params.outCap (s.dec.olen + ((0#5 : BitVec 5).toNat + 1)) = true) ∧
    (∃ s : State, s.dec.ip + 4 ≤ s.inLen ∧
      capFits s.params.outCap (s.dec.olen + ((30#5 : BitVec 5).toNat * 32 + (31#5 : BitVec 5).toNat + 1)) = true) :=
  ⟨⟨decState (caps 3 1) [0x40#8, 0xAA#8, 0xBB#8] [] 0, by decide⟩,
   ⟨decState (caps 4 992) [0xFE#8, 0xFA#8, 0xAA#8, 0xBB#8] [] 0, by decide⟩⟩

theorem test_witness_IncreasingFillCountsModulo256 :
    (∃ s : State, s.dec.ip + 2 ≤ s.inLen ∧ capFits s.params.outCap (s.dec.olen + ((0#5 : BitVec 5).toNat + 1)) = true) ∧
    (∃ s : State, s.dec.ip + 3 ≤ s.inLen ∧
      capFits s.params.outCap (s.dec.olen + ((9#5 : BitVec 5).toNat * 32 + (11#5 : BitVec 5).toNat + 1)) = true) :=
  ⟨⟨decState (caps 2 1) [0x60#8, 0xFF#8] [] 0, by decide⟩,
   ⟨decState (caps 3 300) [0xE9#8, 0x5B#8, 0x00#8] [] 0, by decide⟩⟩

-- `pos = OLEN - 1`, the last valid source, and `pos = 0`.
theorem test_witness_AbsoluteRepeatIsPeriodic :
    (∃ s : State, s.dec.ip + 3 ≤ s.inLen ∧ (2#16 : BitVec 16).toNat < s.dec.olen ∧
      capFits s.params.outCap (s.dec.olen + ((31#5 : BitVec 5).toNat + 1)) = true) ∧
    (∃ s : State, s.dec.ip + 4 ≤ s.inLen ∧ (0#16 : BitVec 16).toNat < s.dec.olen ∧
      capFits s.params.outCap (s.dec.olen + ((30#5 : BitVec 5).toNat * 32 + (31#5 : BitVec 5).toNat + 1)) = true) :=
  ⟨⟨decState (caps 3 35) [0x9F#8, 0x02#8, 0x00#8] abc 0, by decide, by decide, by decide⟩,
   ⟨decState (caps 4 993) [0xFE#8, 0xFC#8, 0x00#8, 0x00#8] [0x41#8] 0, by decide, by decide, by decide⟩⟩

-- `dist = 1` and `dist = OLEN`.
theorem test_witness_RelativeRepeatIsPeriodic :
    (∃ s : State, s.dec.ip + 2 ≤ s.inLen ∧ 1 ≤ (1#8 : Byte).toNat ∧ (1#8 : Byte).toNat ≤ s.dec.olen ∧
      capFits s.params.outCap (s.dec.olen + ((31#5 : BitVec 5).toNat + 1)) = true) ∧
    (∃ s : State, s.dec.ip + 3 ≤ s.inLen ∧ 1 ≤ (3#8 : Byte).toNat ∧ (3#8 : Byte).toNat ≤ s.dec.olen ∧
      capFits s.params.outCap (s.dec.olen + ((30#5 : BitVec 5).toNat * 32 + (31#5 : BitVec 5).toNat + 1)) = true) :=
  ⟨⟨decState (caps 2 35) [0xDF#8, 0x01#8] abc 0, by decide, by decide, by decide, by decide⟩,
   ⟨decState (caps 3 995) [0xFE#8, 0xFE#8, 0x03#8] abc 0, by decide, by decide, by decide, by decide⟩⟩

theorem test_witness_RepeatCopiesBytewiseForward :
    ∃ (i : Instr) (hd : Header) (s t : State) (src : Nat), i.header = some hd ∧ SourceOf i s.dec.olen src ∧ s.run = .busy ∧
      exec i s = .next t ∧ t.run = .busy :=
  ⟨.rrel 5#5 3#8, _, decState Config.standard [0xC5#8, 0x03#8] abc 0, _, 0, rfl, by unfold SourceOf; decide, rfl, rfl, rfl⟩

theorem test_witness_TerminatorEndsTheRun :
    ∃ s : State, Decoding s ∧ s.host = [] ∧ s.dec.ip < s.inLen ∧ inByte s s.dec.ip = 0xFF#8 :=
  ⟨decState Config.standard [0xFF#8, 0x12#8, 0x34#8] [] 0, ⟨rfl, rfl⟩, rfl, by decide, rfl⟩

-- Both ends of `0xA0 .. 0xBF`; both ends of `0xE0 .. 0xFE`.
theorem test_witness_Kind5IsUnsupported :
    (∀ b ∈ [0xA0#8, 0xBF#8], ∃ s : State, Decoding s ∧ s.host = [] ∧ s.dec.ip < s.inLen ∧ inByte s s.dec.ip = b ∧
      0xA0 ≤ b.toNat ∧ b.toNat ≤ 0xBF) ∧
    (∀ b ∈ [0xE0#8, 0xFE#8], ∃ s : State, ∃ e : Byte, Decoding s ∧ s.host = [] ∧ s.dec.ip + 1 < s.inLen ∧
      inByte s s.dec.ip = b ∧ inByte s (s.dec.ip + 1) = e ∧ 0xE0 ≤ b.toNat ∧ b.toNat ≤ 0xFE ∧
      e.toNat % 8 = 5) := by
  refine ⟨fun b hb => ⟨decState Config.standard [b] [] 0, ⟨rfl, rfl⟩, rfl, Nat.zero_lt_one, rfl, ?_⟩,
    fun b hb => ⟨decState Config.standard [b, 0xFD#8] [] 0, 0xFD#8, ⟨rfl, rfl⟩, rfl, Nat.one_lt_two, rfl, rfl, ?_⟩⟩ <;>
  · revert b
    decide

theorem test_witness_ReservedContinuationFaults :
    ∀ b ∈ [0xE0#8, 0xFE#8],
      (∃ s : State, ∃ e : Byte, Decoding s ∧ s.host = [] ∧ s.dec.ip + 1 < s.inLen ∧ inByte s s.dec.ip = b ∧
        inByte s (s.dec.ip + 1) = e ∧ 0xE0 ≤ b.toNat ∧ b.toNat ≤ 0xFE ∧ e.toNat % 8 = 7) ∧
      (∃ s : State, Decoding s ∧ s.host = [] ∧ s.dec.ip + 1 = s.inLen ∧ inByte s s.dec.ip = b ∧
        0xE0 ≤ b.toNat ∧ b.toNat ≤ 0xFE) := by
  intro b hb
  refine ⟨⟨decState Config.standard [b, 0xFF#8] [] 0, 0xFF#8, ⟨rfl, rfl⟩, rfl, Nat.one_lt_two, rfl, rfl, ?_⟩,
    decState Config.standard [b] [] 0, ⟨rfl, rfl⟩, rfl, rfl, rfl, ?_⟩ <;>
  · revert b
    decide

theorem test_witness_MissingPayloadIsTruncated :
    ∃ (i : Instr) (s : State), ProducesOutput i ∧ s.inLen < s.dec.ip + i.size :=
  ⟨.wfill 0#5 0xAA#8 0#8, decState Config.standard [0x40#8, 0xAA#8] [] 0, ⟨_, rfl, by decide, by decide⟩, by decide⟩

-- `pos = OLEN`, `dist = 0`, `dist = OLEN + 1`.
theorem test_witness_BadSourceIsInvalidOffset :
    (∃ s : State, s.dec.ip + (Instr.rabs 0#5 3#16).size ≤ s.inLen ∧ OfKind .repAbs (.rabs 0#5 3#16) ∧
      ∀ src, ¬SourceOf (.rabs 0#5 3#16) s.dec.olen src) ∧
    (∃ s : State, s.dec.ip + (Instr.rrel 0#5 0#8).size ≤ s.inLen ∧ OfKind .repRel (.rrel 0#5 0#8) ∧
      ∀ src, ¬SourceOf (.rrel 0#5 0#8) s.dec.olen src) ∧
    (∃ s : State, s.dec.ip + (Instr.rrelX 0#5 0#5 4#8).size ≤ s.inLen ∧ OfKind .repRel (.rrelX 0#5 0#5 4#8) ∧
      ∀ src, ¬SourceOf (.rrelX 0#5 0#5 4#8) s.dec.olen src) := by
  refine ⟨⟨decState Config.standard [0x80#8, 0x03#8, 0x00#8] abc 0, by decide, ⟨_, rfl, rfl⟩, ?_⟩,
    ⟨decState Config.standard [0xC0#8, 0x00#8] abc 0, by decide, ⟨_, rfl, rfl⟩, ?_⟩,
    ⟨decState Config.standard [0xE0#8, 0x06#8, 0x04#8] abc 0, by decide, ⟨_, rfl, rfl⟩, ?_⟩⟩ <;>
  · intro src h
    simp [SourceOf, decState, abc] at h

theorem test_witness_FullOutputIsOutputOverflow :
    (∃ (hd : Header) (s : State), ProducesOutput (.bfill 31#5 0x42#8) ∧ (Instr.bfill 31#5 0x42#8).header = some hd ∧
      s.dec.ip + (Instr.bfill 31#5 0x42#8).size ≤ s.inLen ∧
      (OfKind .repAbs (.bfill 31#5 0x42#8) ∨ OfKind .repRel (.bfill 31#5 0x42#8) →
        ∃ src, SourceOf (.bfill 31#5 0x42#8) s.dec.olen src) ∧
      capFits s.params.outCap (s.dec.olen + hd.len) = false) ∧
    (∃ (hd : Header) (s : State), ProducesOutput (.rrel 0#5 1#8) ∧ (Instr.rrel 0#5 1#8).header = some hd ∧
      s.dec.ip + (Instr.rrel 0#5 1#8).size ≤ s.inLen ∧
      (OfKind .repAbs (.rrel 0#5 1#8) ∨ OfKind .repRel (.rrel 0#5 1#8) → ∃ src, SourceOf (.rrel 0#5 1#8) s.dec.olen src) ∧
      capFits s.params.outCap (s.dec.olen + hd.len) = false) ∧
    (∃ (i : Instr) (rest : List Byte) (hd : Header) (s : State), Decoding s ∧ s.host = [] ∧
      decode (inBytes s s.dec.ip (s.inLen - s.dec.ip)) = .ok i rest ∧ ProducesOutput i ∧ i.header = some hd ∧
      (OfKind .repAbs i ∨ OfKind .repRel i → ∃ src, SourceOf i s.dec.olen src) ∧
      capFits s.params.outCap (s.dec.olen + hd.len) = false) :=
  ⟨⟨_, decState (caps 2 31) [0x3F#8, 0x42#8] [] 0, ⟨_, rfl, by decide, by decide⟩, rfl, by decide,
      by simp [OfKind, Instr.header, shortHeader], by decide⟩,
   ⟨_, decState (caps 2 3) [0xC0#8, 0x01#8] abc 0, ⟨_, rfl, by decide, by decide⟩, rfl, by decide,
      fun _ => ⟨2, by unfold SourceOf; decide⟩, by decide⟩,
   ⟨.bfill 31#5 (Config.freeIn 0 1), [], _, unwritten (caps 2 31), ⟨rfl, rfl⟩, rfl, rfl, ⟨_, rfl, by decide, by decide⟩, rfl,
      by simp [OfKind, Instr.header, shortHeader], by decide⟩⟩

theorem test_witness_FaultsArePrecise :
    ∃ (i : Instr) (s t : State), s.run = .busy ∧ exec i s = .next t ∧ t.run = .error :=
  ⟨.rrel 0#5 0#8, decState Config.standard [0xC0#8, 0x00#8] abc 0, _, rfl, rfl, rfl⟩

-- A payload byte the host never wrote, in a DEC run; an input byte it never wrote, in an ENC run; `IP` beyond `IN_LEN`.
theorem test_witness_EveryInstructionHasAnEffect :
    (∃ s : State, s.host = [] ∧ Decoding s ∧ s.dec.ip + 1 < s.inLen ∧ s.inMem.byteAt (s.dec.ip + 1) = none) ∧
    (∃ s : State, s.host = [] ∧ Encoding s ∧ s.enc.p < s.enc.n ∧ s.inMem.byteAt s.enc.p = none) ∧
    (∃ s : State, s.host = [] ∧ Decoding s ∧ s.inLen < s.dec.ip) :=
  ⟨⟨unwritten (caps 2 32), rfl, ⟨rfl, rfl⟩, by decide, by decide⟩,
   ⟨{ encState Config.standard [0x41#8] [] 0 0 0#11 with inMem := [] }, rfl, ⟨rfl, rfl⟩, by decide, by decide⟩,
   ⟨decState Config.standard [0xFF#8] [] 2, rfl, ⟨rfl, rfl⟩, by decide⟩⟩

theorem test_witness_HeaderLatchesHoldTheHeader :
    (∃ (hd : Header) (s t : State), (Instr.bfill 3#5 0x41#8).header = some hd ∧ exec (.bfill 3#5 0x41#8) s = .next t) ∧
    (∃ (hd : Header) (s t : State), (Instr.bfillX 30#5 31#5 0x41#8).header = some hd ∧
      exec (.bfillX 30#5 31#5 0x41#8) s = .next t) :=
  ⟨⟨_, decState Config.standard [0x23#8, 0x41#8] [] 0, _, rfl, rfl⟩,
   ⟨_, decState Config.standard [0xFE#8, 0xF9#8] [] 0, _, rfl, rfl⟩⟩

theorem test_witness_StepRunsTheDecodedInstruction :
    (∃ s : State, Decoding s ∧ (Instr.rrel 5#5 3#8).wellFormed = true ∧ StandsAt s s.dec.ip (encode (.rrel 5#5 3#8)) ∧
      s.dec.ip + (encode (.rrel 5#5 3#8)).length ≤ s.inLen ∧ s.host = []) ∧
    (∃ s : State, ∃ later, Decoding s ∧ (Instr.rrel 5#5 3#8).wellFormed = true ∧
      StandsAt s s.dec.ip (encode (.rrel 5#5 3#8)) ∧ s.dec.ip + (encode (.rrel 5#5 3#8)).length ≤ s.inLen ∧
      s.host = .quiet :: later) :=
  ⟨⟨decState Config.standard [0x02#8, 0x41#8, 0x42#8, 0x43#8, 0xC5#8, 0x03#8] abc 4, ⟨rfl, rfl⟩, by decide,
      by unfold StandsAt; decide, by decide, rfl⟩,
   ⟨{ decState Config.standard [0x02#8, 0x41#8, 0x42#8, 0x43#8, 0xC5#8, 0x03#8] abc 4 with host := [.quiet] }, [],
      ⟨rfl, rfl⟩, by decide, by unfold StandsAt; decide, by decide, rfl⟩⟩

theorem test_witness_ExhaustionEndsTheRun :
    (∃ s : State, Decoding s ∧ s.host = [] ∧ s.dec.ip = s.inLen ∧ s.inLen = 0) ∧
    (∃ s : State, Decoding s ∧ s.host = [] ∧ s.dec.ip = s.inLen ∧ s.inLen = 4) :=
  ⟨⟨decState Config.standard [] [] 0, ⟨rfl, rfl⟩, rfl, rfl, rfl⟩,
   ⟨decState Config.standard [0x02#8, 0x41#8, 0x42#8, 0x43#8] abc 4, ⟨rfl, rfl⟩, rfl, rfl, rfl⟩⟩

theorem test_witness_StreamCutShortIsTruncated :
    ∃ (s : State) (r : Reject), Decoding s ∧ s.host = [] ∧ s.dec.ip < s.inLen ∧
      decode (inBytes s s.dec.ip (s.inLen - s.dec.ip)) = .rejected r :=
  ⟨decState Config.standard [0x02#8, 0x41#8, 0x42#8, 0x43#8, 0x21#8] abc 4, _, ⟨rfl, rfl⟩, rfl, by decide, rfl⟩

-- Kind 5 at both ends of its range, the neighbours on either side, and the largest header byte that is no terminator.
theorem test_witness_LoneHeaderByteFails :
    ∀ b ∈ [0x00#8, 0x9F#8, 0xA0#8, 0xBF#8, 0xC0#8, 0xFE#8], ∃ s : State, Decoding s ∧ s.host = [] ∧
      s.inLen = s.dec.ip + 1 ∧ inByte s s.dec.ip = b ∧ b ≠ 0xFF#8 := by
  intro b hb
  exact ⟨decState Config.standard [b] [] 0, ⟨rfl, rfl⟩, rfl, rfl, rfl, by revert b; decide⟩

theorem test_witness_InstructionPointerOnlyIncreases :
    ∃ s t : State, Decoding s ∧ s.host = [] ∧ step s = .next t ∧ t.run = .busy :=
  ⟨decState Config.standard [0x20#8, 0x41#8] [] 0, _, ⟨rfl, rfl⟩, rfl, rfl, rfl⟩

theorem test_witness_DecoderRunEnds : ∃ s : State, Inv s ∧ Decoding s ∧ s.host = [] :=
  ⟨decState Config.standard [0x02#8, 0x41#8, 0x42#8, 0x43#8, 0xFF#8] [] 0, decState_inv (by decide) rfl rfl, ⟨rfl, rfl⟩, rfl⟩

theorem test_witness_EveryStepKeepsTheInvariant :
    (∃ s t : State, Inv s ∧ step s = .next t ∧ t.run = .busy) ∧ (∃ s t : State, Inv s ∧ step s = .next t ∧ t.run = .error) ∧
    (∃ s t : State, Inv s ∧ step s = .next t ∧ t.run = .done) :=
  ⟨⟨decState (caps 2 1) [0x20#8, 0x41#8] [] 0, _, decState_inv (by decide) (by decide) (by decide), rfl, rfl⟩,
   ⟨encState (caps 1 2) [0x41#8] [] 1 0 1#11, _, encState_inv (by decide) (by decide) (by decide) (by decide) (by decide), rfl,
      rfl⟩,
   ⟨encState (caps 1 3) [0x41#8] [] 1 0 1#11, _, encState_inv (by decide) (by decide) (by decide) (by decide) (by decide), rfl,
      rfl⟩⟩

theorem test_witness_ParametersNeverChange :
    ∃ s t : State, step s = .next t ∧ s.params = caps 2 1 ∧ t.dec.ip ≠ s.dec.ip :=
  ⟨decState (caps 2 1) [0x20#8, 0x41#8] [] 0, _, rfl, rfl, by decide⟩

theorem test_witness_EnginesKeepToTheirOwn :
    (∃ s t : State, s.run = .busy ∧ s.host = [] ∧ step s = .next t ∧ s.op = .decompress) ∧
    (∃ s t : State, s.run = .busy ∧ s.host = [] ∧ step s = .next t ∧ s.op = .compress) :=
  ⟨⟨decState Config.standard [0x20#8, 0x41#8] [] 0, _, rfl, rfl, rfl, rfl⟩,
   ⟨encState Config.standard [0x41#8] [] 1 0 1#11, _, rfl, rfl, rfl, rfl⟩⟩

theorem test_witness_OutputOnlyGrows :
    (∃ s t : State, s.run = .busy ∧ s.host = [] ∧ step s = .next t ∧ s.op = .decompress ∧ 2 < s.dec.olen) ∧
    (∃ s t : State, s.run = .busy ∧ s.host = [] ∧ step s = .next t ∧ s.op = .compress ∧ 2 < s.enc.olen) :=
  ⟨⟨decState Config.standard [0xC5#8, 0x03#8] abc 0, _, rfl, rfl, rfl, rfl, by decide⟩,
   ⟨encState Config.standard [0x41#8] abc 1 0 1#11, _, rfl, rfl, rfl, rfl, by decide⟩⟩

-- `IN_CAP = OUT_CAP = 2^AW - 1`, the largest the width admits: for a width named beside the block, and for the block's own.
theorem test_witness_CursorsFitEveryAddressWidth :
    (∃ s t : State, Inv s ∧ s.params.inCap = some 7 ∧ s.params.outCap = some 7 ∧ 7 < 2 ^ 3 ∧ step s = .next t ∧
      Decoding t) ∧
    (∃ s t : State, Inv s ∧ s.params.inCap = some 7 ∧ s.params.outCap = some 7 ∧ 7 < 2 ^ 3 ∧ step s = .next t ∧
      Encoding t) ∧
    (∃ s t : State, Inv s ∧ s.params.inCap = some 1023 ∧ s.params.outCap = some 1023 ∧ s.params.aw = some 10 ∧
      max 1023 1023 < 2 ^ 10 ∧ step s = .next t) :=
  ⟨⟨decState (caps 7 7) [0x26#8, 0x41#8] [] 0, _, decState_inv (by decide) (by decide) (by decide), rfl, rfl, by decide, rfl,
      ⟨rfl, rfl⟩⟩,
   ⟨encState (caps 7 7) [0x41#8, 0x41#8, 0x41#8] [] 0 0 0#11, _,
      encState_inv (by decide) (by decide) (by decide) (by decide) (by decide), rfl, rfl, by decide, rfl, ⟨rfl, rfl⟩⟩,
   ⟨decState (caps 1023 1023) [0x80#8, 0xFF#8, 0xFF#8] [] 0, _, decState_inv (by decide) (by decide) (by decide), rfl, rfl, rfl,
      by decide, rfl⟩⟩

theorem test_witness_RunDependsOnItsInputOnly :
    ∃ s u : State, s.params = u.params ∧ s.inLen = u.inLen ∧ (∀ a, a < s.inLen → inByte s a = inByte u a) ∧
      s.host = [] ∧ u.host = [] ∧ s.outMem ≠ u.outMem ∧ s.inMem ≠ u.inMem :=
  ⟨{ State.reset with inMem := [(0, 0x20#8), (1, 0x41#8)], inLen := 2 },
   { doneState [0x55#8] with inMem := [(0, 0x20#8), (1, 0x41#8), (2, 0x99#8)], inLen := 2 }, rfl, rfl, by decide, rfl, rfl,
   by decide, by decide⟩

theorem test_witness_IdleBlockHolds :
    (State.reset.run ≠ .busy ∧ State.reset.host = []) ∧ ((doneState abc).run ≠ .busy ∧ (doneState abc).host = []) := by decide

-- `IN_LEN = IN_CAP`, the largest accepted.
theorem test_witness_StartBeginsADecoderRun :
    ∃ (s : State) (later : List HostTurn), s.run ≠ .busy ∧ capFits s.params.inCap s.inLen = true ∧
      s.host = .act (.writeCtrl 0b01#2) :: later :=
  ⟨withHost (.writeCtrl 0b01#2) { State.resetWith (caps 2 2) with inLen := 2 }, [], by decide, by decide, rfl⟩

theorem test_witness_StartBeginsAnEncoderRun :
    ∃ (s : State) (later : List HostTurn), s.run ≠ .busy ∧ capFits s.params.inCap s.inLen = true ∧
      s.host = .act (.writeCtrl 0b11#2) :: later :=
  ⟨withHost (.writeCtrl 0b11#2) { State.resetWith (caps 2 2) with inLen := 2 }, [], by decide, by decide, rfl⟩

theorem test_witness_PowerOnResetAbandonsTheRun :
    ∃ (s : State) (later : List HostTurn), s.host = .act .powerOnReset :: later ∧ s.run = .busy :=
  ⟨withHost .powerOnReset (decState Config.standard [0x20#8] [] 0), [], rfl, rfl⟩

-- Every access but the two allowed, and `IN_LEN = IN_CAP + 1`.
theorem test_witness_MeaninglessHostAccessIsRefused :
    (∀ o ∈ [HostOp.writeCtrl 0b01#2, .writeCtrl 0b00#2, .writeInLen 0, .writeIn 0 0#8, .readOut 0, .readReg .outLen,
        .readReg .inPos, .readReg .errPos, .readReg .err, .readReg .ctrl, .readReg .inLen],
      ∃ (s : State) (later : List HostTurn), s.run = .busy ∧ s.host = .act o :: later ∧ o ≠ .readReg .status ∧
        o ≠ .powerOnReset) ∧
    (∃ (s : State) (later : List HostTurn), s.run ≠ .busy ∧ s.host = .act (.writeCtrl 0b01#2) :: later ∧
      (0b01#2).getLsbD 0 = true ∧ capFits s.params.inCap s.inLen = false) :=
  ⟨fun o ho => ⟨withHost o (decState Config.standard [0x20#8] [] 0), [], rfl, rfl, by revert o; decide, by revert o; decide⟩,
    withHost (.writeCtrl 0b01#2) { State.resetWith (caps 2 2) with inLen := 3 }, [], by decide, rfl, by decide, by decide⟩

-- The last position below `IN_CAP`; `IN_CAP` itself, `IN_CAP + 1` and the largest ten-bit value, and the smallest value beyond.
theorem test_witness_HostLoadsTheInput :
    (∃ (s : State) (later : List HostTurn), s.run ≠ .busy ∧ s.host = .act (.writeIn 1 0x41#8) :: later ∧
      capHas s.params.inCap 1 = true) ∧
    (∀ n ∈ [2, 3, 1023], ∃ (s : State) (later : List HostTurn), s.run ≠ .busy ∧ s.host = .act (.writeInLen n) :: later ∧
      s.params.inCap = some 2 ∧ ∀ w, s.params.aw = some w → n < 2 ^ w) ∧
    (∃ (s : State) (w : Nat) (later : List HostTurn), s.run ≠ .busy ∧ s.host = .act (.writeInLen 1024) :: later ∧
      s.params.aw = some w ∧ 2 ^ w ≤ 1024) :=
  ⟨⟨withHost (.writeIn 1 0x41#8) (State.resetWith (caps 2 2)), [], by decide, rfl, by decide⟩,
   fun n hn => ⟨withHost (.writeInLen n) (State.resetWith (caps 2 2)), [], nofun, rfl, rfl, fun w h => by
      cases h
      revert n
      decide⟩,
   ⟨withHost (.writeInLen 1024) (State.resetWith (caps 2 2)), 10, [], by decide, rfl, rfl, by decide⟩⟩

-- The last byte of the result; `STATUS` during a run and after one; the other registers after one; the first byte beyond it.
theorem test_witness_HostCollectsTheResult :
    (∃ (s : State) (b : Byte) (later : List HostTurn), s.run = .done ∧ s.host = .act (.readOut 2) :: later ∧
      capHas s.params.outCap 2 = true ∧ 2 < s.outLen ∧ s.outMem.byteAt 2 = some b) ∧
    (∃ (s : State) (later : List HostTurn), s.run = .busy ∧ s.host = .act (.readReg .status) :: later) ∧
    (∀ r ∈ [HostReg.err, .outLen, .inLen, .ctrl], ∃ (s : State) (later : List HostTurn), s.run ≠ .busy ∧
      s.host = .act (.readReg r) :: later) ∧
    (∃ (s : State) (later : List HostTurn), s.run = .done ∧ s.host = .act (.readReg .inPos) :: later) ∧
    (∃ (s : State) (later : List HostTurn), s.run = .error ∧ s.host = .act (.readReg .errPos) :: later) ∧
    (∀ a ∈ [2, 3], ∃ s : State, s.run ≠ .busy ∧ capHas s.params.outCap a = true ∧ s.outLen = 3) :=
  ⟨⟨withHost (.readOut 2) (doneState abc), 0x43#8, [], rfl, rfl, rfl, by decide, rfl⟩,
   ⟨withHost (.readReg .status) (decState Config.standard [] [] 0), [], rfl, rfl⟩,
   fun r _ => ⟨withHost (.readReg r) (doneState abc), [], nofun, rfl⟩,
   ⟨withHost (.readReg .inPos) (doneState abc), [], rfl, rfl⟩,
   ⟨withHost (.readReg .errPos) { doneState [] with run := .error, err := .truncated }, [], rfl, rfl⟩,
   fun _ _ => ⟨doneState abc, by decide, rfl, rfl⟩⟩

-- Two bytes left and one byte left.
theorem test_witness_FillScansFindTheLargestRun :
    (2 ≤ 5 - 3 ∧ scanWordFill [1#8, 2#8, 3#8, 0xAA#8, 0xBB#8] 5 3 2 = 2) ∧
    (5 - 4 < 2 ∧ scanByteFill [1#8, 2#8, 3#8, 0xAA#8, 0xBB#8] 4 1 = 1) := by decide

-- Distance 1 and a distance equal to `P`; no match at all.
theorem test_witness_RelativeSearchIsLongestNearest :
    (0 < (searchRelative [0x41#8, 0x41#8, 0x41#8] 2 1).1 ∧ 1 ≤ min 1 255) ∧
    (0 < (searchRelative p4 5 3).1 ∧ 3 ≤ min 3 255) ∧ (searchRelative p4 6 2).1 = 0 := by decide

theorem test_witness_AbsoluteSearchIsLongestFirst :
    (0 < (searchAbsolute p4 5 3).1 ∧ 0 < min 3 65536) ∧ (searchAbsolute p4 6 2).1 = 0 := by decide

theorem test_witness_SelectionIsTheBestQualifying :
    (∃ c, select (candidates p4 3 (runScans Config.standard p4 8 3)) = some c) ∧
    select (candidates p4 2 (runScans Config.standard p4 8 2)) = none :=
  ⟨⟨_, rfl⟩, rfl⟩

-- Longer than 32 with `ENC_EXT = 1`, cut at 32 with `ENC_EXT = 0`.
theorem test_witness_SelectionKeepsTheLengthCap :
    (∃ d, select (candidates (List.replicate 33 0x41#8) 0 (runScans Config.standard (List.replicate 33 0x41#8) 33 0)) = some d ∧
      d.len = 33) ∧
    (∃ d, select (candidates (List.replicate 33 0x41#8) 0 (runScans shortOnly (List.replicate 33 0x41#8) 33 0)) = some d ∧
      d.len = 32) :=
  ⟨⟨_, rfl, rfl⟩, ⟨_, rfl, rfl⟩⟩

-- One place left, and none.
theorem test_witness_EmitAppendsOrOverflows :
    (∃ s : State, capFits s.params.outCap (s.enc.olen + 1) = true ∧ s.params.outCap = some 4) ∧
    (∃ s : State, capFits s.params.outCap (s.enc.olen + 1) = false ∧ s.params.outCap = some 3) :=
  ⟨⟨encState (caps 1 4) [0x41#8] abc 1 0 1#11, by decide, rfl⟩, ⟨encState (caps 1 3) [0x41#8] abc 1 0 1#11, by decide, rfl⟩⟩

-- A run that grows, and one that reaches `ENC_MAXLEN = 32`, with room for its 33 bytes and with room for 32.
theorem test_witness_LiteralPassExtendsTheRun :
    (∃ s : State, Inv s ∧ Encoding s ∧ s.host = [] ∧ s.enc.p < s.enc.n ∧
      select (candidates (inputBytes s) s.enc.p (runScans s.params (inputBytes s) s.enc.n s.enc.p)) = none ∧
      s.enc.litLen.toNat + 1 < Config.encMaxLen s.params) ∧
    (∃ s : State, Inv s ∧ Encoding s ∧ s.host = [] ∧ s.enc.p < s.enc.n ∧
      select (candidates (inputBytes s) s.enc.p (runScans s.params (inputBytes s) s.enc.n s.enc.p)) = none ∧
      s.enc.litLen.toNat + 1 = Config.encMaxLen s.params ∧
      capFits s.params.outCap (s.enc.olen + ((headerBytes .direct (s.enc.litLen.toNat + 1)).length +
        (s.enc.litLen.toNat + 1))) = true) ∧
    (∃ s : State, Inv s ∧ Encoding s ∧ s.host = [] ∧ s.enc.p < s.enc.n ∧
      select (candidates (inputBytes s) s.enc.p (runScans s.params (inputBytes s) s.enc.n s.enc.p)) = none ∧
      s.enc.litLen.toNat + 1 = Config.encMaxLen s.params ∧
      capFits s.params.outCap (s.enc.olen + ((headerBytes .direct (s.enc.litLen.toNat + 1)).length +
        (s.enc.litLen.toNat + 1))) = false) :=
  ⟨⟨encState Config.standard p4 [] 2 0 2#11, encState_inv (by decide) rfl rfl (by decide) (by decide), ⟨rfl, rfl⟩, rfl,
      by decide, by decide, by decide⟩,
   ⟨encState (shortCaps 33) steps [] 31 0 31#11,
      encState_inv (by decide) (by decide) (by decide) (by decide) (by decide), ⟨rfl, rfl⟩, rfl,
      by decide, by decide +kernel, by decide, by decide⟩,
   ⟨encState (shortCaps 32) steps [] 31 0 31#11,
      encState_inv (by decide) (by decide) (by decide) (by decide) (by decide), ⟨rfl, rfl⟩, rfl,
      by decide, by decide +kernel, by decide, by decide⟩⟩

-- OUT exactly large enough, and one byte too small.
theorem test_witness_SelectedPassWritesTheInstruction :
    (∃ (s : State) (c : Cand), Inv s ∧ Encoding s ∧ s.host = [] ∧ s.enc.p < s.enc.n ∧
      select (candidates (inputBytes s) s.enc.p (runScans s.params (inputBytes s) s.enc.n s.enc.p)) = some c ∧
      capFits s.params.outCap
        (s.enc.olen + (pendingInstr s ++ headerBytes c.kind c.len ++ c.payload).length) = true) ∧
    (∃ (s : State) (c : Cand), Inv s ∧ Encoding s ∧ s.host = [] ∧ s.enc.p < s.enc.n ∧
      select (candidates (inputBytes s) s.enc.p (runScans s.params (inputBytes s) s.enc.n s.enc.p)) = some c ∧
      capFits s.params.outCap
        (s.enc.olen + (pendingInstr s ++ headerBytes c.kind c.len ++ c.payload).length) = false) :=
  ⟨⟨encState (caps 8 6) p4 [] 3 0 3#11, { kind := .repRel, len := 5, payload := [0x03#8] },
      encState_inv (by decide) (by decide) (by decide) (by decide) (by decide), ⟨rfl, rfl⟩, rfl, by decide, by decide, by decide⟩,
   ⟨encState (caps 8 5) p4 [] 3 0 3#11, { kind := .repRel, len := 5, payload := [0x03#8] },
      encState_inv (by decide) (by decide) (by decide) (by decide) (by decide), ⟨rfl, rfl⟩, rfl, by decide, by decide, by decide⟩⟩

theorem test_witness_EncoderEndsWithTheTerminator :
    (∃ s : State, Inv s ∧ Encoding s ∧ s.host = [] ∧ s.enc.p = s.enc.n ∧
      capFits s.params.outCap (s.enc.olen + (pendingInstr s).length + 1) = true) ∧
    (∃ s : State, Inv s ∧ Encoding s ∧ s.host = [] ∧ s.enc.p = s.enc.n ∧
      capFits s.params.outCap (s.enc.olen + (pendingInstr s).length + 1) = false) :=
  ⟨⟨encState (caps 1 3) [0x41#8] [] 1 0 1#11, encState_inv (by decide) (by decide) (by decide) (by decide) (by decide),
      ⟨rfl, rfl⟩, rfl, rfl, by decide⟩,
   ⟨encState (caps 1 2) [0x41#8] [] 1 0 1#11, encState_inv (by decide) (by decide) (by decide) (by decide) (by decide),
      ⟨rfl, rfl⟩, rfl, rfl, by decide⟩⟩

theorem test_witness_EncoderRunEnds : ∃ s : State, Inv s ∧ Encoding s ∧ s.host = [] :=
  ⟨encState (caps 8 2) p4 [] 0 0 0#11, encState_inv (by decide) (by decide) (by decide) (by decide) (by decide),
    ⟨rfl, rfl⟩, rfl⟩

theorem test_witness_EncoderKeepsThePrefix :
    ∃ s t : State, Inv s ∧ Encoding s ∧ s.host = [] ∧ PrefixKept s ∧ step s = .next t ∧ t.run = .busy :=
  ⟨encState Config.standard [0x41#8] [] 0 0 0#11, _, encState_inv (by decide) rfl rfl (by decide) (by decide), ⟨rfl, rfl⟩, rfl,
    ⟨⟨1, _, rfl, rfl, rfl, rfl, rfl, rfl⟩, ⟨1, _, rfl, rfl, rfl, rfl, rfl, rfl⟩⟩, rfl, rfl⟩

-- `OUT_CAP = 2 * IN_LEN + 1` exactly, with the bound reached.
theorem test_witness_EncoderNeverOverflows :
    ∃ s t : State, Inv s ∧ Encoding s ∧ s.host = [] ∧ SizeKept s ∧ capFits s.params.outCap (2 * s.inLen + 1) = true ∧
      step s = .next t ∧ t.run = .done ∧ t.outLen = 3 :=
  ⟨encState (caps 1 3) [0x41#8] [] 1 0 1#11, _, encState_inv (by decide) (by decide) (by decide) (by decide) (by decide),
    ⟨rfl, rfl⟩, rfl, by unfold SizeKept; decide, by decide, rfl, rfl, rfl⟩

-- The smallest capacities the premises admit.
theorem test_witness_RoundTrip :
    ∃ (x : List Byte) (c c' : Params), x = [0x41#8] ∧ capFits c.outCap (2 * x.length + 1) = true ∧
      capFits c'.outCap x.length = true ∧ c.outCap = some 3 ∧ c'.outCap = some 1 :=
  ⟨[0x41#8], caps 1 3, caps 3 1, rfl, by decide, by decide, rfl, rfl⟩

end Sys2Proof.Tests
end

section
/-! The decoder answers well-formed instructions only. -/

namespace Sys2Proof

/-! ## What the payload readers answer -/

theorem payloadRun_ok {hd : Header} {f : List Byte → Instr} {bs rest : List Byte} {i : Instr}
    (h : payloadRun hd f bs = .ok i rest) : ∃ d, d.length = hd.len ∧ bs = d ++ rest ∧ i = f d := by
  unfold payloadRun at h
  split at h
  · rename_i d r ht
    cases h
    obtain ⟨hbs, hlen⟩ := takeBytes_eq_some.mp ht
    exact ⟨d, hlen, hbs, rfl⟩
  · cases h

theorem payloadOne_ok {hd : Header} {f : Byte → Instr} {bs rest : List Byte} {i : Instr}
    (h : payloadOne hd f bs = .ok i rest) : ∃ b, bs = b :: rest ∧ i = f b := by
  cases bs with
  | nil => cases h
  | cons b bs =>
    cases h
    exact ⟨b, rfl, rfl⟩

theorem payloadTwo_ok {hd : Header} {f : Byte → Byte → Instr} {bs rest : List Byte} {i : Instr}
    (h : payloadTwo hd f bs = .ok i rest) : ∃ b0 b1, bs = b0 :: b1 :: rest ∧ i = f b0 b1 := by
  match bs, h with
  | b0 :: b1 :: _, h =>
    cases h
    exact ⟨b0, b1, rfl, rfl⟩

/-! ## Well-formedness (30_encoding.md R69, R72) -/

theorem decodeExt_wellFormed {h l : BitVec 5} {k : Kind} {bs rest : List Byte} {i : Instr} (hh : extHighOk h = true)
    (hd : decodeExt h l k bs = .ok i rest) : i.wellFormed = true := by
  cases k with
  | direct =>
    obtain ⟨d, hlen, -, rfl⟩ := payloadRun_ok hd
    simp [Instr.wellFormed, hh, hlen, extHeader]
  | byteFill | incFill | repRel =>
    obtain ⟨b, -, rfl⟩ := payloadOne_ok hd
    exact hh
  | wordFill | repAbs =>
    obtain ⟨b0, b1, -, rfl⟩ := payloadTwo_ok hd
    exact hh
  | repAlt | seven =>
    cases hd
    exact hh

/-- Of the header bytes with selector 7 only the terminator has all ones below it. -/
theorem extHighOk_lowField {b : Byte} (hk : Kind.ofBits (selector b) = .seven) (hb : b ≠ Config.term) :
    extHighOk (lowField b) = true := by
  have hs := shortByte_selector b
  rw [hk] at hs
  simp only [extHighOk, bne_iff_ne]
  intro hl
  rw [hl] at hs
  exact hb hs.symm

theorem decodeHeader_wellFormed {b : Byte} {bs rest : List Byte} {i : Instr} (hb : b ≠ Config.term)
    (h : decodeHeader b bs = .ok i rest) : i.wellFormed = true := by
  unfold decodeHeader at h
  cases hk : Kind.ofBits (selector b) <;> simp only [hk] at h
  case direct =>
    obtain ⟨d, hlen, -, rfl⟩ := payloadRun_ok h
    simp [Instr.wellFormed, hlen, shortHeader]
  case byteFill | incFill | repRel =>
    obtain ⟨x, -, rfl⟩ := payloadOne_ok h
    rfl
  case wordFill | repAbs =>
    obtain ⟨x0, x1, -, rfl⟩ := payloadTwo_ok h
    rfl
  case repAlt =>
    cases h
    rfl
  case seven =>
    cases bs with
    | nil => cases h
    | cons e bs => exact decodeExt_wellFormed (extHighOk_lowField hk hb) h

/-- Whatever decodes is a well-formed instruction. -/
theorem decode_wellFormed {bs rest : List Byte} {i : Instr} (h : decode bs = .ok i rest) : i.wellFormed = true := by
  cases bs with
  | nil => cases h
  | cons b bs =>
    simp only [decode] at h
    split at h
    · cases h
      rfl
    · rename_i hb
      exact decodeHeader_wellFormed hb h

end Sys2Proof
end

section
/-! What a step can be, said once for each of its agents: an induction principle over the host's turn, and an inversion lemma
for a step of either engine. -/

namespace Sys2Proof.Machine

open Sys2Proof.Safety

/-! ## The step -/

/-- What a held turn, both engines and the host keep, every step keeps. -/
theorem step_keeps {P : State → Prop} (turn : ∀ u later, P u → P { u with host := later })
    (dec : ∀ u v, Decoding u → P u → stepDecoder u = .next v → P v)
    (enc : ∀ u v, Encoding u → P u → stepEncoder u = .next v → P v)
    (act : ∀ o u v, P u → hostAct o u = .next v → P v) {s t : State} (hs : P s) (h : step s = .next t) : P t := by
  have engine : ∀ u, P u → stepEngine u = .next t → P t := by
    intro u hu hn
    by_cases hr : u.run = .busy
    · cases ho : u.op with
      | decompress => exact dec u t ⟨hr, ho⟩ hu (stepEngine_decoding hr ho ▸ hn)
      | compress => exact enc u t ⟨hr, ho⟩ hu (stepEngine_encoding hr ho ▸ hn)
    · rw [stepEngine_holds hr] at hn
      cases hn
      exact hu
  cases hh : s.host with
  | nil => exact engine s hs (step_quiet_nil hh ▸ h)
  | cons x later =>
    cases x with
    | quiet => exact engine _ (turn s later hs) (step_quiet_cons hh ▸ h)
    | act o => exact act o _ t (turn s later hs) (step_act hh ▸ h)

/-! ## A step of DEC -/

/-- Everything a step of DEC can leave (40_decoder_loop.md R90): a fault at `IP`, an appended instruction that lies below
`IN_LEN` and fits OUT, or `stop OK` at a position not beyond `IN_LEN`. -/
theorem stepDecoder_next {s t : State} (h : stepDecoder s = .next t) :
    (∃ f g, f ≠ .none ∧ t = raise .decompress f s.dec.ip (latchOperands g s)) ∨
    (∃ hd m g, t = finishCopy hd m (latchOperands g s) ∧ Wrote s hd.len m ∧ 2 ≤ hd.size ∧ 1 ≤ hd.len ∧
      hd.len ≤ Config.extMaxLen ∧ s.dec.ip + hd.size ≤ s.inLen ∧ overflows s.params s.dec.olen hd.len = false) ∨
    (∃ b ip' g, ip' ≤ s.inLen ∧
      t = stopDec b { latchOperands g s with dec := { (latchOperands g s).dec with ip := ip' } }) := by
  unfold stepDecoder at h
  rcases fetch_cases s with ⟨hip, he⟩ | ⟨hip, i, rest, hd, he⟩ | ⟨_, r, g, _, he⟩ <;> rw [he] at h
  · cases h
    exact .inr (.inr ⟨false, s.dec.ip, id, by omega, rfl⟩)
  · rcases exec_completes (decode_wellFormed hd) h with
      hf | ⟨hd, m, g, ht, hw, hsize, hpos, hmax, _, hin, hroom⟩ | ⟨_, g, ht⟩
    · exact .inl hf
    · exact .inr (.inl ⟨hd, m, g, ht, hw, hsize, hpos, hmax, hin, hroom⟩)
    · exact .inr (.inr ⟨true, s.dec.ip + 1, g, hip, ht⟩)
  · cases h
    exact .inl ⟨.truncated, g, by decide, rfl⟩

theorem fetchShort_src (r : Reject) (s : State) : (fetchShort r s).dec.latch.src = s.dec.latch.src := by
  cases r <;> rfl

/-- What a step of DEC leaves in `SRC` (10_state.md R14). -/
theorem stepDecoder_src {s t : State} (h : stepDecoder s = .next t) : SrcAfter s t := by
  unfold stepDecoder fetch at h
  split at h
  · exact exec_src h
  · rename_i u he
    cases h
    split at he
    · cases he
      exact .inl rfl
    · split at he <;> cases he
      exact .inl (fetchShort_src _ s)

/-! ## The length of a selection (43_encoder.md R153, R163) -/

theorem searchFrom_fst_le {f : Nat → Nat} {cap : Nat} (hf : ∀ k, f k ≤ cap) (fuel k : Nat) {best : Nat × Nat}
    (hb : best.1 ≤ cap) : (searchFrom f fuel k best).1 ≤ cap := by
  induction fuel generalizing k best with
  | zero => exact hb
  | succ fuel ih =>
    refine ih (k + 1) ?_
    split
    · exact hf k
    · exact hb

theorem scanWordFill_le (x : List Byte) (n p cap : Nat) : scanWordFill x n p cap ≤ cap := by
  unfold scanWordFill
  split
  · omega
  · exact longest_le _ cap

/-- No scan finds more than the length cap. -/
theorem candidates_len_le {c : Params} {x : List Byte} {n p : Nat} {k : Cand}
    (h : k ∈ candidates x p (runScans c x n p)) : k.len ≤ lengthCap c n p := by
  simp only [candidates, runScans, List.mem_cons, List.not_mem_nil, or_false] at h
  rcases h with rfl | rfl | rfl | rfl | rfl
  · exact longest_le _ _
  · exact scanWordFill_le x n p _
  · exact longest_le _ _
  · exact searchFrom_fst_le (fun _ => longest_le _ _) _ _ (Nat.zero_le _)
  · exact searchFrom_fst_le (fun _ => longest_le _ _) _ _ (Nat.zero_le _)

theorem pick_eq_or (best : Option Cand) (c : Cand) : pick best c = some c ∨ pick best c = best := by
  cases best with
  | none => exact .inl rfl
  | some b =>
    simp only [pick]
    split
    · exact .inl rfl
    · exact .inr rfl

theorem foldl_pick_mem {cs : List Cand} {best : Option Cand} {c : Cand} (h : cs.foldl pick best = some c) :
    c ∈ cs ∨ best = some c := by
  induction cs generalizing best with
  | nil => exact .inr h
  | cons a cs ih =>
    rcases ih h with hm | hp
    · exact .inl (List.mem_cons_of_mem a hm)
    · rcases pick_eq_or best a with ha | ha <;> rw [ha] at hp
      · cases hp
        exact .inl List.mem_cons_self
      · exact .inr hp

/-- What is selected is one of the candidates, and it qualifies. -/
theorem select_mem {cs : List Cand} {c : Cand} (h : select cs = some c) : c ∈ cs ∧ qualifies c = true := by
  rcases foldl_pick_mem h with hm | hn
  · exact List.mem_filter.mp hm
  · cases hn

/-! ## What a pass of ENC moves -/

/-- The encoder went from `s` to `u` within its run, its cursor moving on by `d`: OUT, its registers and the count of free values
alone may differ, `N` does not, `OLEN` still fits OUT, and `LIT_START` is as before, not beyond the cursor, or a free value. -/
structure EncMoved (s u : State) (d : Nat) : Prop where
  frame : ∃ m e k, u = { s with outMem := m, enc := e, fresh := k }
  n : u.enc.n = s.enc.n
  p : u.enc.p = s.enc.p + d
  room : capFits s.params.outCap s.enc.olen = true → capFits s.params.outCap u.enc.olen = true
  litStart : u.enc.litStart = s.enc.litStart ∨ u.enc.litStart ≤ u.enc.p ∨ ∃ k, u.enc.litStart = freePos s.params k

theorem EncMoved.refl (s : State) : EncMoved s s 0 := ⟨⟨_, _, _, rfl⟩, rfl, rfl, id, .inl rfl⟩

theorem EncMoved.trans {s u v : State} {a b : Nat} (h : EncMoved s u a) (k : EncMoved u v b) : EncMoved s v (a + b) := by
  obtain ⟨⟨m, e, i, rfl⟩, hn, hp, hroom, hlit⟩ := h
  obtain ⟨⟨m', e', i', rfl⟩, kn, kp, kroom, klit⟩ := k
  refine ⟨⟨_, _, _, rfl⟩, kn.trans hn, by rw [kp, hp, Nat.add_assoc], fun hr => kroom (hroom hr), ?_⟩
  rcases klit with hk | hk | hk
  · rcases hlit with hl | hl | hl
    · exact .inl (hk.trans hl)
    · exact .inr (.inl (by omega))
    · exact .inr (.inr (hk ▸ hl))
  · exact .inr (.inl hk)
  · exact .inr (.inr hk)

theorem encMoved_latchScans (r : Scans) (sel : Option Cand) (s : State) : EncMoved s (latchScans r sel s) 0 :=
  ⟨⟨_, _, _, rfl⟩, rfl, rfl, id, .inl rfl⟩

theorem encMoved_clearRun (s : State) : EncMoved s (clearRun s) 0 :=
  ⟨⟨_, _, _, rfl⟩, rfl, rfl, id, .inr (.inr ⟨s.fresh, rfl⟩)⟩

theorem encMoved_joinRun (s : State) : EncMoved s (joinRun s) 1 := by
  refine ⟨⟨_, _, _, rfl⟩, rfl, rfl, id, ?_⟩
  rw [joinRun_enc_litStart, joinRun_enc_p]
  split
  · exact .inr (.inl (by omega))
  · exact .inl rfl

theorem encMoved_advance (s : State) (d : Nat) : EncMoved s { s with enc := { s.enc with p := s.enc.p + d } } d :=
  ⟨⟨_, _, _, rfl⟩, rfl, rfl, id, .inl rfl⟩

/-- What a part of a pass leaves: the encoder moved on by `d`, or it entered the capacity fault on the way (R166). -/
def PassMoves (s : State) (d : Nat) : Except State State → Prop
  | .ok u => EncMoved s u d
  | .error t => ∃ u e, e ≤ d ∧ EncMoved s u e ∧ t = raise .compress .outputOverflow u.enc.p u

theorem EncMoved.passMoves {s u : State} {a b : Nat} {r : Except State State} (h : EncMoved s u a)
    (k : PassMoves u b r) : PassMoves s (a + b) r := by
  cases r with
  | ok v => exact h.trans k
  | error t =>
    obtain ⟨v, e, he, hv, ht⟩ := k
    exact ⟨v, a + e, by omega, h.trans hv, ht⟩

/-- One part of a pass after another. -/
theorem PassMoves.bind {s : State} {a b : Nat} {r : Except State State} {f : State → Except State State}
    (h : PassMoves s a r) (k : ∀ u, PassMoves u b (f u)) : PassMoves s (a + b) (r.bind f) := by
  cases r with
  | ok u => exact h.passMoves (k u)
  | error t =>
    obtain ⟨u, e, he, hu, ht⟩ := h
    exact ⟨u, e, by omega, hu, ht⟩

/-- Emission that failed: the fault entry clears `OLEN`, so the bytes written before it show in OUT alone. -/
theorem passMoves_emitError (as : List Byte) (s : State) :
    PassMoves s 0 (.error (raise .compress .outputOverflow s.enc.p (emittedState as s))) :=
  ⟨{ s with outMem := s.outMem.storeRun s.enc.olen as }, 0, Nat.le_refl 0, ⟨⟨_, _, _, rfl⟩, rfl, rfl, id, .inl rfl⟩, rfl⟩

theorem passMoves_emitAll (bs : List Byte) (s : State) : PassMoves s 0 (emitAll bs s) := by
  rcases emitAll_cases bs s with ⟨hf, he⟩ | ⟨_, he⟩ | ⟨_, as, _, he⟩ <;> rw [he]
  · exact ⟨⟨_, _, _, rfl⟩, rfl, rfl, fun _ => hf, .inl rfl⟩
  · exact .refl s
  · exact passMoves_emitError as s

theorem emitAll_singleton (b : Byte) (s : State) : emitAll [b] s = emit b s := by
  simp only [emitAll]
  cases emit b s <;> rfl

theorem passMoves_flush (x : List Byte) (s : State) : PassMoves s 0 (flush x s) := by
  cases hf : flush x s with
  | ok t =>
    rcases flush_ok hf with ⟨_, rfl⟩ | ⟨_, he, rfl⟩
    · exact .refl t
    · have hm := passMoves_emitAll (instrBytes .direct s.enc.litLen.toNat (pendingBytes x s)) s
      rw [he] at hm
      exact EncMoved.trans hm (encMoved_clearRun _)
  | error t =>
    obtain ⟨as, rfl⟩ := flush_error hf
    exact passMoves_emitError as s

theorem passSelected_eq_bind (x : List Byte) (c : Cand) (s : State) :
    passSelected x c s = (flush x s).bind fun u => (emitAll (instrBytes c.kind c.len c.payload) u).bind fun v =>
      .ok { v with enc := { v.enc with p := v.enc.p + c.len } } := by
  unfold passSelected
  cases flush x s with
  | error t => rfl
  | ok u =>
    simp only [Except.bind]
    cases emitAll (instrBytes c.kind c.len c.payload) u <;> rfl

/-- A pass with a selection moves the cursor by its length (R167). -/
theorem passMoves_passSelected (x : List Byte) (c : Cand) (s : State) : PassMoves s c.len (passSelected x c s) := by
  have emitted : ∀ u, PassMoves u (0 + c.len) ((emitAll (instrBytes c.kind c.len c.payload) u).bind fun v =>
      .ok { v with enc := { v.enc with p := v.enc.p + c.len } }) :=
    fun u => (passMoves_emitAll _ u).bind fun v => encMoved_advance v c.len
  rw [passSelected_eq_bind]
  simpa only [Nat.zero_add] using (passMoves_flush x s).bind emitted

/-- A pass without a selection moves the cursor by one (R168). -/
theorem passMoves_passLiteral (x : List Byte) (s : State) : PassMoves s 1 (passLiteral x s) := by
  unfold passLiteral
  split
  · exact (encMoved_joinRun s).passMoves (passMoves_flush x (joinRun s))
  · exact encMoved_joinRun s

theorem finishRun_eq_map (x : List Byte) (s : State) :
    finishRun x s = ((flush x s).bind (emit Config.term)).map stopEnc := by
  unfold finishRun
  cases flush x s with
  | error t => rfl
  | ok u =>
    simp only [Except.bind]
    cases emit Config.term u <;> rfl

/-- The end of the run emits at the cursor where it stands (R169). -/
theorem passMoves_terminator (x : List Byte) (s : State) : PassMoves s 0 ((flush x s).bind (emit Config.term)) :=
  (passMoves_flush x s).bind fun u => emitAll_singleton Config.term u ▸ passMoves_emitAll [Config.term] u

/-! ## A step of ENC -/

/-- What a step of ENC that starts in `s` may leave: the encoder moved on inside its input, and the run goes on, has ended
normally, or has entered the capacity fault at the cursor. -/
def EncLeaves (s t : State) : Prop :=
  ∃ u d, EncMoved s u d ∧ d ≤ s.enc.n - s.enc.p ∧
    (t = u ∨ t = stopEnc u ∨ t = raise .compress .outputOverflow u.enc.p u)

theorem PassMoves.encLeaves {s t : State} {d : Nat} {r : Except State State} (h : PassMoves s d r)
    (hd : d ≤ s.enc.n - s.enc.p) (hr : settle r = .next t) : EncLeaves s t := by
  cases r with
  | ok u =>
    cases hr
    exact ⟨t, d, h, hd, .inl rfl⟩
  | error u =>
    cases hr
    obtain ⟨v, e, he, hv, ht⟩ := h
    exact ⟨v, e, hv, by omega, .inr (.inr ht)⟩

theorem PassMoves.encLeaves_stop {s t : State} {r : Except State State} (h : PassMoves s 0 r)
    (hr : settle (r.map stopEnc) = .next t) : EncLeaves s t := by
  cases r with
  | ok u =>
    cases hr
    exact ⟨u, 0, h, Nat.zero_le _, .inr (.inl rfl)⟩
  | error u => exact PassMoves.encLeaves (r := .error u) h (Nat.zero_le _) hr

/-- Everything a step of ENC can leave (43_encoder.md R152). -/
theorem stepEncoder_next {s t : State} (h : stepEncoder s = .next t) : EncLeaves s t := by
  rcases stepEncoder_cases s with ⟨_, he⟩ | ⟨hp, r, rfl, ⟨c, hc, he⟩ | ⟨_, he⟩⟩ <;> rw [he] at h
  · rw [finishRun_eq_map] at h
    exact (passMoves_terminator _ s).encLeaves_stop h
  · have hlen : c.len ≤ s.enc.n - s.enc.p := (candidates_len_le (select_mem hc).1).trans (Nat.min_le_right _ _)
    exact ((encMoved_latchScans _ _ s).passMoves (passMoves_passSelected _ c _)).encLeaves (by omega) h
  · exact ((encMoved_latchScans _ _ s).passMoves (passMoves_passLiteral _ _)).encLeaves (by omega) h

/-! ## The parameters (00_scope.md R2, R6) -/

theorem EncMoved.params {s u : State} {d : Nat} (h : EncMoved s u d) : u.params = s.params := by
  obtain ⟨m, e, k, rfl⟩ := h.frame
  rfl

theorem stepDecoder_params {s t : State} (h : stepDecoder s = .next t) : t.params = s.params := by
  rcases stepDecoder_next h with ⟨f, g, _, rfl⟩ | ⟨hd, m, g, rfl, _⟩ | ⟨b, ip', g, _, rfl⟩ <;> rfl

theorem stepEncoder_params {s t : State} (h : stepEncoder s = .next t) : t.params = s.params := by
  obtain ⟨u, d, hm, _, rfl | rfl | rfl⟩ := stepEncoder_next h <;> exact hm.params

theorem hostAct_params {o : HostOp} {s t : State} (h : hostAct o s = .next t) : t.params = s.params := by
  rcases hostAct_next h with ⟨_, _, rfl | rfl⟩ | ⟨_, e, rfl⟩ | ⟨_, n, _, rfl⟩ | ⟨_, a, b, _, rfl⟩ | ⟨v, rfl⟩ | rfl <;> rfl

/-- No step changes the parameters. -/
theorem step_params {s t : State} (h : step s = .next t) : t.params = s.params :=
  step_keeps (P := fun u => u.params = s.params) (fun _ _ hu => hu) (fun _ _ _ hu hv => (stepDecoder_params hv).trans hu)
    (fun _ _ _ hu hv => (stepEncoder_params hv).trans hu) (fun _ _ _ hu hv => (hostAct_params hv).trans hu) rfl h

/-! ## The cursors of a running engine (10_state.md R11, R12, R16, R17) -/

/-- While an engine runs, its input fits IN, its read cursor is within the input, and its output fits OUT: what the block's
invariant says of the cursors alone. -/
structure CursorsHeld (s : State) : Prop where
  input : s.run = .busy → capFits s.params.inCap s.inLen = true
  decoder : Decoding s → s.dec.ip ≤ s.inLen ∧ capFits s.params.outCap s.dec.olen = true
  encoder : Encoding s → s.enc.n = s.inLen ∧ s.enc.p ≤ s.enc.n ∧ capFits s.params.outCap s.enc.olen = true

theorem inv_cursorsHeld {s : State} (h : Inv s) : CursorsHeld s where
  input := h.inputFits
  decoder hs := by
    obtain ⟨hip, _, holen⟩ := h.decoder hs
    exact ⟨hip, holen⟩
  encoder hs := by
    obtain ⟨hn, hp, _, holen⟩ := h.encoder hs
    exact ⟨hn, hp, holen⟩

theorem cursorsHeld_of_not_busy {s : State} (h : s.run ≠ .busy) : CursorsHeld s where
  input hr := absurd hr h
  decoder hs := absurd hs.1 h
  encoder hs := absurd hs.1 h

theorem capFits_zero (cap : Option Nat) : capFits cap 0 = true := by
  cases cap with
  | none => rfl
  | some c => exact decide_eq_true (Nat.zero_le c)

theorem stepDecoder_cursorsHeld {s t : State} (hs : Decoding s) (hc : CursorsHeld s) (h : stepDecoder s = .next t) :
    CursorsHeld t := by
  rcases stepDecoder_next h with ⟨f, g, _, rfl⟩ | ⟨hd, m, g, rfl, _, _, _, _, hin, hroom⟩ | ⟨b, ip', g, _, rfl⟩
  · exact cursorsHeld_of_not_busy (by simp)
  · exact
      { input := hc.input
        decoder := fun _ => ⟨hin, overflows_eq_false.mp hroom⟩
        encoder := fun ht => absurd (ht.2.symm.trans hs.2) (by decide) }
  · exact cursorsHeld_of_not_busy (by simp)

theorem stepEncoder_cursorsHeld {s t : State} (hs : Encoding s) (hc : CursorsHeld s) (h : stepEncoder s = .next t) :
    CursorsHeld t := by
  obtain ⟨u, d, hm, hd, rfl | rfl | rfl⟩ := stepEncoder_next h
  · obtain ⟨⟨m, e, k, rfl⟩, hn, hp, hroom, _⟩ := hm
    obtain ⟨cn, cp, colen⟩ := hc.encoder hs
    exact
      { input := hc.input
        decoder := fun ht => absurd (ht.2.symm.trans hs.2) (by decide)
        encoder := fun _ => ⟨hn.trans cn, by omega, hroom colen⟩ }
  · exact cursorsHeld_of_not_busy (by simp)
  · exact cursorsHeld_of_not_busy (by simp)

theorem hostAct_cursorsHeld {o : HostOp} {s t : State} (hc : CursorsHeld s) (h : hostAct o s = .next t) :
    CursorsHeld t := by
  rcases hostAct_next h with
    ⟨_, hf, rfl | rfl⟩ | ⟨hr, e, rfl⟩ | ⟨hr, n, _, rfl⟩ | ⟨hr, a, b, _, rfl⟩ | ⟨v, rfl⟩ | rfl
  · exact
      { input := fun _ => hf
        decoder := fun _ => ⟨Nat.zero_le _, capFits_zero _⟩
        encoder := fun ht => nomatch ht.2 }
  · exact
      { input := fun _ => hf
        decoder := fun ht => nomatch ht.2
        encoder := fun _ => ⟨rfl, Nat.zero_le _, capFits_zero _⟩ }
  · exact cursorsHeld_of_not_busy hr
  · exact cursorsHeld_of_not_busy hr
  · exact cursorsHeld_of_not_busy hr
  · exact ⟨hc.input, hc.decoder, hc.encoder⟩
  · exact cursorsHeld_of_not_busy (by simp)

/-- Every step keeps the cursors of a running engine within the input and OUT. -/
theorem step_cursorsHeld {s t : State} (hc : CursorsHeld s) (h : step s = .next t) : CursorsHeld t :=
  step_keeps (fun _ _ hu => ⟨hu.input, hu.decoder, hu.encoder⟩) (fun _ _ => stepDecoder_cursorsHeld)
    (fun _ _ => stepEncoder_cursorsHeld) (fun _ _ _ => hostAct_cursorsHeld) hc h

/-! ## The registers of width `AW` (00_scope.md R6) -/

section Width

variable {w : Nat} {s t : State}

theorem SrcAfter.lt (h : SrcAfter s t) (hw : s.params.aw = some w) (hp : PositionsBelow w s) :
    t.dec.latch.src < 2 ^ w := by
  obtain ⟨_, _, _, _, _, holen, hsrc, _⟩ := hp
  rcases h with h | h | ⟨n, h⟩
  · rwa [h]
  · exact h.trans holen
  · rw [h, hw]
    exact toWidth_lt w n

theorem stepDecoder_positionsBelow (hl : s.params.legal = true) (hw : s.params.aw = some w) (hp : PositionsBelow w s)
    (h : stepDecoder s = .next t) : PositionsBelow w t := by
  have hsrc := (stepDecoder_src h).lt hw hp
  obtain ⟨hinLen, herrPos, hinPos, houtLen, hip, holen, _, henc⟩ := hp
  have hzero := Nat.two_pow_pos w
  rcases stepDecoder_next h with ⟨f, g, _, rfl⟩ | ⟨hd, m, g, rfl, _, _, _, _, hin, hroom⟩ | ⟨b, ip', g, hin, rfl⟩
  · exact ⟨hinLen, hip, hinPos, hzero, hip, hzero, hsrc, henc⟩
  · exact ⟨hinLen, herrPos, hinPos, houtLen, hin.trans_lt hinLen,
      lt_of_capFits_outCap hl hw (overflows_eq_false.mp hroom), hsrc, henc⟩
  · exact ⟨hinLen, herrPos, hin.trans_lt hinLen, holen, hin.trans_lt hinLen, holen, hsrc, henc⟩

theorem EncMoved.positionsBelow {d : Nat} (hm : EncMoved s t d) (hd : d ≤ s.enc.n - s.enc.p) (hl : s.params.legal = true)
    (hw : s.params.aw = some w) (hf : capFits s.params.outCap s.enc.olen = true) (hp : PositionsBelow w s) :
    PositionsBelow w t := by
  obtain ⟨⟨m, e, k, rfl⟩, hn, hcur, hroom, hlit⟩ := hm
  obtain ⟨hinLen, herrPos, hinPos, houtLen, hip, holen, hsrc, hsn, hsp, hsolen, hslit⟩ := hp
  have hep : e.p < 2 ^ w := by dsimp only at hcur; omega
  refine ⟨hinLen, herrPos, hinPos, houtLen, hip, holen, hsrc, hn.trans_lt hsn, hep,
    lt_of_capFits_outCap hl hw (hroom hf), ?_⟩
  rcases hlit with h | h | ⟨k, h⟩
  · exact h.trans_lt hslit
  · exact h.trans_lt hep
  · exact h.trans_lt (freePos_lt hw k)

theorem stepEncoder_positionsBelow (hl : s.params.legal = true) (hw : s.params.aw = some w)
    (hf : capFits s.params.outCap s.enc.olen = true) (hp : PositionsBelow w s) (h : stepEncoder s = .next t) :
    PositionsBelow w t := by
  obtain ⟨u, d, hm, hd, ht⟩ := stepEncoder_next h
  have hu := hm.positionsBelow hd hl hw hf hp
  rcases ht with rfl | rfl | rfl
  · exact hu
  · obtain ⟨hinLen, herrPos, _, _, hip, holen, hsrc, hn, hcur, heolen, hlit⟩ := hu
    exact ⟨hinLen, herrPos, hn, heolen, hip, holen, hsrc, hn, hcur, heolen, hlit⟩
  · obtain ⟨hinLen, _, hinPos, _, hip, holen, hsrc, hn, hcur, _, hlit⟩ := hu
    have hzero := Nat.two_pow_pos w
    exact ⟨hinLen, hcur, hinPos, hzero, hip, holen, hsrc, hn, hcur, hzero, hlit⟩

theorem hostAct_positionsBelow {o : HostOp} (hw : s.params.aw = some w) (hp : PositionsBelow w s)
    (h : hostAct o s = .next t) : PositionsBelow w t := by
  have hzero := Nat.two_pow_pos w
  have hfree := freePos_lt hw
  rcases hostAct_next h with
    ⟨_, _, rfl | rfl⟩ | ⟨_, e, rfl⟩ | ⟨_, n, hn, rfl⟩ | ⟨_, a, b, _, rfl⟩ | ⟨v, rfl⟩ | rfl
  · obtain ⟨hinLen, _, _, _, _, _, _, henc⟩ := hp
    exact ⟨hinLen, hfree _, hfree _, hzero, hzero, hzero, hfree _, henc⟩
  · obtain ⟨hinLen, _, _, _, hip, holen, hsrc, _⟩ := hp
    exact ⟨hinLen, hfree _, hfree _, hzero, hip, holen, hsrc, hinLen, hzero, hzero, hfree _⟩
  · exact hp
  · rw [hw, fitsWidth_some] at hn
    exact ⟨hn, hp.2⟩
  · exact hp
  · exact hp
  · exact ⟨hzero, hzero, hzero, hzero, hzero, hzero, hzero, hzero, hzero, hzero, hzero⟩

end Width

/-- In a block whose parameters R6 allows every step keeps every register of width `AW` within `AW` bits. -/
theorem step_positionsBelow {w : Nat} {s t : State} (hl : s.params.legal = true) (hw : s.params.aw = some w)
    (hc : CursorsHeld s) (hp : PositionsBelow w s) (h : step s = .next t) : PositionsBelow w t := by
  have kept : t.params = s.params ∧ CursorsHeld t ∧ PositionsBelow w t := by
    refine step_keeps (P := fun u => u.params = s.params ∧ CursorsHeld u ∧ PositionsBelow w u) ?turn ?dec ?enc ?act
      ⟨rfl, hc, hp⟩ h
    case turn => exact fun u _ ⟨e, hc, hp⟩ => ⟨e, ⟨hc.input, hc.decoder, hc.encoder⟩, hp⟩
    case dec =>
      exact fun u v hd ⟨e, hc, hp⟩ hv => ⟨(stepDecoder_params hv).trans e, stepDecoder_cursorsHeld hd hc hv,
        stepDecoder_positionsBelow (e ▸ hl) (e ▸ hw) hp hv⟩
    case enc =>
      intro u v he ⟨e, hc, hp⟩ hv
      obtain ⟨_, _, holen⟩ := hc.encoder he
      exact ⟨(stepEncoder_params hv).trans e, stepEncoder_cursorsHeld he hc hv,
        stepEncoder_positionsBelow (e ▸ hl) (e ▸ hw) holen hp hv⟩
    case act =>
      exact fun o u v ⟨e, hc, hp⟩ hv => ⟨(hostAct_params hv).trans e, hostAct_cursorsHeld hc hv,
        hostAct_positionsBelow (e ▸ hw) hp hv⟩
  exact kept.2.2

/-- A number that fits a finite capacity fits every width that exceeds the capacity. -/
theorem lt_two_pow_of_capFits {cap : Option Nat} {c n w : Nat} (hcap : cap = some c) (hn : capFits cap n = true)
    (hc : c < 2 ^ w) : n < 2 ^ w := by
  subst hcap
  exact (of_decide_eq_true hn).trans_lt hc

end Sys2Proof.Machine
end

section
/-! The obligations of 00_scope.md. -/

namespace Sys2Proof.Safety

open Sys2Proof.Machine

/-- Settles O34: neither engine and no action of the host writes the parameters. -/
theorem parametersNeverChange : Obligations.ParametersNeverChange :=
  fun _ _ => step_params

/-- Settles O37: a running engine's cursors stay within its input and OUT, which the width exceeds, and what else a step writes
into a register of width `AW` is 0, another such register, or a value cut to the width. -/
theorem cursorsFitEveryAddressWidth : Obligations.CursorsFitEveryAddressWidth := by
  constructor
  · intro s t aw inCap outCap hs hin hout haw haw' h
    have ht := step_cursorsHeld (inv_cursorsHeld hs) h
    rw [← step_params h] at hin hout
    constructor
    · intro hd
      obtain ⟨hip, holen⟩ := ht.decoder hd
      have hlen := lt_two_pow_of_capFits hin (ht.input hd.1) haw
      exact ⟨hip.trans_lt hlen, lt_two_pow_of_capFits hout holen haw'⟩
    · intro he
      obtain ⟨hn, hp, holen⟩ := ht.encoder he
      have hlen := lt_two_pow_of_capFits hin (ht.input he.1) haw
      exact ⟨by omega, by omega, lt_two_pow_of_capFits hout holen haw'⟩
  · intro s t aw inCap outCap hs hin hout haw hmax h
    have hlegal : s.params.legal = true := by simpa [Params.legal, hin, hout, haw] using hmax
    exact step_positionsBelow hlegal haw (inv_cursorsHeld hs) (hs.widths hlegal aw haw) h

end Sys2Proof.Safety
end

section
/-! What the encoder writes, said once: the bytes that an emission, a flush and each of the three passes append to OUT, and how
each of them ends when OUT has no room for them. -/

namespace Sys2Proof.Machine

open Sys2Proof.Safety

/-! ## Reading back what was appended -/

theorem Mem.storeRun_append (m : Mem) (a : Nat) (as bs : List Byte) :
    m.storeRun a (as ++ bs) = (m.storeRun a as).storeRun (a + as.length) bs := by
  induction as generalizing m a with
  | nil => rfl
  | cons x as ih =>
    rw [List.cons_append, Mem.storeRun, ih, Mem.storeRun, List.length_cons, Nat.add_assoc, Nat.add_comm 1]

/-- What a filled OUT reads back after an append: the old bytes, then the new ones. -/
theorem Mem.runFrom_storeRun {m : Mem} {n : Nat} (bs : List Byte) (hm : ∀ a, (m.byteAt a).isSome ↔ a < n) :
    (m.storeRun n bs).runFrom 0 (n + bs.length) = m.runFrom 0 n ++ bs := by
  have hlen : (m.runFrom 0 n).length = n := Mem.length_runFrom fun k hk => (hm _).mpr (by omega)
  have hlen' : ((m.storeRun n bs).runFrom 0 (n + bs.length)).length = n + bs.length :=
    Mem.length_runFrom fun k hk => (storeRun_filled bs hm _).mpr (by omega)
  apply List.ext_getElem?
  intro k
  by_cases hk : k < n + bs.length
  · rw [Mem.runFrom_getElem? _ _ _ _ (by omega), Mem.byteAt_storeRun, Nat.zero_add]
    by_cases hn : k < n
    · rw [if_neg (by omega), List.getElem?_append_left (by omega), Mem.runFrom_getElem? _ _ _ _ (by omega), Nat.zero_add]
    · rw [if_pos (by omega), List.getElem?_append_right (by omega), hlen]
  · rw [List.getElem?_eq_none (by omega), List.getElem?_eq_none (by simp [hlen]; omega)]

/-! ## A part of a pass -/

/-- The encoder went from `s` to `u` within its run: it appended `bs` to OUT at its write position and moved its cursor on by `d`.
OUT, its registers and the count of free values alone may differ. -/
structure Emits (s u : State) (bs : List Byte) (d : Nat) : Prop where
  frame : ∃ e k, u = { s with outMem := s.outMem.storeRun s.enc.olen bs, enc := e, fresh := k }
  n : u.enc.n = s.enc.n
  p : u.enc.p = s.enc.p + d
  olen : u.enc.olen = s.enc.olen + bs.length

theorem Emits.trans {s u v : State} {as bs : List Byte} {d e : Nat} (h : Emits s u as d) (k : Emits u v bs e) :
    Emits s v (as ++ bs) (d + e) := by
  obtain ⟨⟨_, _, rfl⟩, hn, hp, ho⟩ := h
  obtain ⟨⟨f, j, rfl⟩, kn, kp, ko⟩ := k
  refine ⟨⟨f, j, ?_⟩, kn.trans hn, by rw [kp, hp, Nat.add_assoc], by rw [ko, ho, List.length_append, Nat.add_assoc]⟩
  rw [Mem.storeRun_append, ← ho]

theorem emits_emittedState (bs : List Byte) (s : State) : Emits s (emittedState bs s) bs 0 := ⟨⟨_, _, rfl⟩, rfl, rfl, rfl⟩

theorem emits_clearRun (s : State) : Emits s (clearRun s) [] 0 := ⟨⟨_, _, rfl⟩, rfl, rfl, rfl⟩

theorem emits_latchScans (r : Scans) (sel : Option Cand) (s : State) : Emits s (latchScans r sel s) [] 0 :=
  ⟨⟨_, _, rfl⟩, rfl, rfl, rfl⟩

theorem emits_joinRun (s : State) : Emits s (joinRun s) [] 1 := ⟨⟨_, _, rfl⟩, rfl, rfl, rfl⟩

/-- The cursor of ENC moved on by the length of an instruction (R167). -/
def advance (d : Nat) (s : State) : State := { s with enc := { s.enc with p := s.enc.p + d } }

theorem emits_advance (d : Nat) (s : State) : Emits s (advance d s) [] d := ⟨⟨_, _, rfl⟩, rfl, rfl, rfl⟩

section
variable {s u : State} {bs : List Byte} {d : Nat}

theorem Emits.params (h : Emits s u bs d) : u.params = s.params := by
  obtain ⟨⟨_, _, rfl⟩, _⟩ := h
  rfl

theorem Emits.outMem (h : Emits s u bs d) : u.outMem = s.outMem.storeRun s.enc.olen bs := by
  obtain ⟨⟨_, _, rfl⟩, _⟩ := h
  rfl

theorem Emits.outFilled (h : Emits s u bs d) (hs : OutFilled s s.enc.olen) : OutFilled u u.enc.olen := by
  intro a
  rw [h.outMem, h.olen]
  exact storeRun_filled bs hs a

/-- What ENC has emitted grows by the bytes written. -/
theorem Emits.emitted (h : Emits s u bs d) (hs : OutFilled s s.enc.olen) : emitted u = emitted s ++ bs := by
  rw [Safety.emitted, h.outMem, h.olen]
  exact Mem.runFrom_storeRun bs hs

/-- The write position is the number of bytes emitted. -/
theorem Emits.length_emitted (h : Emits s u bs d) (hs : OutFilled s s.enc.olen) : u.enc.olen = (Safety.emitted u).length :=
  (Mem.length_runFrom fun _ hk => (h.outFilled hs _).mpr (by omega)).symm

end

/-- The encoder ran out of room on the way: having appended what fitted, it entered the capacity fault at its cursor, which had
moved on by `d` (43_encoder.md R166). -/
def RunsOut (s : State) (d : Nat) (t : State) : Prop :=
  ∃ u as, Emits s u as d ∧ capFits s.params.outCap u.enc.olen = true ∧ t = raise .compress .outputOverflow u.enc.p u

/-- A part of a pass that is to write `bs`: with room for them it writes them, without room it runs out. -/
def PassEmits (s : State) (bs : List Byte) (d : Nat) : Except State State → Prop
  | .ok u => capFits s.params.outCap (s.enc.olen + bs.length) = true ∧ Emits s u bs d
  | .error t => capFits s.params.outCap (s.enc.olen + bs.length) = false ∧ RunsOut s d t

theorem capFits_false_mono {cap : Option Nat} {n k : Nat} (h : capFits cap n = false) (hk : n ≤ k) : capFits cap k = false := by
  cases hf : capFits cap k with
  | false => rfl
  | true => exact absurd (capFits_mono hf hk) (by simp [h])

/-- A part of a pass after a part that ended normally. -/
theorem Emits.passEmits {s u : State} {as bs : List Byte} {d : Nat} {r : Except State State} (h : Emits s u as d)
    (k : PassEmits u bs 0 r) : PassEmits s (as ++ bs) d r := by
  have hroom : capFits s.params.outCap (s.enc.olen + (as ++ bs).length) = capFits u.params.outCap (u.enc.olen + bs.length) := by
    rw [h.params, h.olen, List.length_append, Nat.add_assoc]
  cases r with
  | ok v => exact ⟨hroom.trans k.1, h.trans k.2⟩
  | error t =>
    obtain ⟨hk, v, cs, hv, hf, ht⟩ := k
    exact ⟨hroom.trans hk, v, as ++ cs, h.trans hv, h.params ▸ hf, ht⟩

/-- One part of a pass after another. -/
theorem PassEmits.bind {s : State} {as bs : List Byte} {d : Nat} {r : Except State State} {f : State → Except State State}
    (h : PassEmits s as d r) (k : ∀ u, capFits u.params.outCap u.enc.olen = true → PassEmits u bs 0 (f u)) :
    PassEmits s (as ++ bs) d (r.bind f) := by
  cases r with
  | ok u => exact h.2.passEmits (k u (by rw [h.2.params, h.2.olen]; exact h.1))
  | error t => exact ⟨capFits_false_mono h.1 (by simp), h.2⟩

/-! ## Emission and the flush (43_encoder.md R165, R166) -/

section
variable {s : State} (hroom : capFits s.params.outCap s.enc.olen = true)
include hroom

theorem passEmits_emit (b : Byte) : PassEmits s [b] 0 (emit b s) := by
  rcases emit_cases b s with ⟨ho, he⟩ | ⟨ho, he⟩ <;> rw [he]
  · exact ⟨by simpa [overflows] using ho, s, [], emits_emittedState [] s, hroom, rfl⟩
  · exact ⟨overflows_eq_false.mp ho, emits_emittedState [b] s⟩

theorem passEmits_emitAll (bs : List Byte) : PassEmits s bs 0 (emitAll bs s) := by
  induction bs generalizing s with
  | nil => exact ⟨hroom, emits_emittedState [] s⟩
  | cons b bs ih =>
    have hstep : emitAll (b :: bs) s = (emit b s).bind (emitAll bs) := by
      rw [emitAll]
      cases emit b s <;> rfl
    rw [hstep]
    exact (passEmits_emit hroom b).bind fun u hu => ih hu

end

/-- The bytes a flush writes: the pending run as one direct copy, or nothing. On the encoder's own input they are
`Safety.pendingInstr`. -/
def pendingStream (x : List Byte) (s : State) : List Byte :=
  if s.enc.litLen.toNat = 0 then [] else instrBytes .direct s.enc.litLen.toNat (pendingBytes x s)

theorem pendingStream_inputBytes (s : State) : pendingStream (inputBytes s) s = pendingInstr s := rfl

theorem passEmits_flush (x : List Byte) {s : State} (hroom : capFits s.params.outCap s.enc.olen = true) :
    PassEmits s (pendingStream x s) 0 (flush x s) := by
  unfold flush pendingStream
  split
  · exact ⟨hroom, emits_emittedState [] s⟩
  · have hw := passEmits_emitAll hroom (instrBytes .direct s.enc.litLen.toNat (pendingBytes x s))
    split <;> rename_i he <;> rw [he] at hw
    · exact ⟨hw.1, by simpa using hw.2.trans (emits_clearRun _)⟩
    · exact hw

theorem litLen_of_flush {x : List Byte} {s u : State} (h : flush x s = .ok u) : u.enc.litLen = 0 := by
  rcases flush_ok h with ⟨h0, rfl⟩ | ⟨_, _, rfl⟩
  · exact BitVec.eq_of_toNat_eq h0
  · rfl

theorem litLen_of_emitAll {bs : List Byte} {s u : State} (h : emitAll bs s = .ok u) : u.enc.litLen = s.enc.litLen := by
  rcases emitAll_cases bs s with ⟨_, he⟩ | ⟨_, he⟩ | ⟨_, _, _, he⟩ <;> rw [he] at h <;> cases h <;> rfl

/-- A flush and the emission after it: what both write, in order. -/
theorem passEmits_flush_emitAll (x bs : List Byte) {s : State} (hroom : capFits s.params.outCap s.enc.olen = true) :
    PassEmits s (pendingStream x s ++ bs) 0 ((flush x s).bind (emitAll bs)) :=
  (passEmits_flush x hroom).bind fun _ hu => passEmits_emitAll hu bs

theorem litLen_of_flush_emitAll {x bs : List Byte} {s u : State} (h : (flush x s).bind (emitAll bs) = .ok u) :
    u.enc.litLen = 0 := by
  cases hf : flush x s with
  | error t => rw [hf] at h; cases h
  | ok v =>
    rw [hf] at h
    exact (litLen_of_emitAll h).trans (litLen_of_flush hf)

/-! ## The three passes (43_encoder.md R167, R168, R169) -/

theorem passSelected_eq_map (x : List Byte) (c : Cand) (s : State) :
    passSelected x c s = ((flush x s).bind (emitAll (instrBytes c.kind c.len c.payload))).map (advance c.len) := by
  rw [passSelected_eq_bind]
  cases flush x s with
  | error t => rfl
  | ok u =>
    simp only [Except.bind]
    cases emitAll (instrBytes c.kind c.len c.payload) u <;> rfl

theorem finishRun_eq_map_emitAll (x : List Byte) (s : State) :
    finishRun x s = ((flush x s).bind (emitAll [Config.term])).map stopEnc := by
  rw [finishRun_eq_map, show emitAll [Config.term] = emit Config.term from funext (emitAll_singleton _)]

/-- The pending run stays within the 11 bits of `LIT_LEN` (R18). -/
theorem joinRun_litLen_toNat {s : State} (h : s.enc.litLen.toNat + 1 ≤ Config.encMaxLen s.params) :
    (joinRun s).enc.litLen.toNat = s.enc.litLen.toNat + 1 := by
  have hmax : Config.encMaxLen s.params ≤ 992 := by rcases encMaxLen_cases s.params with hm | hm <;> omega
  rw [joinRun_enc_litLen, BitVec.toNat_add, Nat.mod_eq_of_lt]
  · rfl
  · change s.enc.litLen.toNat + 1 < 2048
    omega

theorem passLiteral_joins (x : List Byte) {s : State} (h : s.enc.litLen.toNat + 1 < Config.encMaxLen s.params) :
    passLiteral x s = .ok (joinRun s) :=
  if_neg (joinRun_litLen_toNat h.le ▸ h.ne)

theorem passLiteral_flushes (x : List Byte) {s : State} (h : s.enc.litLen.toNat + 1 = Config.encMaxLen s.params) :
    passLiteral x s = flush x (joinRun s) :=
  if_pos ((joinRun_litLen_toNat h.le).trans h)

/-- What the pass at the cursor selects (R163). -/
def selection (s : State) : Option Cand :=
  select (candidates (inputBytes s) s.enc.p (runScans s.params (inputBytes s) s.enc.n s.enc.p))

/-- What a pass without a selection leaves before it may flush: the scans are latched and the byte has joined the run (R168). -/
def joined (s : State) : State := joinRun (latchScans (runScans s.params (inputBytes s) s.enc.n s.enc.p) none s)

theorem emits_joined (s : State) : Emits s (joined s) [] 1 := (emits_latchScans _ none s).trans (emits_joinRun _)

/-- The answer of a step of ENC that is to write `bs`: with room for them it leaves a state that meets `Q`, without room it runs
out with its cursor moved by `d`. -/
def StepWrites (s : State) (bs : List Byte) (d : Nat) (Q : State → Prop) (o : Answer) : Prop :=
  (capFits s.params.outCap (s.enc.olen + bs.length) = true ∧ ∃ t, o = .next t ∧ Q t) ∨
  (capFits s.params.outCap (s.enc.olen + bs.length) = false ∧ ∃ t, o = .next t ∧ RunsOut s d t)

theorem PassEmits.stepWrites {s : State} {bs : List Byte} {d : Nat} {r : Except State State} {f : State → State}
    {Q : State → Prop} (h : PassEmits s bs d r) (hQ : ∀ u, r = .ok u → Emits s u bs d → Q (f u)) :
    StepWrites s bs d Q (settle (r.map f)) := by
  cases r with
  | ok u => exact .inl ⟨h.1, f u, rfl, hQ u rfl h.2⟩
  | error t => exact .inr ⟨h.1, t, rfl, h.2⟩

section
variable {s : State} (hroom : capFits s.params.outCap s.enc.olen = true)
include hroom

/-- The end of the run: the pending run, the terminator, `stop OK` (R169). -/
theorem stepEncoder_finish (hp : s.enc.n ≤ s.enc.p) :
    StepWrites s (pendingInstr s ++ [Config.term]) 0
      (fun t => ∃ u, t = stopEnc u ∧ Emits s u (pendingInstr s ++ [Config.term]) 0 ∧ u.enc.litLen = 0) (stepEncoder s) := by
  have he : stepEncoder s = settle (finishRun (inputBytes s) s) := if_neg (by omega)
  rw [he, finishRun_eq_map_emitAll]
  exact (passEmits_flush_emitAll (inputBytes s) [Config.term] hroom).stepWrites fun u hu hem =>
    ⟨u, rfl, hem, litLen_of_flush_emitAll hu⟩

/-- The scans latched, the pending run flushed, and bytes emitted after it. -/
theorem passEmits_latch_flush_emitAll (r : Scans) (sel : Option Cand) (bs : List Byte) :
    PassEmits s (pendingInstr s ++ bs) 0 ((flush (inputBytes s) (latchScans r sel s)).bind (emitAll bs)) :=
  (emits_latchScans r sel s).passEmits (passEmits_flush_emitAll (inputBytes s) bs (s := latchScans r sel s) hroom)

variable (hp : s.enc.p < s.enc.n)
include hp

/-- A pass with a selection: the pending run, the instruction, and the cursor moves by its length (R167). -/
theorem stepEncoder_selected {c : Cand} (hc : selection s = some c) :
    StepWrites s (pendingInstr s ++ instrBytes c.kind c.len c.payload) 0
      (fun t => Emits s t (pendingInstr s ++ instrBytes c.kind c.len c.payload) c.len ∧ t.enc.litLen = 0) (stepEncoder s) := by
  rcases stepEncoder_cases s with ⟨hn, _⟩ | ⟨_, r, rfl, ⟨c', hc', he⟩ | ⟨hc', _⟩⟩
  · omega
  · obtain rfl : c = c' := Option.some.inj (hc.symm.trans hc')
    rw [he, passSelected_eq_map]
    refine (passEmits_latch_flush_emitAll hroom _ _ _).stepWrites fun u hu hem => ⟨?_, (litLen_of_flush_emitAll hu :)⟩
    simpa using hem.trans (emits_advance c.len u)
  · exact absurd (hc.symm.trans hc') (by simp)

variable (hc : selection s = none)
include hc

omit hroom in
theorem stepEncoder_literal : stepEncoder s =
    settle (passLiteral (inputBytes s) (latchScans (runScans s.params (inputBytes s) s.enc.n s.enc.p) none s)) := by
  rcases stepEncoder_cases s with ⟨hn, _⟩ | ⟨_, r, rfl, ⟨c, hc', _⟩ | ⟨_, he⟩⟩
  · omega
  · exact absurd (hc.symm.trans hc') (by simp)
  · exact he

omit hroom in
/-- A pass without a selection below `ENC_MAXLEN`: the byte joins the pending run (R168). -/
theorem stepEncoder_joins (hl : s.enc.litLen.toNat + 1 < Config.encMaxLen s.params) : stepEncoder s = .next (joined s) :=
  (stepEncoder_literal hp hc).trans (congrArg settle (passLiteral_joins (s := latchScans _ none s) _ hl))

/-- A pass without a selection that reaches `ENC_MAXLEN`: the pending run with the byte at the cursor is written (R168). -/
theorem stepEncoder_flushes (hl : s.enc.litLen.toNat + 1 = Config.encMaxLen s.params) :
    StepWrites s (pendingStream (inputBytes s) (joinRun s)) 1
      (fun t => Emits s t (pendingStream (inputBytes s) (joinRun s)) 1 ∧ t.enc.litLen = 0) (stepEncoder s) := by
  have hw : PassEmits (joined s) (pendingStream (inputBytes s) (joinRun s)) 0 (flush (inputBytes s) (joined s)) :=
    passEmits_flush _ hroom
  have hs : stepEncoder s = settle ((flush (inputBytes s) (joined s)).map id) := by
    rw [stepEncoder_literal hp hc, passLiteral_flushes (s := latchScans _ none s) _ hl, Except.map_id]
    rfl
  rw [hs]
  exact ((emits_joined s).passEmits hw).stepWrites fun v hv hem => ⟨hem, litLen_of_flush hv⟩

end

end Sys2Proof.Machine
end

section
/-! The block's invariant: what the buffers and the status registers hold, kept by each engine and by the host. The cursors and
the widths are kept by `step_cursorsHeld` and `step_positionsBelow`. -/

namespace Sys2Proof.Machine

open Sys2Proof.Safety

/-! ## The invariant's parts -/

/-- Both buffers are in canonical form, and IN holds positions below `IN_CAP` only. -/
structure BuffersHeld (s : State) : Prop where
  inForm : s.inMem.wf = true
  outForm : s.outMem.wf = true
  inWithin : ∀ a, (s.inMem.byteAt a).isSome → capHas s.params.inCap a = true

/-- The pending direct run is shorter than `ENC_MAXLEN` and ends at the cursor (10_state.md R18). -/
def PendingHeld (s : State) : Prop :=
  s.enc.litLen.toNat < Config.encMaxLen s.params ∧
  (0 < s.enc.litLen.toNat → s.enc.litStart + s.enc.litLen.toNat = s.enc.p)

/-- What the block's invariant says besides the cursors and the widths. -/
structure ContentsHeld (s : State) : Prop extends BuffersHeld s where
  errExact : s.err ≠ .none ↔ s.run = .error
  eosDone : s.eos = true → s.run = .done
  outLenDone : s.run ≠ .done → s.outLen = 0
  resultHeld : s.run = .done → OutFilled s s.outLen ∧ capFits s.params.outCap s.outLen = true
  decoder : Decoding s → OutFilled s s.dec.olen
  encoder : Encoding s → OutFilled s s.enc.olen ∧ PendingHeld s

theorem inv_contentsHeld {s : State} (h : Inv s) : ContentsHeld s where
  inForm := h.inForm
  outForm := h.outForm
  inWithin := h.inWithin
  errExact := h.errExact
  eosDone := h.eosDone
  outLenDone := h.outLenDone
  resultHeld := h.resultHeld
  decoder hs := by
    obtain ⟨_, hfilled, _⟩ := h.decoder hs
    exact hfilled
  encoder hs := by
    obtain ⟨_, _, hfilled, _⟩ := h.encoder hs
    exact ⟨hfilled, h.pending hs⟩

theorem inv_of_parts {s : State} (hc : CursorsHeld s) (h : ContentsHeld s)
    (hw : s.params.legal = true → ∀ w, s.params.aw = some w → PositionsBelow w s) : Inv s where
  inForm := h.inForm
  outForm := h.outForm
  inWithin := h.inWithin
  errExact := h.errExact
  eosDone := h.eosDone
  outLenDone := h.outLenDone
  resultHeld := h.resultHeld
  inputFits := hc.input
  decoder hs := by
    obtain ⟨hip, hroom⟩ := hc.decoder hs
    exact ⟨hip, h.decoder hs, hroom⟩
  encoder hs := by
    obtain ⟨hn, hp, hroom⟩ := hc.encoder hs
    exact ⟨hn, hp, (h.encoder hs).1, hroom⟩
  pending hs := (h.encoder hs).2
  widths := hw

/-! ## One run state at a time -/

section
variable {s : State}

/-- While a run is in progress it has neither an error nor a result. -/
theorem ContentsHeld.running (h : ContentsHeld s) (hr : s.run = .busy) : s.err = .none ∧ s.eos = false ∧ s.outLen = 0 := by
  refine ⟨?_, ?_, h.outLenDone (by simp [hr])⟩
  · by_contra he
    simp [h.errExact.mp he] at hr
  · by_contra he
    simp [h.eosDone (by simpa using he)] at hr

theorem contentsHeld_busy (hb : BuffersHeld s) (hr : s.run = .busy) (herr : s.err = .none) (heos : s.eos = false)
    (hlen : s.outLen = 0) (hd : Decoding s → OutFilled s s.dec.olen) (he : Encoding s → OutFilled s s.enc.olen ∧ PendingHeld s) :
    ContentsHeld s where
  toBuffersHeld := hb
  errExact := by simp [hr, herr]
  eosDone := by simp [heos]
  outLenDone _ := hlen
  resultHeld := by simp [hr]
  decoder := hd
  encoder := he

theorem contentsHeld_done (hb : BuffersHeld s) (hr : s.run = .done) (herr : s.err = .none)
    (hres : OutFilled s s.outLen ∧ capFits s.params.outCap s.outLen = true) : ContentsHeld s where
  toBuffersHeld := hb
  errExact := by simp [hr, herr]
  eosDone _ := hr
  outLenDone h := absurd hr h
  resultHeld _ := hres
  decoder hd := by simp [Decoding, hr] at hd
  encoder he := by simp [Encoding, hr] at he

theorem contentsHeld_raise {e : Engine} {f : ErrCode} {pos : Nat} (hb : BuffersHeld s) (heos : s.eos = false) (hf : f ≠ .none) :
    ContentsHeld (raise e f pos s) where
  inForm := by simpa using hb.inForm
  outForm := by simpa using hb.outForm
  inWithin := by simpa using hb.inWithin
  errExact := by simpa using hf
  eosDone := by simp [heos]
  outLenDone := by simp
  resultHeld := by simp
  decoder hd := by simp [Decoding] at hd
  encoder he := by simp [Encoding] at he

/-- A block that is not running stays so when the host writes `OP`, `IN_LEN` or IN. -/
theorem ContentsHeld.loaded (h : ContentsHeld s) (hr : s.run ≠ .busy) (e : Engine) (n : Nat) {m : Mem} (hm : m.wf = true)
    (hin : ∀ a, (m.byteAt a).isSome → capHas s.params.inCap a = true) :
    ContentsHeld { s with op := e, inLen := n, inMem := m } where
  inForm := hm
  outForm := h.outForm
  inWithin := hin
  errExact := h.errExact
  eosDone := h.eosDone
  outLenDone := h.outLenDone
  resultHeld := h.resultHeld
  decoder hd := absurd hd.1 hr
  encoder he := absurd he.1 hr

end

/-! ## The decoder -/

/-- A step of a running decoder keeps OUT filled to its write position. -/
theorem stepDecoder_outFilled {s t : State} (hs : OutFilled s s.dec.olen) (h : stepDecoder s = .next t)
    (ht : Decoding t) : OutFilled t t.dec.olen := by
  rcases stepDecoder_next h with ⟨f, g, _, rfl⟩ | ⟨hd, m, g, rfl, hw, _⟩ | ⟨b, ip', g, _, rfl⟩
  · simp [Decoding] at ht
  · exact hw.filled hs
  · simp [Decoding] at ht

theorem stepDecoder_contentsHeld {s t : State} (hd : Decoding s) (hc : CursorsHeld s) (hs : ContentsHeld s)
    (h : stepDecoder s = .next t) : ContentsHeld t := by
  obtain ⟨herr, heos, hlen⟩ := hs.running hd.1
  have hfilled := stepDecoder_outFilled (hs.decoder hd) h
  rcases stepDecoder_next h with ⟨f, g, hf, rfl⟩ | ⟨hdr, m, g, rfl, hw, _⟩ | ⟨b, ip', g, _, rfl⟩
  · exact contentsHeld_raise ⟨hs.inForm, hs.outForm, hs.inWithin⟩ heos hf
  · exact contentsHeld_busy ⟨hs.inForm, hw.form hs.outForm, hs.inWithin⟩ hd.1 herr heos hlen hfilled
      fun he => absurd (hd.2.symm.trans he.2) (by decide)
  · exact contentsHeld_done ⟨hs.inForm, hs.outForm, hs.inWithin⟩ rfl herr ⟨hs.decoder hd, (hc.decoder hd).2⟩

/-! ## The encoder -/

theorem pendingHeld_of_empty {s : State} (h : s.enc.litLen = 0) : PendingHeld s := by
  rcases encMaxLen_cases s.params with hm | hm <;> simp [PendingHeld, h, hm]

/-- A byte that joins the pending run stands right after it. -/
theorem pendingHeld_joined {s : State} (hs : PendingHeld s) (hl : s.enc.litLen.toNat + 1 < Config.encMaxLen s.params) :
    PendingHeld (joined s) := by
  have hlen : (joined s).enc.litLen.toNat = s.enc.litLen.toNat + 1 := joinRun_litLen_toNat hl.le
  have hstart : (joined s).enc.litStart = if s.enc.litLen.toNat = 0 then s.enc.p else s.enc.litStart := rfl
  have hp : (joined s).enc.p = s.enc.p + 1 := rfl
  refine ⟨hlen ▸ hl, fun _ => ?_⟩
  rw [hlen, hstart, hp]
  split
  · omega
  · have := hs.2 (by omega)
    omega

/-- Everything a step of a running encoder can leave: it wrote and goes on with a pending run as it should be, it wrote and
stopped normally, or it ran out of room. -/
theorem stepEncoder_writes {s t : State} (hroom : capFits s.params.outCap s.enc.olen = true) (hs : PendingHeld s)
    (h : stepEncoder s = .next t) :
    (∃ bs d, Emits s t bs d ∧ PendingHeld t) ∨
    (∃ u bs, Emits s u bs 0 ∧ capFits s.params.outCap u.enc.olen = true ∧ t = stopEnc u) ∨ ∃ d, RunsOut s d t := by
  rcases Nat.lt_or_ge s.enc.p s.enc.n with hp | hp
  · cases hc : selection s with
    | some c =>
      rcases stepEncoder_selected hroom hp hc with ⟨_, u, hu, hem, hl⟩ | ⟨_, u, hu, hout⟩ <;> rw [h] at hu <;> cases hu
      · exact .inl ⟨_, _, hem, pendingHeld_of_empty hl⟩
      · exact .inr (.inr ⟨0, hout⟩)
    | none =>
      rcases Nat.lt_or_eq_of_le (Nat.succ_le_of_lt hs.1) with hl | hl
      · have hu := stepEncoder_joins hp hc hl
        rw [h] at hu
        cases hu
        exact .inl ⟨_, _, emits_joined s, pendingHeld_joined hs hl⟩
      · rcases stepEncoder_flushes hroom hp hc hl with ⟨_, u, hu, hem, hl⟩ | ⟨_, u, hu, hout⟩ <;> rw [h] at hu <;> cases hu
        · exact .inl ⟨_, _, hem, pendingHeld_of_empty hl⟩
        · exact .inr (.inr ⟨1, hout⟩)
  · rcases stepEncoder_finish hroom hp with ⟨hf, u, hu, v, rfl, hem, _⟩ | ⟨_, u, hu, hout⟩ <;> rw [h] at hu <;> cases hu
    · exact .inr (.inl ⟨v, _, hem, by rwa [hem.olen], rfl⟩)
    · exact .inr (.inr ⟨0, hout⟩)

/-- The pending run of an encoder that goes on is as it should be. -/
theorem stepEncoder_pendingHeld {s t : State} (hroom : capFits s.params.outCap s.enc.olen = true) (hs : PendingHeld s)
    (h : stepEncoder s = .next t) (ht : t.run = .busy) : PendingHeld t := by
  rcases stepEncoder_writes hroom hs h with ⟨_, _, _, hp⟩ | ⟨u, _, _, _, rfl⟩ | ⟨_, u, _, _, _, rfl⟩
  · exact hp
  · simp at ht
  · simp at ht

theorem Emits.buffersHeld {s u : State} {bs : List Byte} {d : Nat} (h : Emits s u bs d) (hs : BuffersHeld s) :
    BuffersHeld u := by
  obtain ⟨⟨_, _, rfl⟩, _⟩ := h
  exact ⟨hs.inForm, Mem.wf_storeRun _ _ hs.outForm, hs.inWithin⟩

theorem stepEncoder_contentsHeld {s t : State} (he : Encoding s) (hc : CursorsHeld s) (hs : ContentsHeld s)
    (h : stepEncoder s = .next t) : ContentsHeld t := by
  obtain ⟨herr, heos, hlen⟩ := hs.running he.1
  obtain ⟨_, _, hroom⟩ := hc.encoder he
  obtain ⟨hfilled, hpend⟩ := hs.encoder he
  rcases stepEncoder_writes hroom hpend h with ⟨bs, d, hem, hp⟩ | ⟨u, bs, hem, hfit, rfl⟩ | ⟨d, u, as, hem, _, rfl⟩
  all_goals
    have hb := hem.buffersHeld hs.toBuffersHeld
    have hf := hem.outFilled hfilled
    obtain ⟨⟨_, _, rfl⟩, _⟩ := hem
  · exact contentsHeld_busy hb he.1 herr heos hlen (fun hd => absurd (he.2.symm.trans hd.2) (by decide)) fun _ => ⟨hf, hp⟩
  · exact contentsHeld_done ⟨hb.inForm, hb.outForm, hb.inWithin⟩ rfl herr ⟨hf, hfit⟩
  · exact contentsHeld_raise hb heos (by decide)

/-! ## The host -/

theorem outFilled_nil {s : State} (h : s.outMem = []) : OutFilled s 0 := by simp [OutFilled, h]

/-- Storing a byte of IN below `IN_CAP` (20_memory.md R40). -/
theorem BuffersHeld.store {s : State} (h : BuffersHeld s) {a : Nat} (b : Byte) (ha : capHas s.params.inCap a = true) (c : Nat)
    (hc : ((s.inMem.store a b).byteAt c).isSome) : capHas s.params.inCap c = true := by
  rw [Mem.byteAt_store] at hc
  split at hc
  · subst c
    exact ha
  · exact h.inWithin c hc

/-- The block after power-on reset, whatever the model's own fields go on with (log 21). -/
theorem contentsHeld_reset (c : Params) (turns : List HostTurn) (v k r : Nat) :
    ContentsHeld { State.resetWith c with host := turns, hostData := v, fresh := k, resets := r } where
  inForm := rfl
  outForm := rfl
  inWithin _ h := nomatch h
  errExact := by simp [State.resetWith]
  eosDone h := nomatch h
  outLenDone _ := rfl
  resultHeld h := nomatch h
  decoder h := nomatch h.1
  encoder h := nomatch h.1

theorem hostAct_contentsHeld {o : HostOp} {s t : State} (hs : ContentsHeld s) (h : hostAct o s = .next t) :
    ContentsHeld t := by
  rcases hostAct_next h with
    ⟨_, _, rfl | rfl⟩ | ⟨hr, e, rfl⟩ | ⟨hr, n, _, rfl⟩ | ⟨hr, a, b, ha, rfl⟩ | ⟨v, rfl⟩ | rfl
  · exact contentsHeld_busy ⟨hs.inForm, rfl, hs.inWithin⟩ rfl rfl rfl rfl (fun _ => outFilled_nil rfl) fun he => nomatch he.2
  · exact contentsHeld_busy ⟨hs.inForm, rfl, hs.inWithin⟩ rfl rfl rfl rfl (fun hd => nomatch hd.2)
      fun _ => ⟨outFilled_nil rfl, pendingHeld_of_empty rfl⟩
  · exact hs.loaded hr e s.inLen hs.inForm hs.inWithin
  · exact hs.loaded hr s.op n hs.inForm hs.inWithin
  · exact hs.loaded hr s.op s.inLen (Mem.wf_store a b hs.inForm) (hs.toBuffersHeld.store b ha)
  · exact ⟨⟨hs.inForm, hs.outForm, hs.inWithin⟩, hs.errExact, hs.eosDone, hs.outLenDone, hs.resultHeld, hs.decoder, hs.encoder⟩
  · exact contentsHeld_reset s.params s.host s.hostData (s.fresh + 1) (s.resets + 1)

/-! ## The step -/

/-- Every step keeps what the buffers and the status registers hold. -/
theorem step_contentsHeld {s t : State} (hc : CursorsHeld s) (hs : ContentsHeld s) (h : step s = .next t) :
    ContentsHeld t := by
  have kept : CursorsHeld t ∧ ContentsHeld t := by
    refine step_keeps (P := fun u => CursorsHeld u ∧ ContentsHeld u) ?turn ?dec ?enc ?act ⟨hc, hs⟩ h
    case turn =>
      exact fun u _ ⟨hc, hs⟩ => ⟨⟨hc.input, hc.decoder, hc.encoder⟩, ⟨hs.inForm, hs.outForm, hs.inWithin⟩, hs.errExact,
        hs.eosDone, hs.outLenDone, hs.resultHeld, hs.decoder, hs.encoder⟩
    case dec => exact fun u v hd ⟨hc, hs⟩ hv => ⟨stepDecoder_cursorsHeld hd hc hv, stepDecoder_contentsHeld hd hc hs hv⟩
    case enc => exact fun u v he ⟨hc, hs⟩ hv => ⟨stepEncoder_cursorsHeld he hc hv, stepEncoder_contentsHeld he hc hs hv⟩
    case act => exact fun o u v ⟨hc, hs⟩ hv => ⟨hostAct_cursorsHeld hc hv, hostAct_contentsHeld hs hv⟩
  exact kept.2

theorem inv_resetWith (c : Params) : Inv (State.resetWith c) :=
  inv_of_parts (cursorsHeld_of_not_busy (by simp [State.resetWith])) (contentsHeld_reset c [] 0 0 0)
    fun _ w _ => (have hw := Nat.two_pow_pos w; ⟨hw, hw, hw, hw, hw, hw, hw, hw, hw, hw, hw⟩)

end Sys2Proof.Machine
end

section
/-! Two runs on the same input: a step of each leaves two runs that still agree, or two ended runs with the same result. -/

namespace Sys2Proof.Machine

open Sys2Proof.Safety

/-! ## The step of a running engine whose host is quiet -/

theorem step_decoding {s : State} (hs : Decoding s) (hq : s.host = []) : step s = stepDecoder s :=
  (step_quiet_nil hq).trans (stepEngine_decoding hs.1 hs.2)

theorem step_encoding {s : State} (hs : Encoding s) (hq : s.host = []) : step s = stepEncoder s :=
  (step_quiet_nil hq).trans (stepEngine_encoding hs.1 hs.2)

/-! ## Runs that agree -/

/-- Two blocks in a run of the engine `e`, their hosts quiet, with the same parameters, the same input and the same bytes in
OUT. -/
structure RunsAlike (e : Engine) (s u : State) : Prop where
  running : s.run = .busy ∧ u.run = .busy
  op : s.op = e ∧ u.op = e
  quiet : s.host = [] ∧ u.host = []
  params : s.params = u.params
  inLen : s.inLen = u.inLen
  input : ∀ a, a < s.inLen → inByte s a = inByte u a
  err : s.err = u.err
  eos : s.eos = u.eos
  outLen : s.outLen = 0 ∧ u.outLen = 0
  outMem : s.outMem = u.outMem

/-- Two DEC runs at the same point. Their latches may differ. -/
structure DecodesAlike (s u : State) : Prop extends RunsAlike .decompress s u where
  ip : s.dec.ip = u.dec.ip
  olen : s.dec.olen = u.dec.olen

/-- Two ENC runs at the same point. Their latches may differ, and `LIT_START` too while nothing is pending. -/
structure EncodesAlike (s u : State) : Prop extends RunsAlike .compress s u where
  n : s.enc.n = u.enc.n
  p : s.enc.p = u.enc.p
  olen : s.enc.olen = u.enc.olen
  litLen : s.enc.litLen = u.enc.litLen
  litStart : s.enc.litLen.toNat ≠ 0 → s.enc.litStart = u.enc.litStart

/-- Two ended runs with the same result. -/
structure EndsAlike (s u : State) : Prop where
  ended : s.run ≠ .busy
  quiet : s.host = [] ∧ u.host = []
  result : SameResult s u

/-- Both answers are next states, which `R` relates. -/
def BothNext (R : State → State → Prop) (a b : Answer) : Prop := ∃ t v, a = .next t ∧ b = .next v ∧ R t v

theorem inBytes_eq {s u : State} {a n : Nat} (h : ∀ k, k < n → inByte s (a + k) = inByte u (a + k)) :
    inBytes s a n = inBytes u a n :=
  List.map_congr_left fun k hk => h k (List.mem_range.mp hk)

/-- Two running blocks cannot be told apart yet. -/
theorem RunsAlike.sameResult {e : Engine} {s u : State} (h : RunsAlike e s u) : SameResult s u := by
  obtain ⟨hs, hu⟩ := h.running
  obtain ⟨hls, hlu⟩ := h.outLen
  exact ⟨hs.trans hu.symm, h.err, h.eos, hls.trans hlu.symm, by simp [resultBytes, hls, hlu, Mem.runFrom], by simp [hs],
    by simp [hs]⟩

/-- The fault entry at the same position leaves the same result, whatever OUT holds: there is no output (R198). -/
theorem endsAlike_raise {e : Engine} {f : ErrCode} {pos pos' : Nat} {s u : State} (hq : s.host = [] ∧ u.host = [])
    (heos : s.eos = u.eos) (hpos : pos = pos') : EndsAlike (raise e f pos s) (raise e f pos' u) where
  ended := by simp
  quiet := by simpa using hq
  result := by simp [SameResult, heos, hpos, resultBytes, Mem.runFrom]

/-! ## The decoder -/

section
variable {s u : State}

theorem DecodesAlike.decoding (h : DecodesAlike s u) : Decoding s ∧ Decoding u :=
  ⟨⟨h.running.1, h.op.1⟩, ⟨h.running.2, h.op.2⟩⟩

/-- Two DEC runs that raise the same fault, whatever latches they have written. -/
theorem DecodesAlike.raise (h : DecodesAlike s u) (f : ErrCode) (g g' : DecLatch → DecLatch) :
    EndsAlike (raise .decompress f s.dec.ip (latchOperands g s)) (raise .decompress f u.dec.ip (latchOperands g' u)) :=
  endsAlike_raise h.quiet h.eos h.ip

theorem DecodesAlike.finishCopy (h : DecodesAlike s u) (hd : Header) (m : Mem) (g g' : DecLatch → DecLatch) :
    DecodesAlike (finishCopy hd m (latchOperands g s)) (finishCopy hd m (latchOperands g' u)) :=
  { h with
    outMem := rfl
    ip := by simp [h.ip]
    olen := by simp [h.olen] }

theorem DecodesAlike.stopDec (h : DecodesAlike s u) (b : Bool) (d : Nat) (g g' : DecLatch → DecLatch) :
    EndsAlike (stopDec b { latchOperands g s with dec := { (latchOperands g s).dec with ip := s.dec.ip + d } })
      (stopDec b { latchOperands g' u with dec := { (latchOperands g' u).dec with ip := u.dec.ip + d } }) where
  ended := by simp
  quiet := h.quiet
  result := by simp [SameResult, resultBytes, h.err, h.ip, h.olen, h.outMem]

/-- Two DEC runs after a step: they go on alike or have ended alike. -/
def DecodedAlike (t v : State) : Prop := DecodesAlike t v ∨ EndsAlike t v

theorem DecodesAlike.payloadMissing (h : DecodesAlike s u) (hd : Header) : payloadMissing hd s = payloadMissing hd u := by
  simp [Machine.payloadMissing, h.inLen, h.ip]

theorem DecodesAlike.overflows (h : DecodesAlike s u) (n : Nat) :
    overflows s.params s.dec.olen n = overflows u.params u.dec.olen n := by
  rw [h.params, h.olen]

theorem runAppend_alike (h : DecodesAlike s u) (hd : Header) (f : DecLatch → DecLatch) (bs : List Byte) :
    BothNext DecodedAlike (runAppend hd f bs s) (runAppend hd f bs u) := by
  unfold runAppend
  rw [h.payloadMissing, h.overflows]
  split
  · exact ⟨_, _, rfl, rfl, .inr (h.raise .truncated _ _)⟩
  · split
    · exact ⟨_, _, rfl, rfl, .inr (h.raise .outputOverflow _ _)⟩
    · refine ⟨_, _, rfl, rfl, .inl ?_⟩
      simp only [appendBytes_eq, latchOperands_outMem, latchOperands_dec_olen, latchHeader_outMem, latchHeader_dec_olen,
        h.outMem, h.olen]
      exact h.finishCopy hd _ (f ∘ headerLatch hd) (f ∘ headerLatch hd)

/-- A copy out of a filled OUT reads no free value (42_repeat.md R138). -/
theorem copyBytes_free_eq (free free' : Nat → Byte) {n src dst : Nat} {m : Mem} (hs : src < dst)
    (hm : ∀ a, (m.byteAt a).isSome ↔ a < dst) : copyBytes free n src dst m = copyBytes free' n src dst m := by
  induction n generalizing src dst m with
  | zero => rfl
  | succ n ih =>
    obtain ⟨b, hb⟩ := Option.isSome_iff_exists.mp ((hm src).mpr hs)
    rw [copyBytes, copyBytes, Mem.readOr_of_byteAt hb, Mem.readOr_of_byteAt hb]
    exact ih (by omega) fun a => storeRun_filled [b] hm a

theorem runRepeat_alike (h : DecodesAlike s u) (hf : OutFilled s s.dec.olen) (hd : Header) (f f' : DecLatch → DecLatch)
    {src src' : Option Nat} (hlt : ∀ a, src = some a → a < s.dec.olen) (hsrc : src = src') :
    BothNext DecodedAlike (runRepeat hd f src s) (runRepeat hd f' src' u) := by
  subst hsrc
  unfold runRepeat
  rw [h.payloadMissing, h.overflows]
  split
  · exact ⟨_, _, rfl, rfl, .inr (h.raise .truncated _ _)⟩
  · cases src with
    | none => exact ⟨_, _, rfl, rfl, .inr (h.raise .invalidOffset (f ∘ headerLatch hd) (f' ∘ headerLatch hd))⟩
    | some a =>
      dsimp only
      split
      · exact ⟨_, _, rfl, rfl, .inr (h.raise .outputOverflow (srcLatch a ∘ f ∘ headerLatch hd)
          (srcLatch a ∘ f' ∘ headerLatch hd))⟩
      · refine ⟨_, _, rfl, rfl, .inl ?_⟩
        rw [copyBytes_free_eq _ (Config.freeOut u.fresh) (hlt a rfl) hf, ← h.outMem, ← h.olen]
        exact h.finishCopy hd _ (srcLatch a ∘ f ∘ headerLatch hd) (srcLatch a ∘ f' ∘ headerLatch hd)

/-- One instruction in two DEC runs at the same point. -/
theorem exec_alike (h : DecodesAlike s u) (hf : OutFilled s s.dec.olen) (i : Instr) :
    BothNext DecodedAlike (exec i s) (exec i u) := by
  cases i with
  | dcopy | bfill | wfill | ifill | dcopyX | bfillX | wfillX | ifillX => exact runAppend_alike h _ _ _
  | rabs _ pos | rabsX _ _ pos =>
    exact runRepeat_alike h hf _ _ _ (fun _ => absSource_lt) (congrArg (absSource pos) h.olen)
  | rrel _ dist | rrelX _ _ dist =>
    exact runRepeat_alike h hf _ _ _ (fun _ => relSource_lt) (congrArg (relSource dist) h.olen)
  | ralt | raltX | extRsvd => exact ⟨_, _, rfl, rfl, .inr (h.raise _ (headerLatch _) (headerLatch _))⟩
  | endStream => exact ⟨_, _, rfl, rfl, .inr (h.stopDec true 1 (firstLatch _) (firstLatch _))⟩

theorem DecodesAlike.window (h : DecodesAlike s u) : window s = window u := by
  unfold Machine.window bytesLeft
  rw [← h.ip, ← h.inLen]
  exact inBytes_eq fun k hk => h.input _ (by omega)

theorem stepDecoder_alike (h : DecodesAlike s u) (hf : OutFilled s s.dec.olen) :
    BothNext DecodedAlike (stepDecoder s) (stepDecoder u) := by
  unfold stepDecoder fetch
  rw [← h.window, ← h.ip, ← h.inLen]
  split_ifs
  · exact ⟨_, _, rfl, rfl, .inr (h.stopDec false 0 id id)⟩
  · cases decode (Machine.window s) with
    | ok i rest => exact exec_alike h hf i
    | rejected r =>
      obtain ⟨g, hg⟩ := fetchShort_cases r s
      obtain ⟨g', hg'⟩ := fetchShort_cases r u
      exact ⟨_, _, rfl, rfl, .inr (hg ▸ hg' ▸ h.raise .truncated g g')⟩

end

/-! ## The encoder -/

section
variable {s u t v : State} {bs : List Byte} {d : Nat}

theorem EncodesAlike.encoding (h : EncodesAlike s u) : Encoding s ∧ Encoding u :=
  ⟨⟨h.running.1, h.op.1⟩, ⟨h.running.2, h.op.2⟩⟩

theorem EncodesAlike.inputBytes (h : EncodesAlike s u) (hn : s.enc.n = s.inLen) : inputBytes s = inputBytes u := by
  unfold Safety.inputBytes
  rw [← h.n]
  exact inBytes_eq fun k hk => h.input _ (by omega)

theorem pendingStream_eq (x : List Byte) (hl : s.enc.litLen = u.enc.litLen)
    (hs : s.enc.litLen.toNat ≠ 0 → s.enc.litStart = u.enc.litStart) : pendingStream x s = pendingStream x u := by
  unfold pendingStream pendingBytes
  rw [← hl]
  split
  · rfl
  · rename_i h0
    rw [hs h0]

/-- Two ENC runs that wrote the same bytes and moved as far. -/
theorem EncodesAlike.emits (h : EncodesAlike s u) (hs : Emits s t bs d) (hu : Emits u v bs d)
    (hl : t.enc.litLen = v.enc.litLen) (hst : t.enc.litLen.toNat ≠ 0 → t.enc.litStart = v.enc.litStart) : EncodesAlike t v := by
  have hn : t.enc.n = v.enc.n := by rw [hs.n, hu.n, h.n]
  have hp : t.enc.p = v.enc.p := by rw [hs.p, hu.p, h.p]
  have ho : t.enc.olen = v.enc.olen := by rw [hs.olen, hu.olen, h.olen]
  have hm : t.outMem = v.outMem := by rw [hs.outMem, hu.outMem, h.outMem, h.olen]
  obtain ⟨⟨_, _, rfl⟩, _⟩ := hs
  obtain ⟨⟨_, _, rfl⟩, _⟩ := hu
  exact { h with outMem := hm, n := hn, p := hp, olen := ho, litLen := hl, litStart := hst }

theorem EncodesAlike.stopEnc (h : EncodesAlike s u) : EndsAlike (stopEnc s) (stopEnc u) where
  ended := by simp
  quiet := h.quiet
  result := by simp [SameResult, resultBytes, h.err, h.eos, h.n, h.olen, h.outMem]

theorem EncodesAlike.runsOut (h : EncodesAlike s u) (hs : RunsOut s d t) (hu : RunsOut u d v) : EndsAlike t v := by
  obtain ⟨t, as, hs, _, rfl⟩ := hs
  obtain ⟨v, cs, hu, _, rfl⟩ := hu
  have hp : t.enc.p = v.enc.p := by rw [hs.p, hu.p, h.p]
  obtain ⟨⟨_, _, rfl⟩, _⟩ := hs
  obtain ⟨⟨_, _, rfl⟩, _⟩ := hu
  exact endsAlike_raise h.quiet h.eos hp

/-- Two ENC runs after a step: they go on alike or have ended alike. -/
def EncodedAlike (t v : State) : Prop := EncodesAlike t v ∨ EndsAlike t v

/-- Two ENC runs that are to write the same bytes either both have room for them or both run out. -/
theorem StepWrites.alike {Q Q' : State → Prop} {a b : Answer} (h : EncodesAlike s u) (hs : StepWrites s bs d Q a)
    (hu : StepWrites u bs d Q' b) (hQ : ∀ t v, Q t → Q' v → EncodedAlike t v) : BothNext EncodedAlike a b := by
  unfold StepWrites at hs hu
  rw [← h.params, ← h.olen] at hu
  rcases hs with ⟨hf, t, ha, ht⟩ | ⟨hf, t, ha, ht⟩ <;> rcases hu with ⟨hf', v, hb, hv⟩ | ⟨hf', v, hb, hv⟩
  · exact ⟨t, v, ha, hb, hQ t v ht hv⟩
  · simp [hf] at hf'
  · simp [hf] at hf'
  · exact ⟨t, v, ha, hb, .inr (h.runsOut ht hv)⟩

theorem stepEncoder_alike (h : EncodesAlike s u) (hc : CursorsHeld s) (hpend : PendingHeld s) :
    BothNext EncodedAlike (stepEncoder s) (stepEncoder u) := by
  obtain ⟨hn, _, hroom⟩ := hc.encoder h.encoding.1
  have hroom' : capFits u.params.outCap u.enc.olen = true := by rwa [← h.params, ← h.olen]
  have hx := h.inputBytes hn
  have hps : pendingInstr s = pendingInstr u := by
    rw [← pendingStream_inputBytes, ← pendingStream_inputBytes, ← hx]
    exact pendingStream_eq _ h.litLen h.litStart
  rcases Nat.lt_or_ge s.enc.p s.enc.n with hp | hp
  · have hp' : u.enc.p < u.enc.n := by rwa [← h.p, ← h.n]
    have hselect : selection u = selection s := by
      unfold selection
      rw [hx, h.p, h.n, h.params]
    cases hsel : selection s with
    | some c =>
      have hu := stepEncoder_selected hroom' hp' (hselect.trans hsel)
      rw [← hps] at hu
      exact (stepEncoder_selected hroom hp hsel).alike h hu fun t v ⟨ht, hlt⟩ ⟨hv, hlv⟩ =>
        .inl (h.emits ht hv (hlt.trans hlv.symm) (by simp [hlt]))
    | none =>
      have hsel' := hselect.trans hsel
      have hstart : (joinRun s).enc.litStart = (joinRun u).enc.litStart := by
        simp only [joinRun_enc_litStart, ← h.litLen, ← h.p]
        split
        · rfl
        · exact h.litStart ‹_›
      have hlen : (joinRun s).enc.litLen = (joinRun u).enc.litLen := by simp [h.litLen]
      rcases Nat.lt_or_eq_of_le (Nat.succ_le_of_lt hpend.1) with hl | hl
      · exact ⟨_, _, stepEncoder_joins hp hsel hl, stepEncoder_joins hp' hsel' (by rwa [← h.litLen, ← h.params]),
          .inl (h.emits (emits_joined s) (emits_joined u) hlen fun _ => hstart)⟩
      · have hu := stepEncoder_flushes hroom' hp' hsel' (by rwa [← h.litLen, ← h.params])
        rw [← hx, ← pendingStream_eq (inputBytes s) hlen fun _ => hstart] at hu
        exact (stepEncoder_flushes hroom hp hsel hl).alike h hu fun t v ⟨ht, hlt⟩ ⟨hv, hlv⟩ =>
          .inl (h.emits ht hv (hlt.trans hlv.symm) (by simp [hlt]))
  · have hu := stepEncoder_finish hroom' (by rwa [← h.p, ← h.n])
    rw [← hps] at hu
    refine (stepEncoder_finish hroom hp).alike h hu ?_
    rintro _ _ ⟨t, rfl, ht, hlt⟩ ⟨v, rfl, hv, hlv⟩
    exact .inr (h.emits ht hv (hlt.trans hlv.symm) (by simp [hlt])).stopEnc

end

/-! ## Runs -/

/-- Two blocks that agree, with what a run in progress needs to go on agreeing. -/
def Alike (s u : State) : Prop :=
  (DecodesAlike s u ∧ OutFilled s s.dec.olen) ∨ (EncodesAlike s u ∧ CursorsHeld s ∧ PendingHeld s) ∨ EndsAlike s u

theorem Alike.sameResult {s u : State} (h : Alike s u) : SameResult s u := by
  rcases h with ⟨h, _⟩ | ⟨h, _⟩ | h
  · exact h.sameResult
  · exact h.sameResult
  · exact h.result

theorem step_alike {s u : State} (h : Alike s u) : BothNext Alike (step s) (step u) := by
  rcases h with ⟨h, hf⟩ | ⟨h, hc, hpend⟩ | h
  · rw [step_decoding h.decoding.1 h.quiet.1, step_decoding h.decoding.2 h.quiet.2]
    obtain ⟨t, v, ht, hv, hg | he⟩ := stepDecoder_alike h hf
    · exact ⟨t, v, ht, hv, .inl ⟨hg, stepDecoder_outFilled hf ht hg.decoding.1⟩⟩
    · exact ⟨t, v, ht, hv, .inr (.inr he)⟩
  · obtain ⟨_, _, hroom⟩ := hc.encoder h.encoding.1
    rw [step_encoding h.encoding.1 h.quiet.1, step_encoding h.encoding.2 h.quiet.2]
    obtain ⟨t, v, ht, hv, hg | he⟩ := stepEncoder_alike h hc hpend
    · exact ⟨t, v, ht, hv, .inr (.inl ⟨hg, stepEncoder_cursorsHeld h.encoding.1 hc ht,
        stepEncoder_pendingHeld hroom hpend ht hg.running.1⟩)⟩
    · exact ⟨t, v, ht, hv, .inr (.inr he)⟩
  · have hu : u.run ≠ .busy := h.result.1 ▸ h.ended
    exact ⟨s, u, (step_quiet_nil h.quiet.1).trans (stepEngine_holds h.ended),
      (step_quiet_nil h.quiet.2).trans (stepEngine_holds hu), .inr (.inr h)⟩

/-- Two blocks that agree have the same result after any number of steps. -/
theorem run_alike (k : Nat) {s u : State} (h : Alike s u) : SameRun (Sys2Proof.core.run k s) (Sys2Proof.core.run k u) := by
  induction k generalizing s u with
  | zero => exact h.sameResult
  | succ k ih =>
    obtain ⟨t, v, ht, hv, hk⟩ := step_alike h
    have hs : Sys2Proof.core.step s = .next t := ht
    have hu : Sys2Proof.core.step u = .next v := hv
    simp only [Host.Core.run, hs, hu]
    exact ih hk

section
variable {s u : State} (hparams : s.params = u.params) (hlen : s.inLen = u.inLen)
  (hin : ∀ a, a < s.inLen → inByte s a = inByte u a) (hq : s.host = [] ∧ u.host = [])
include hparams hlen hin hq

theorem startDec_alike : Alike (startDec s) (startDec u) := by
  have ha : RunsAlike .decompress (startDec s) (startDec u) :=
    ⟨⟨rfl, rfl⟩, ⟨rfl, rfl⟩, hq, hparams, hlen, hin, rfl, rfl, ⟨rfl, rfl⟩, rfl⟩
  exact .inl ⟨⟨ha, rfl, rfl⟩, outFilled_nil rfl⟩

theorem startEnc_alike (hfits : capFits s.params.inCap s.inLen = true) : Alike (startEnc s) (startEnc u) := by
  have hc : CursorsHeld (startEnc s) :=
    ⟨fun _ => hfits, fun hd => (nomatch hd.2), fun _ => ⟨rfl, Nat.zero_le _, capFits_zero _⟩⟩
  have ha : RunsAlike .compress (startEnc s) (startEnc u) :=
    ⟨⟨rfl, rfl⟩, ⟨rfl, rfl⟩, hq, hparams, hlen, hin, rfl, rfl, ⟨rfl, rfl⟩, rfl⟩
  exact .inr (.inl ⟨⟨ha, hlen, rfl, rfl, rfl, fun h => absurd rfl h⟩, hc, pendingHeld_of_empty rfl⟩)

end

end Sys2Proof.Machine
end

section
/-! What an instruction, an engine and the host's reads leave: a next state, the header latches, and the frames. -/

namespace Sys2Proof.Machine

open Sys2Proof.Safety

/-! ## Every instruction and every step of a quiet host answers a next state -/

theorem runAppend_next (hd : Header) (f : DecLatch → DecLatch) (bs : List Byte) (s : State) :
    ∃ t, runAppend hd f bs s = .next t := by
  rcases runAppend_cases hd f bs s with ⟨_, e⟩ | ⟨_, _, e⟩ | ⟨_, _, e⟩ <;> exact ⟨_, e⟩

theorem runRepeat_next (hd : Header) (f : DecLatch → DecLatch) (src : Option Nat) (s : State) :
    ∃ t, runRepeat hd f src s = .next t := by
  rcases runRepeat_cases hd f src s with ⟨_, e⟩ | ⟨_, _, e⟩ | ⟨_, _, _, _, e⟩ | ⟨_, _, _, _, e⟩ <;> exact ⟨_, e⟩

theorem exec_next (i : Instr) (s : State) : ∃ t, exec i s = .next t := by
  cases i with
  | dcopy | bfill | wfill | ifill | dcopyX | bfillX | wfillX | ifillX => exact runAppend_next _ _ _ s
  | rabs | rabsX | rrel | rrelX => exact runRepeat_next _ _ _ s
  | ralt | raltX | extRsvd | endStream => exact ⟨_, rfl⟩

theorem stepDecoder_total (s : State) : ∃ t, stepDecoder s = .next t := by
  unfold stepDecoder
  split
  · exact exec_next _ s
  · exact ⟨_, rfl⟩

theorem stepEncoder_total (s : State) : ∃ t, stepEncoder s = .next t := by
  rcases stepEncoder_cases s with ⟨_, he⟩ | ⟨_, r, _, ⟨c, _, he⟩ | ⟨_, he⟩⟩ <;> rw [he] <;> exact settle_next _

theorem stepEngine_total (s : State) : ∃ t, stepEngine s = .next t := by
  by_cases hr : s.run = .busy
  · cases ho : s.op with
    | decompress => exact stepEngine_decoding hr ho ▸ stepDecoder_total s
    | compress => exact stepEngine_encoding hr ho ▸ stepEncoder_total s
  · exact ⟨s, stepEngine_holds hr⟩

/-! ## The header latches (10_state.md R13) -/

/-- The latches hold the header `hd`. -/
def HeaderHeld (hd : Header) (l : DecLatch) : Prop :=
  l.h = hd.first ∧ (∀ e, hd.second = some e → l.e = e) ∧ l.kind = hd.kind.toBits ∧ l.len = BitVec.ofNat 11 hd.len ∧
  l.hl = BitVec.ofNat 2 hd.headerLen

theorem headerHeld_headerLatch (hd : Header) (l : DecLatch) : HeaderHeld hd (headerLatch hd l) :=
  ⟨rfl, fun e he => by simp [headerLatch, he], rfl, rfl, rfl⟩

theorem runAppend_headerHeld {hd : Header} {f : DecLatch → DecLatch} {bs : List Byte} {s t : State}
    (hf : ∀ l, HeaderHeld hd l → HeaderHeld hd (f l)) (h : runAppend hd f bs s = .next t) : HeaderHeld hd t.dec.latch := by
  have hl := headerHeld_headerLatch hd s.dec.latch
  rcases runAppend_cases hd f bs s with ⟨_, e⟩ | ⟨_, _, e⟩ | ⟨_, _, e⟩ <;> rw [h] at e <;> cases e
  · exact hl
  · exact hl
  · exact hf _ hl

theorem runRepeat_headerHeld {hd : Header} {f : DecLatch → DecLatch} {src : Option Nat} {s t : State}
    (hf : ∀ l, HeaderHeld hd l → HeaderHeld hd (f l)) (h : runRepeat hd f src s = .next t) : HeaderHeld hd t.dec.latch := by
  have hl := hf _ (headerHeld_headerLatch hd s.dec.latch)
  rcases runRepeat_cases hd f src s with
    ⟨_, e⟩ | ⟨_, _, e⟩ | ⟨a, _, _, _, e⟩ | ⟨a, _, _, _, e⟩ <;> rw [h] at e <;> cases e
  · exact headerHeld_headerLatch hd s.dec.latch
  · exact hl
  · exact hl
  · exact hl

/-- No operand latch is a header latch, so every instruction but the terminator leaves its header in the latches. -/
theorem exec_headerHeld {i : Instr} {hd : Header} {s t : State} (hi : i.header = some hd) (h : exec i s = .next t) :
    HeaderHeld hd t.dec.latch := by
  cases i <;> cases hi
  case dcopy | bfill | wfill | ifill | dcopyX | bfillX | wfillX | ifillX => exact runAppend_headerHeld (by exact fun _ hl => hl) h
  case rabs | rabsX | rrel | rrelX => exact runRepeat_headerHeld (by exact fun _ hl => hl) h
  case ralt | raltX | extRsvd =>
    cases h
    exact headerHeld_headerLatch _ s.dec.latch

/-! ## A running engine -/

/-- What neither engine writes: IN, `IN_LEN`, `CTRL.OP` and the model's own fields for the host and for the contents of IN. -/
def KeepsInput (s t : State) : Prop :=
  t.inMem = s.inMem ∧ t.inLen = s.inLen ∧ t.op = s.op ∧ t.host = s.host ∧ t.hostData = s.hostData ∧ t.resets = s.resets

theorem stepDecoder_frame {s t : State} (h : stepDecoder s = .next t) : KeepsInput s t ∧ t.enc = s.enc := by
  rcases stepDecoder_next h with ⟨f, g, _, rfl⟩ | ⟨hd, m, g, rfl, _⟩ | ⟨b, ip', g, _, rfl⟩ <;>
    exact ⟨⟨rfl, rfl, rfl, rfl, rfl, rfl⟩, rfl⟩

theorem stepEncoder_frame {s t : State} (h : stepEncoder s = .next t) : KeepsInput s t ∧ t.dec = s.dec := by
  obtain ⟨u, d, hm, _, ht⟩ := stepEncoder_next h
  obtain ⟨m, e, k, rfl⟩ := hm.frame
  rcases ht with rfl | rfl | rfl <;> exact ⟨⟨rfl, rfl, rfl, rfl, rfl, rfl⟩, rfl⟩

/-! ## The encoder's room -/

section
variable {s t u : State} {bs : List Byte} {d : Nat} {Q : State → Prop} {o : Answer}

theorem Emits.frame_eq (h : Emits s t bs d) : t = { s with outMem := t.outMem, enc := t.enc, fresh := t.fresh } := by
  obtain ⟨⟨_, _, rfl⟩, _⟩ := h
  rfl

theorem StepWrites.room (h : StepWrites s bs d Q o) (hf : capFits s.params.outCap (s.enc.olen + bs.length) = true) :
    ∃ t, o = .next t ∧ Q t := by
  rcases h with ⟨_, ht⟩ | ⟨hf', _⟩
  · exact ht
  · simp [hf] at hf'

theorem capHas_of_capFits {cap : Option Nat} {n a : Nat} (h : capFits cap n = true) (ha : a < n) : capHas cap a = true := by
  cases cap with
  | none => rfl
  | some c =>
    simp only [capFits, capHas, decide_eq_true_eq] at h ⊢
    omega

/-- A step that runs out has written at positions between its old `OLEN` and `OUT_CAP` only. -/
theorem RunsOut.overflows (h : RunsOut s d t) : Overflows (.next t) s (s.enc.p + d) := by
  obtain ⟨u, as, hem, hroom, rfl⟩ := h
  have hbyte : ∀ a, a < s.enc.olen ∨ capHas s.params.outCap a = false → u.outMem.byteAt a = s.outMem.byteAt a := by
    intro a ha
    rw [hem.outMem, Mem.byteAt_storeRun, if_neg]
    rintro ⟨hle, hlt⟩
    rcases ha with ha | ha
    · omega
    · rw [capHas_of_capFits hroom (hem.olen ▸ hlt)] at ha
      cases ha
  have hn := hem.n
  have hp := hem.p
  obtain ⟨⟨_, _, rfl⟩, _⟩ := hem
  exact ⟨_, rfl, rfl, rfl, hp, rfl, rfl, hn, hp, hbyte, rfl⟩

theorem StepWrites.full (h : StepWrites s bs d Q o) (hf : capFits s.params.outCap (s.enc.olen + bs.length) = false) :
    Overflows o s (s.enc.p + d) := by
  rcases h with ⟨hf', _⟩ | ⟨_, t, rfl, ht⟩
  · simp [hf] at hf'
  · exact ht.overflows

end

/-- The pending run with the byte at the cursor, as the direct copy it is flushed as: bytes of the input that are all there. -/
theorem pendingStream_joinRun {s : State} (hs : PendingHeld s) (hp : s.enc.p < s.enc.n)
    (hl : s.enc.litLen.toNat + 1 = Config.encMaxLen s.params) :
    pendingStream (inputBytes s) (joinRun s) = headerBytes .direct (s.enc.litLen.toNat + 1) ++
      ((inputBytes s).drop s.enc.litStart).take (s.enc.litLen.toNat + 1) ∧
    (((inputBytes s).drop s.enc.litStart).take (s.enc.litLen.toNat + 1)).length = s.enc.litLen.toNat + 1 := by
  have hpos : s.enc.litLen.toNat ≠ 0 := by rcases encMaxLen_cases s.params with hm | hm <;> omega
  have hend := hs.2 (by omega)
  constructor
  · rw [pendingStream, pendingBytes, joinRun_litLen_toNat hl.le, joinRun_enc_litStart, if_neg (by omega), if_neg hpos]
    rfl
  · simp only [List.length_take, List.length_drop, inputBytes, length_inBytes]
    omega

/-! ## The host's accesses -/

/-- While a run is in progress the host may read `STATUS` and reset the block, and nothing else (10_state.md R32). -/
theorem hostAct_busy {o : HostOp} {s : State} (hr : s.run = .busy) (hs : o ≠ .readReg .status) (hp : o ≠ .powerOnReset) :
    hostAct o s = .refused .hostAccessWhileBusy := by
  have hb : isBusy s = true := (isBusy_iff s).mpr hr
  cases o with
  | writeCtrl | writeInLen | writeIn | readOut => exact if_pos hb
  | readReg r =>
    refine if_pos ?_
    cases r with
    | status => exact absurd rfl hs
    | ctrl | inLen | err | errPos | inPos | outLen => simp [hb, HostReg.readableWhileBusy]
  | powerOnReset => exact absurd rfl hp

theorem isBusy_eq_false {s : State} (h : s.run ≠ .busy) : isBusy s = false := by simpa [isBusy] using h

/-- The `STATUS` word as a number: `EOS` in bit 2, `STATE` below it (10_state.md R27). -/
theorem statusWord_toNat (s : State) : (statusWord s).toNat = (if s.eos then 4 else 0) + s.run.code.toNat := by
  rw [statusWord, BitVec.toNat_append]
  cases s.eos <;> cases s.run <;> rfl

/-- A register the host may read (10_state.md R24): the answer goes to `hostData`, and nothing else changes. -/
theorem step_readReg {s : State} {r : HostReg} {later : List HostTurn} (h : s.host = .act (.readReg r) :: later)
    (hr : r = .status ∨ s.run ≠ .busy) : step s = .next { s with host := later, hostData := regValue r s } := by
  rw [step_act h]
  refine if_neg ?_
  rcases hr with rfl | hr
  · simp [HostReg.readableWhileBusy]
  · have : isBusy { s with host := later } = false := isBusy_eq_false hr
    simp [this]

/-- A read of OUT outside a run (70_reset_and_hazards.md R226): the answer goes to `hostData`, and nothing else changes. -/
theorem step_readOut {s : State} {a : Nat} {later : List HostTurn} (h : s.host = .act (.readOut a) :: later)
    (hr : s.run ≠ .busy) (ha : capHas s.params.outCap a = true) :
    step s = .next { s with host := later, hostData := (outValue s a).toNat } := by
  have hb : isBusy { s with host := later } = false := isBusy_eq_false hr
  rw [step_act h]
  simp only [hostAct, hostReadOut, hb, ha, if_true, Bool.false_eq_true, if_false]
  rfl

end Sys2Proof.Machine
end

section
/-! The obligations of 10_state.md. -/

namespace Sys2Proof.Safety

open Sys2Proof.Machine

/-- Settles O32: the cursors, the contents and the widths are each kept by both engines and by the host. -/
theorem everyStepKeepsTheInvariant : Obligations.EveryStepKeepsTheInvariant := by
  intro s t hs h
  have hc := inv_cursorsHeld hs
  refine inv_of_parts (step_cursorsHeld hc h) (step_contentsHeld hc (inv_contentsHeld hs) h) ?_
  rw [step_params h]
  exact fun hl w hw => step_positionsBelow hl hw hc (hs.widths hl w hw) h

/-- Settles O33: no run is in progress, both buffers list no byte, and every register is 0. -/
theorem resetMeetsTheInvariant : Obligations.ResetMeetsTheInvariant :=
  ⟨inv_resetWith Config.standard, inv_resetWith⟩

/-- Settles O38: two runs started on the same input agree after every step, as what may differ between them (latches, free values,
the other engine) is read by no later step. -/
theorem runDependsOnItsInputOnly : Obligations.RunDependsOnItsInputOnly := by
  intro s u e k hparams hlen hin hs hu
  rcases start_cases e s with ⟨hf, he⟩ | ⟨hf, ⟨rfl, he⟩ | ⟨rfl, he⟩⟩
  all_goals
    have hf' := hf
    rw [hparams, hlen] at hf'
    simp only [start, hf, hf', if_true]
  · rfl
  · exact run_alike k (startDec_alike hparams hlen hin ⟨hs, hu⟩)
  · exact run_alike k (startEnc_alike hparams hlen hin ⟨hs, hu⟩ hf)

/-- Settles O24: the decoder's shared operations, the fetch and the encoder's passes all end in a next state. -/
theorem everyInstructionHasAnEffect : Obligations.EveryInstructionHasAnEffect :=
  ⟨exec_next, fun s hq => step_quiet_nil hq ▸ stepEngine_total s⟩

/-- Settles O25: the header latches are written first, and neither an operand latch nor a fault entry writes them again. -/
theorem headerLatchesHoldTheHeader : Obligations.HeaderLatchesHoldTheHeader :=
  fun _ _ _ _ => exec_headerHeld

/-- Settles O30: a run that goes on has completed an instruction of at least 2 bytes below `IN_LEN` and 1 to 992 bytes of
output. -/
theorem instructionPointerOnlyIncreases : Obligations.InstructionPointerOnlyIncreases := by
  intro s t hs hq h ht
  rw [step_decoding hs hq] at h
  rcases stepDecoder_next h with ⟨f, g, _, rfl⟩ | ⟨hd, m, g, rfl, _, hsize, hpos, hmax, hin, _⟩ | ⟨b, ip', g, _, rfl⟩
  · simp at ht
  · simp only [Config.extMaxLen] at hmax
    simp only [finishCopy_dec_ip, finishCopy_dec_olen, latchOperands_dec_ip, latchOperands_dec_olen]
    omega
  · simp at ht

/-- Settles O35: each engine's step is inverted once, and what it leaves differs in its own registers, OUT and the status
registers only. -/
theorem enginesKeepToTheirOwn : Obligations.EnginesKeepToTheirOwn := by
  intro s t hr hq h
  cases ho : s.op with
  | decompress =>
    rw [step_decoding ⟨hr, ho⟩ hq] at h
    obtain ⟨⟨hin, hlen, hop, hhost, hdata, hres⟩, henc⟩ := stepDecoder_frame h
    exact ⟨hin, hlen, hop.trans ho, hhost, hdata, hres, fun _ => henc, fun hc => (nomatch hc)⟩
  | compress =>
    rw [step_encoding ⟨hr, ho⟩ hq] at h
    obtain ⟨⟨hin, hlen, hop, hhost, hdata, hres⟩, hdec⟩ := stepEncoder_frame h
    exact ⟨hin, hlen, hop.trans ho, hhost, hdata, hres, fun hc => (nomatch hc), fun _ => hdec⟩

/-- Settles O54: below `ENC_MAXLEN` the byte only joins the run; reaching it, the run is flushed at the moved cursor, with room or
without. -/
theorem literalPassExtendsTheRun : Obligations.LiteralPassExtendsTheRun := by
  intro s hs he hq hp hc
  obtain ⟨_, _, hfilled, hroom⟩ := hs.encoder he
  rw [step_encoding he hq]
  have hbytes := pendingStream_joinRun (hs.pending he) hp
  refine ⟨fun hl => ?_, fun hl hf => ?_, fun hl hf => ?_⟩
  · exact ⟨joined s, stepEncoder_joins hp hc hl, he.1, rfl, rfl, rfl, rfl, joinRun_litLen_toNat hl.le, rfl, rfl⟩
  · obtain ⟨hstream, hlen⟩ := hbytes hl
    have hw := stepEncoder_flushes hroom hp hc hl
    rw [hstream] at hw
    obtain ⟨t, ht, hem, hempty⟩ := hw.room (by rwa [List.length_append, hlen])
    refine ⟨t, ht, ?_, hem.n, hem.p, hempty, ?_, hem.length_emitted hfilled, hem.frame_eq⟩
    · rw [hem.frame_eq]
      exact he.1
    · rw [hem.emitted hfilled, List.append_assoc]
  · obtain ⟨hstream, hlen⟩ := hbytes hl
    have hw := stepEncoder_flushes hroom hp hc hl
    rw [hstream] at hw
    exact hw.full (by rwa [List.length_append, hlen])

/-- Settles O55: the pending run and the instruction are one emission, which fits OUT or runs out at the old cursor. -/
theorem selectedPassWritesTheInstruction : Obligations.SelectedPassWritesTheInstruction := by
  intro s c hs he hq hp hc
  obtain ⟨_, _, hfilled, hroom⟩ := hs.encoder he
  have hw := stepEncoder_selected hroom hp hc
  rw [instrBytes, ← List.append_assoc, ← step_encoding he hq] at hw
  refine ⟨fun hf => ?_, hw.full⟩
  obtain ⟨t, ht, hem, hempty⟩ := hw.room hf
  refine ⟨t, ht, ?_, hem.p, hempty, hem.n, ?_, hem.length_emitted hfilled, hem.frame_eq⟩
  · rw [hem.frame_eq]
    exact he.1
  · rw [hem.emitted hfilled, List.append_assoc, List.append_assoc, List.append_assoc]

/-- Settles O56: the pending run and the terminator are one emission, which fits OUT or runs out at `N`. -/
theorem encoderEndsWithTheTerminator : Obligations.EncoderEndsWithTheTerminator := by
  intro s hs he hq hp
  obtain ⟨_, _, hfilled, hroom⟩ := hs.encoder he
  have hw := stepEncoder_finish hroom hp.ge
  have hlen : s.enc.olen + (pendingInstr s ++ [Config.term]).length = s.enc.olen + (pendingInstr s).length + 1 := by
    rw [List.length_append, Nat.add_assoc]
    rfl
  rw [← step_encoding he hq] at hw
  refine ⟨fun hf => ?_, fun hf => hp ▸ hw.full (hlen ▸ hf)⟩
  obtain ⟨_, ht, u, rfl, hem, _⟩ := hw.room (hlen ▸ hf)
  have hemitted : resultBytes (stopEnc u) = emitted s ++ pendingInstr s ++ [0xFF#8] := by
    rw [List.append_assoc]
    exact hem.emitted hfilled
  have hcount : (stopEnc u).outLen = (resultBytes (stopEnc u)).length := hem.length_emitted hfilled
  have hn := hem.n
  obtain ⟨⟨_, _, rfl⟩, _⟩ := hem
  exact ⟨_, ht, rfl, hn, rfl, rfl, hemitted, hcount, rfl⟩

/-- Settles O43: the values of reset, computed. -/
theorem resetLeavesTheStatedValues : Obligations.ResetLeavesTheStatedValues :=
  ⟨rfl, rfl, rfl, rfl, rfl, rfl⟩

/-- Settles O44: each access tests for a run in progress before anything else, and START tests `IN_LEN` next. -/
theorem meaninglessHostAccessIsRefused : Obligations.MeaninglessHostAccessIsRefused := by
  constructor
  · intro s o later hr hh hs hp
    rw [step_act hh]
    exact hostAct_busy hr hs hp
  · intro s v later hr hh hv hf
    have hb : isBusy { s with host := later } = false := isBusy_eq_false hr
    rw [step_act hh]
    simp only [hostAct, hostWriteCtrl, hb, hv, if_true, Bool.false_eq_true, if_false]
    rcases start_cases (Engine.ofOp (v.getLsbD 1)) { s with host := later } with ⟨_, he⟩ | ⟨hf', _⟩
    · exact he
    · exact absurd (hf.symm.trans hf') (by decide)

/-- Settles O46: a read is one of a register or of OUT, and the words it answers are those of the coding. -/
theorem hostCollectsTheResult : Obligations.HostCollectsTheResult := by
  refine ⟨?_, ?_, ?_, ?_, ?_, ?_, ?_, ?_, ?_⟩
  · intro s a b later hr hh ha hlt hb
    rw [step_readOut hh (by simp [hr]) ha, outValue, if_pos hlt, outByte, Mem.readOr_of_byteAt hb]
  · intro s later hh
    rw [step_readReg hh (.inl rfl), regValue, statusWord_toNat]
    cases s.run <;> rfl
  · intro s later hr hh
    rw [step_readReg hh (.inr hr), regValue]
    cases s.err <;> rfl
  · exact fun s later hr hh => step_readReg hh (.inr hr)
  · exact fun s later hr hh => step_readReg hh (.inr hr)
  · exact fun s later hr hh => step_readReg hh (.inr (by simp [hr]))
  · exact fun s later hr hh => step_readReg hh (.inr (by simp [hr]))
  · intro s later hr hh
    rw [step_readReg hh (.inr hr), regValue, ctrlWord]
    cases s.op <;> rfl
  · exact fun s a hr ha => ⟨outValue s a, fun old later => step_readOut rfl hr ha⟩

end Sys2Proof.Safety
end

section
/-! OUT is strictly appending (20_memory.md R41, R46): whatever a part of a pass or a step of an engine writes begins at the write
position, also where the run ends in a fault. -/

namespace Sys2Proof.Machine

/-! ## The encoder, with room or without -/

/-- OUT became the bytes of `s` with a run of bytes stored from the write position of ENC on. -/
def StoredFrom (s : State) (bs : List Byte) (t : State) : Prop := t.outMem = s.outMem.storeRun s.enc.olen bs

/-- What a part of a pass does to OUT: it stores bytes from the write position on, and unless it ends in a fault, which clears
`OLEN`, the write position has moved past them. -/
def PassAppends (s : State) : Except State State → Prop
  | .ok u => ∃ bs, StoredFrom s bs u ∧ u.enc.olen = s.enc.olen + bs.length
  | .error t => ∃ bs, StoredFrom s bs t

theorem StoredFrom.trans {s u t : State} {as bs : List Byte} (h : StoredFrom s as u)
    (ho : u.enc.olen = s.enc.olen + as.length) (k : StoredFrom u bs t) : StoredFrom s (as ++ bs) t := by
  rw [StoredFrom, Mem.storeRun_append, ← ho, ← h, k]

theorem StoredFrom.byteAt {s t : State} {bs : List Byte} (h : StoredFrom s bs t) {a : Nat} (ha : a < s.enc.olen) :
    t.outMem.byteAt a = s.outMem.byteAt a := by
  rw [h, Mem.byteAt_storeRun, if_neg (by omega)]

/-- A part of a pass after a part that ended normally. -/
theorem StoredFrom.passAppends {s u : State} {as : List Byte} {r : Except State State} (h : StoredFrom s as u)
    (ho : u.enc.olen = s.enc.olen + as.length) (k : PassAppends u r) : PassAppends s r := by
  cases r with
  | ok v =>
    obtain ⟨bs, hv, hlen⟩ := k
    exact ⟨as ++ bs, h.trans ho hv, by rw [hlen, ho, List.length_append, Nat.add_assoc]⟩
  | error t =>
    obtain ⟨bs, ht⟩ := k
    exact ⟨as ++ bs, h.trans ho ht⟩

/-- One part of a pass after another. -/
theorem PassAppends.bind {s : State} {r : Except State State} {f : State → Except State State} (h : PassAppends s r)
    (k : ∀ u, PassAppends u (f u)) : PassAppends s (r.bind f) := by
  cases r with
  | ok u =>
    obtain ⟨as, hs, ho⟩ := h
    exact hs.passAppends ho (k u)
  | error t => exact h

/-- A part of a pass followed by a change of other registers. -/
theorem PassAppends.map {s : State} {r : Except State State} {f : State → State} (h : PassAppends s r)
    (hm : ∀ u, (f u).outMem = u.outMem) (ho : ∀ u, (f u).enc.olen = u.enc.olen) : PassAppends s (r.map f) := by
  cases r with
  | error t => exact h
  | ok u =>
    obtain ⟨bs, hs, hlen⟩ := h
    exact ⟨bs, (hm u).trans hs, (ho u).trans hlen⟩

theorem passAppends_emitAll (bs : List Byte) (s : State) : PassAppends s (emitAll bs s) := by
  rcases emitAll_cases bs s with ⟨_, he⟩ | ⟨_, he⟩ | ⟨_, as, _, he⟩ <;> rw [he]
  · exact ⟨bs, rfl, rfl⟩
  · exact ⟨[], rfl, rfl⟩
  · exact ⟨as, rfl⟩

theorem passAppends_flush (x : List Byte) (s : State) : PassAppends s (flush x s) := by
  cases hf : flush x s with
  | ok t =>
    rcases flush_ok hf with ⟨_, rfl⟩ | ⟨_, _, rfl⟩
    · exact ⟨[], rfl, rfl⟩
    · exact ⟨_, rfl, rfl⟩
  | error t =>
    obtain ⟨as, rfl⟩ := flush_error hf
    exact ⟨as, rfl⟩

theorem passAppends_flush_emitAll (x bs : List Byte) (s : State) : PassAppends s ((flush x s).bind (emitAll bs)) :=
  (passAppends_flush x s).bind (passAppends_emitAll bs)

/-- A pass with a selection (43_encoder.md R167). -/
theorem passAppends_passSelected (x : List Byte) (c : Cand) (s : State) : PassAppends s (passSelected x c s) := by
  rw [passSelected_eq_map]
  exact (passAppends_flush_emitAll x _ s).map (fun _ => rfl) (fun _ => rfl)

/-- A pass without a selection (43_encoder.md R168). -/
theorem passAppends_passLiteral (x : List Byte) (s : State) : PassAppends s (passLiteral x s) := by
  unfold passLiteral
  split
  · exact passAppends_flush x (joinRun s)
  · exact ⟨[], rfl, rfl⟩

/-- The end of the run (43_encoder.md R169). -/
theorem passAppends_finishRun (x : List Byte) (s : State) : PassAppends s (finishRun x s) := by
  rw [finishRun_eq_map_emitAll]
  exact (passAppends_flush_emitAll x _ s).map (fun _ => rfl) (fun _ => rfl)

theorem PassAppends.settle_storedFrom {s t : State} {r : Except State State} (h : PassAppends s r)
    (hr : settle r = .next t) : ∃ bs, StoredFrom s bs t := by
  cases r with
  | ok u =>
    cases hr
    obtain ⟨bs, hs, _⟩ := h
    exact ⟨bs, hs⟩
  | error u =>
    cases hr
    exact h

/-- What a step of ENC does to OUT: it stores bytes from the write position on. -/
theorem stepEncoder_storedFrom {s t : State} (h : stepEncoder s = .next t) : ∃ bs, StoredFrom s bs t := by
  rcases stepEncoder_cases s with ⟨_, he⟩ | ⟨_, r, _, ⟨c, _, he⟩ | ⟨_, he⟩⟩ <;> rw [he] at h
  · exact (passAppends_finishRun _ s).settle_storedFrom h
  · exact (passAppends_passSelected _ c (latchScans r (some c) s)).settle_storedFrom h
  · exact (passAppends_passLiteral _ (latchScans r none s)).settle_storedFrom h

/-! ## The decoder -/

/-- A step of DEC writes nothing below the write position: of its three outcomes only a completed instruction writes at all. -/
theorem stepDecoder_byteAt {s t : State} (h : stepDecoder s = .next t) {a : Nat} (ha : a < s.dec.olen) :
    t.outMem.byteAt a = s.outMem.byteAt a := by
  rcases stepDecoder_next h with ⟨f, g, _, rfl⟩ | ⟨hd, m, g, rfl, hw, _⟩ | ⟨b, ip', g, _, rfl⟩
  · rfl
  · exact hw.below a (.inl ha)
  · rfl

end Sys2Proof.Machine
end

section
/-! The obligation of 20_memory.md. -/

namespace Sys2Proof.Safety

open Sys2Proof.Machine

/-- Settles O36: each engine's step writes from the engine's own write position on, with room in OUT or without. -/
theorem outputOnlyGrows : Obligations.OutputOnlyGrows := by
  intro s t hr hq h
  constructor
  · intro ho a ha
    exact stepDecoder_byteAt (step_decoding ⟨hr, ho⟩ hq ▸ h) ha
  · intro ho a ha
    obtain ⟨bs, hs⟩ := stepEncoder_storedFrom (step_encoding ⟨hr, ho⟩ hq ▸ h)
    exact hs.byteAt ha

end Sys2Proof.Safety
end

section
/-! What the decoder answers, said once for every stream: an instruction whose encoding the stream begins with, or a rejection
that names what is missing. -/

namespace Sys2Proof

open Sys2Proof.Machine

/-! ## The header bytes as numbers (30_encoding.md R63, R66, R67) -/

@[simp] theorem shortByte_toNat (k : Kind) (n : BitVec 5) : (shortByte k n).toNat = k.toBits.toNat * 32 + n.toNat := by
  rw [shortByte, BitVec.toNat_append, ← Nat.shiftLeft_add_eq_or_of_lt n.isLt, Nat.shiftLeft_eq]

@[simp] theorem extByte_toNat (h : BitVec 5) : (extByte h).toNat = 0xE0 + h.toNat :=
  shortByte_toNat .seven h

@[simp] theorem contByte_toNat (l : BitVec 5) (k : Kind) : (contByte l k).toNat = l.toNat * 8 + k.toBits.toNat := by
  rw [contByte, BitVec.toNat_append, ← Nat.shiftLeft_add_eq_or_of_lt k.toBits.isLt, Nat.shiftLeft_eq]

theorem Kind.toBits_toNat_lt {k : Kind} (hk : k ≠ .seven) : k.toBits.toNat < 7 := by
  revert hk
  cases k <;> decide

theorem extHighOk_iff {h : BitVec 5} : extHighOk h = true ↔ h.toNat < 31 := by
  rw [extHighOk, bne_iff_ne]
  bv_omega

/-- A byte below 255 is not the terminator. -/
theorem ne_term_of_lt {b : Byte} (hb : b.toNat < 0xFF) : b ≠ Config.term := by
  rintro rfl
  exact absurd hb (by decide)

theorem shortByte_lt {k : Kind} (hk : k ≠ .seven) (n : BitVec 5) : (shortByte k n).toNat < 0xE0 := by
  have := Kind.toBits_toNat_lt hk
  rw [shortByte_toNat]
  omega

theorem extByte_lt {h : BitVec 5} (hh : extHighOk h = true) : (extByte h).toNat < 0xFF := by
  have := extHighOk_iff.mp hh
  rw [extByte_toNat]
  omega

/-- Every byte but the terminator is a short header or the first byte of an extended one. -/
theorem headerByte_cases {b : Byte} (hb : b ≠ Config.term) :
    (∃ k n, k ≠ .seven ∧ b = shortByte k n) ∨ (∃ h, extHighOk h = true ∧ b = extByte h) := by
  have hs := shortByte_selector b
  by_cases hk : Kind.ofBits (selector b) = .seven
  · exact .inr ⟨lowField b, extHighOk_lowField hk hb, by rw [← hs, hk, lowField_shortByte]; rfl⟩
  · exact .inl ⟨_, _, hk, hs.symm⟩

/-! ## Headers (30_encoding.md R64 to R66) -/

/-- The bytes of a header in stream order. -/
def Header.bytes (hd : Header) : List Byte := hd.first :: hd.second.toList

/-- The headers the format has: kinds 0 to 6 in the short form, and every kind in the extended form, whose first byte is not the
terminator (30_encoding.md R69). -/
inductive Header.Valid : Header → Prop
  | short {k : Kind} (n : BitVec 5) (hk : k ≠ .seven) : Header.Valid (shortHeader k n)
  | ext (k : Kind) {h : BitVec 5} (l : BitVec 5) (hh : extHighOk h = true) : Header.Valid (extHeader k h l)

theorem Header.bytes_length (hd : Header) : hd.bytes.length = hd.headerLen := by
  rcases hd with ⟨first, _ | second, kind, len⟩ <;> rfl

/-- A header below `0xE0` is a short form (R64). -/
theorem Header.Valid.short_fields {hd : Header} (hv : hd.Valid) (hb : hd.first.toNat < 0xE0) :
    hd.kind.toBits.toNat = hd.first.toNat / 32 ∧ hd.len = hd.first.toNat % 32 + 1 ∧ hd.headerLen = 1 ∧
      1 ≤ hd.len ∧ hd.len ≤ 32 := by
  cases hv with
  | @short k n hk =>
    have := n.isLt
    simp only [shortHeader, shortByte_toNat, shortLen, Header.headerLen, true_and]
    omega
  | ext k l hh =>
    simp only [extHeader, extByte_toNat] at hb
    omega

/-- A header from `0xE0` on is an extended form (R65, R66). -/
theorem Header.Valid.ext_fields {hd : Header} (hv : hd.Valid) (hb : 0xE0 ≤ hd.first.toNat) :
    ∃ e, hd.second = some e ∧ hd.kind.toBits.toNat = e.toNat % 8 ∧
      hd.len = hd.first.toNat % 32 * 32 + e.toNat / 8 + 1 ∧ hd.headerLen = 2 := by
  cases hv with
  | short n hk => exact absurd (shortByte_lt hk n) (by simpa [shortHeader] using hb)
  | @ext k h l hh =>
    have := extHighOk_iff.mp hh
    have := k.toBits.isLt
    refine ⟨contByte l k, rfl, ?_⟩
    simp only [extHeader, extByte_toNat, contByte_toNat, extLen, Header.headerLen, and_true]
    omega

theorem payloadLen_le (k : Kind) (len : Nat) : payloadLen k len ≤ max len 2 := by
  cases k <;> simp [payloadLen]

theorem Header.Valid.size_le {hd : Header} (hv : hd.Valid) : hd.size ≤ 994 := by
  cases hv with
  | @short k n hk =>
    have := payloadLen_le k (shortLen n)
    have := shortLen_le n
    rw [shortHeader_size]
    omega
  | @ext k h l hh =>
    have := payloadLen_le k (extLen h l)
    have := extLen_le l hh
    rw [extHeader_size]
    omega

/-! ## The header of an instruction (30_encoding.md R62, R68) -/

theorem Instr.header_valid {i : Instr} {hd : Header} (hw : i.wellFormed = true) (hi : i.header = some hd) : hd.Valid := by
  cases i <;> cases hi
  case dcopy n _ | bfill n _ | wfill n _ _ | ifill n _ | rabs n _ | ralt n | rrel n _ => exact .short n (by decide)
  case dcopyX h l d => exact .ext _ l (Bool.and_eq_true_iff.mp hw).1
  case bfillX l _ | wfillX l _ _ | ifillX l _ | rabsX l _ | raltX l | rrelX l _ | extRsvd l => exact .ext _ l hw

theorem encode_eq_bytes_append {i : Instr} {hd : Header} (hi : i.header = some hd) : ∃ p, encode i = hd.bytes ++ p := by
  cases i <;> cases hi <;> exact ⟨_, rfl⟩

theorem Instr.header_eq_none {i : Instr} (hi : i.header = none) : i = .endStream := by
  cases i with
  | endStream => rfl
  | _ => cases hi

/-! ## One equation for each form of the first byte (30_encoding.md R68) -/

theorem decode_eq_decodeHeader {b : Byte} (hb : b ≠ Config.term) (bs : List Byte) :
    decode (b :: bs) = decodeHeader b bs := if_neg hb

theorem decode_extByte_nil {h : BitVec 5} (hh : extHighOk h = true) :
    decode [extByte h] = .rejected (.noContinuation (extByte h)) := by
  rw [decode_eq_decodeHeader (ne_term_of_lt (extByte_lt hh)), decodeHeader, selector_extByte]
  rfl

theorem decode_extByte_cons {h : BitVec 5} (hh : extHighOk h = true) (l : BitVec 5) (k : Kind) (bs : List Byte) :
    decode (extByte h :: contByte l k :: bs) = decodeExt h l k bs := by
  rw [decode_eq_decodeHeader (ne_term_of_lt (extByte_lt hh)), decodeHeader, selector_extByte, lowField_extByte]
  simp only [show Kind.ofBits 7#3 = .seven from rfl, contLow_contByte, contKind_contByte, Kind.ofBits_toBits]

/-- The header byte of a short form selects the kind's payload. -/
theorem decode_shortByte {k : Kind} (hk : k ≠ .seven) (n : BitVec 5) (bs : List Byte) :
    decode (shortByte k n :: bs) = decodeHeader (shortByte k n) bs :=
  decode_eq_decodeHeader (ne_term_of_lt (Nat.lt_trans (shortByte_lt hk n) (by decide))) bs

/-! ## The headers ENC writes (30_encoding.md R67, 43_encoder.md R164) -/

theorem ofNat_shift_or {a b i n : Nat} (hb : b < 2 ^ i) (h : a * 2 ^ i + b < 2 ^ n) :
    (BitVec.ofNat n (a <<< i ||| b)).toNat = a * 2 ^ i + b := by
  rw [← Nat.shiftLeft_add_eq_or_of_lt hb, Nat.shiftLeft_eq, BitVec.toNat_ofNat, Nat.mod_eq_of_lt h]

theorem headerBytes_short {len : Nat} (k : Kind) (hpos : 1 ≤ len) (hlen : len ≤ 32) :
    headerBytes k len = [BitVec.ofNat 8 (k.toBits.toNat <<< 5 ||| (len - 1))] := by
  have hk := k.toBits.isLt
  rw [headerBytes, if_pos (show len ≤ Config.shortMaxLen from hlen)]
  congr 1
  apply BitVec.eq_of_toNat_eq
  rw [ofNat_shift_or (by omega) (by omega), shortByte_toNat, BitVec.toNat_ofNat]
  omega

theorem headerBytes_ext {len : Nat} (k : Kind) (hlen : 32 < len) (hmax : len ≤ 992) :
    headerBytes k len =
      [BitVec.ofNat 8 (0xE0 ||| (len - 1) >>> 5), BitVec.ofNat 8 (((len - 1) &&& 0x1F) <<< 3 ||| k.toBits.toNat)] := by
  have hk := k.toBits.isLt
  have hhigh : (len - 1) >>> 5 = (len - 1) / 32 := Nat.shiftRight_eq_div_pow _ 5
  have hlow : (len - 1) &&& 0x1F = (len - 1) % 32 := Nat.and_two_pow_sub_one_eq_mod _ 5
  rw [headerBytes, if_neg (show ¬ len ≤ Config.shortMaxLen from Nat.not_le.mpr hlen), hhigh, hlow]
  congr 1
  · apply BitVec.eq_of_toNat_eq
    rw [show 0xE0 = 7 <<< 5 from rfl, ofNat_shift_or (by omega) (by omega), extByte_toNat, BitVec.toNat_ofNat]
    omega
  · congr 1
    apply BitVec.eq_of_toNat_eq
    rw [ofNat_shift_or (by omega) (by omega), contByte_toNat, BitVec.toNat_ofNat]
    omega

/-- The first byte ENC writes is a short header byte or an extended one, not the terminator. -/
theorem headerBytes_head_ne_term {k : Kind} {len : Nat} (hk : k ≠ .seven) (hmax : len ≤ 992) :
    (headerBytes k len).head? ≠ some Config.term := by
  rw [headerBytes]
  split
  · have := shortByte_lt hk (BitVec.ofNat 5 (len - 1))
    exact fun h => ne_term_of_lt (by omega) (Option.some.inj h)
  · have hh : extHighOk (BitVec.ofNat 5 ((len - 1) >>> 5)) = true := by
      rw [extHighOk_iff, BitVec.toNat_ofNat, Nat.shiftRight_eq_div_pow]
      omega
    exact fun h => ne_term_of_lt (extByte_lt hh) (Option.some.inj h)

/-! ## Decoding an encoding -/

theorem payloadRun_append {hd : Header} {d : List Byte} (hlen : d.length = hd.len) (f : List Byte → Instr)
    (rest : List Byte) : payloadRun hd f (d ++ rest) = .ok (f d) rest := by
  rw [payloadRun, takeBytes_eq_some.mpr ⟨rfl, hlen⟩]

/-- Decoding undoes encoding, form by form: the header byte selects the form, and the payload readers take the operands. -/
theorem decode_encode_append {i : Instr} (hw : i.wellFormed = true) (rest : List Byte) :
    decode (encode i ++ rest) = .ok i rest := by
  cases i with
  | endStream => rfl
  | dcopy n d =>
    rw [encode, List.cons_append, decode_shortByte (by decide)]
    simp only [decodeHeader, selector_shortByte, lowField_shortByte, Kind.ofBits_toBits]
    exact payloadRun_append (hd := shortHeader .direct n) (beq_iff_eq.mp hw) _ rest
  | bfill | wfill | ifill | rabs | ralt | rrel =>
    simp only [encode, List.cons_append, List.nil_append]
    rw [decode_shortByte (by decide)]
    simp [decodeHeader, payloadOne, payloadTwo]
  | dcopyX h l d =>
    obtain ⟨hh, hlen⟩ := Bool.and_eq_true_iff.mp hw
    rw [encode, List.cons_append, List.cons_append, decode_extByte_cons hh]
    exact payloadRun_append (hd := extHeader .direct h l) (beq_iff_eq.mp hlen) _ rest
  | bfillX | wfillX | ifillX | rabsX | raltX | rrelX | extRsvd =>
    simp only [encode, List.cons_append, List.nil_append]
    rw [decode_extByte_cons hw]
    simp [decodeExt, payloadOne, payloadTwo]

/-! ## What the decoder answers -/

/-- The streams that end too early, each with what is missing (30_encoding.md R79 (c), 40_decoder_loop.md R91, R93, R94). -/
inductive CutShort : List Byte → Reject → Prop
  | header : CutShort [] .noHeader
  | continuation {h : BitVec 5} (hh : extHighOk h = true) : CutShort [extByte h] (.noContinuation (extByte h))
  | payload {hd : Header} {bs : List Byte} (hv : hd.Valid) (hlen : bs.length < payloadLen hd.kind hd.len) :
      CutShort (hd.bytes ++ bs) (.noPayload hd)

/-- An answer that says of a stream what is true of it. -/
def Answers (bs : List Byte) : Decoded → Prop
  | .ok i rest => bs = encode i ++ rest
  | .rejected r => CutShort bs r

section
variable {hd : Header} (hv : hd.Valid) (bs : List Byte)
include hv

theorem payloadRun_answers (hp : payloadLen hd.kind hd.len = hd.len) {f : List Byte → Instr}
    (hf : ∀ d, encode (f d) = hd.bytes ++ d) : Answers (hd.bytes ++ bs) (payloadRun hd f bs) := by
  unfold payloadRun
  split
  · rename_i d rest ht
    obtain ⟨rfl, _⟩ := takeBytes_eq_some.mp ht
    simp [Answers, hf]
  · rename_i ht
    exact .payload hv (hp.symm ▸ takeBytes_eq_none.mp ht)

theorem payloadOne_answers (hp : payloadLen hd.kind hd.len = 1) {f : Byte → Instr}
    (hf : ∀ b, encode (f b) = hd.bytes ++ [b]) : Answers (hd.bytes ++ bs) (payloadOne hd f bs) := by
  match bs with
  | [] => exact .payload hv (by simp [hp])
  | b :: rest => simp [payloadOne, Answers, hf]

theorem payloadTwo_answers (hp : payloadLen hd.kind hd.len = 2) {f : Byte → Byte → Instr}
    (hf : ∀ b0 b1, encode (f b0 b1) = hd.bytes ++ [b0, b1]) : Answers (hd.bytes ++ bs) (payloadTwo hd f bs) := by
  match bs with
  | [] | [_] => exact .payload hv (by simp [hp])
  | b0 :: b1 :: rest => simp [payloadTwo, Answers, hf]

end

theorem decodeExt_answers {h : BitVec 5} (hh : extHighOk h = true) (l : BitVec 5) (k : Kind) (bs : List Byte) :
    Answers (extByte h :: contByte l k :: bs) (decodeExt h l k bs) := by
  have hv := Header.Valid.ext k l hh
  cases k with
  | direct => exact payloadRun_answers hv bs rfl fun _ => rfl
  | byteFill | incFill | repRel => exact payloadOne_answers hv bs rfl fun _ => rfl
  | wordFill => exact payloadTwo_answers hv bs rfl fun _ _ => rfl
  | repAbs => exact payloadTwo_answers hv bs rfl fun p0 p1 => by simp [encode, Header.bytes, extHeader]
  | repAlt | seven => exact rfl

theorem decodeHeader_shortByte_answers {k : Kind} (hk : k ≠ .seven) (n : BitVec 5) (bs : List Byte) :
    Answers (shortByte k n :: bs) (decodeHeader (shortByte k n) bs) := by
  have hv := Header.Valid.short n hk
  simp only [decodeHeader, selector_shortByte, lowField_shortByte, Kind.ofBits_toBits]
  cases k with
  | direct => exact payloadRun_answers hv bs rfl fun _ => rfl
  | byteFill | incFill | repRel => exact payloadOne_answers hv bs rfl fun _ => rfl
  | wordFill => exact payloadTwo_answers hv bs rfl fun _ _ => rfl
  | repAbs => exact payloadTwo_answers hv bs rfl fun p0 p1 => by simp [encode, Header.bytes, shortHeader]
  | repAlt => exact rfl
  | seven => exact absurd rfl hk

/-- The decoder's answer is true of every stream. -/
theorem decode_answers (bs : List Byte) : Answers bs (decode bs) := by
  match bs with
  | [] => exact .header
  | b :: bs =>
    by_cases hb : b = Config.term
    · subst hb
      exact rfl
    rcases headerByte_cases hb with ⟨k, n, hk, rfl⟩ | ⟨h, hh, rfl⟩
    · exact decode_shortByte hk n bs ▸ decodeHeader_shortByte_answers hk n bs
    · match bs with
      | [] => exact decode_extByte_nil hh ▸ .continuation hh
      | e :: bs =>
        rw [← contByte_fields e, decode_extByte_cons hh]
        exact decodeExt_answers hh _ _ bs

/-- What decodes to an instruction begins with the instruction's encoding. -/
theorem eq_encode_append_of_decode {bs rest : List Byte} {i : Instr} (h : decode bs = .ok i rest) : bs = encode i ++ rest := by
  have := decode_answers bs
  rwa [h] at this

theorem cutShort_of_decode {bs : List Byte} {r : Reject} (h : decode bs = .rejected r) : CutShort bs r := by
  have := decode_answers bs
  rwa [h] at this

/-- What decodes after a byte that is not the terminator is an instruction with a header, and its header stands there. -/
theorem header_of_decode {b : Byte} {bs r : List Byte} {i : Instr} (hb : b ≠ Config.term)
    (h : decode (b :: bs) = .ok i r) : ∃ hd p, i.header = some hd ∧ hd.Valid ∧ b :: bs = hd.bytes ++ p := by
  have he := eq_encode_append_of_decode h
  cases hi : i.header with
  | none =>
    rw [Instr.header_eq_none hi] at he
    exact absurd (List.cons.inj he).1 hb
  | some hd =>
    obtain ⟨p, hp⟩ := encode_eq_bytes_append hi
    exact ⟨hd, p ++ r, rfl, Instr.header_valid (decode_wellFormed h) hi, by rw [he, hp, List.append_assoc]⟩

end Sys2Proof
end

section
/-! The obligations of 30_encoding.md. -/

namespace Sys2Proof.Safety

open Sys2Proof.Machine

/-- Settles O1: the header byte selects the instruction's form, and the payload readers take its operands. -/
theorem decodeOfEncodeIsIdentity : Obligations.DecodeOfEncodeIsIdentity :=
  fun _ rest hw => decode_encode_append hw rest

/-- Settles O2: each payload reader takes exactly the bytes the encoder writes after the header. -/
theorem decodedStreamBeginsWithItsEncoding : Obligations.DecodedStreamBeginsWithItsEncoding :=
  fun _ _ _ h => ⟨decode_wellFormed h, eq_encode_append_of_decode h⟩

/-- Settles O3: every rejected stream is one of the three of `CutShort`. -/
theorem onlyStreamsCutShortAreRejected : Obligations.OnlyStreamsCutShortAreRejected := by
  intro bs r hdec
  cases cutShort_of_decode hdec with
  | header => exact .inl ⟨rfl, rfl⟩
  | @continuation h hh =>
    have := extByte_lt hh
    have := extByte_toNat h
    exact .inr (.inl ⟨_, rfl, rfl, by omega, by omega⟩)
  | @payload hd bs hv hlen =>
    refine .inr (.inr ⟨hd, rfl, ?_, ?_, hv.size_le⟩)
    · simp [Header.bytes_length]
    · simpa [Header.bytes_length, Header.size] using hlen

/-- Settles O4: the stream begins with the encoding of what it decodes to, and the first byte of an encoding lies in the range of
the instruction's row. -/
theorem headerByteSelectsTheRow : Obligations.HeaderByteSelectsTheRow := by
  intro b rest i r h
  have hw := decode_wellFormed h
  have he := eq_encode_append_of_decode h
  cases i <;> obtain rfl := (List.cons.inj he).1
  case endStream => simp [Config.term, Instr.header]
  case dcopy n _ | bfill n _ | wfill n _ _ | ifill n _ | rabs n _ | ralt n | rrel n _ =>
    have := n.isLt
    simp [Kind.toBits, Instr.header, shortHeader, Header.headerLen]
    omega
  case dcopyX h l d =>
    have := extHighOk_iff.mp (Bool.and_eq_true_iff.mp hw).1
    simp [Instr.header, extHeader, Header.headerLen]
    omega
  case bfillX h _ _ | wfillX h _ _ _ | ifillX h _ _ | rabsX h _ _ | raltX h _ | rrelX h _ _ | extRsvd h _ =>
    have := extHighOk_iff.mp hw
    simp [Instr.header, extHeader, Header.headerLen]
    omega

/-- Settles O5: accepted or rejected, the stream begins with a header below `0xE0`, which is a short form. -/
theorem shortHeaderFieldsAreRead : Obligations.ShortHeaderFieldsAreRead := by
  intro b rest hb
  have hterm : b ≠ Config.term := ne_term_of_lt (by omega)
  suffices h : ∃ hd : Header, hd.Valid ∧ hd.first = b ∧
      ((∃ i r, decode (b :: rest) = .ok i r ∧ i.header = some hd) ∨ decode (b :: rest) = .rejected (.noPayload hd)) by
    obtain ⟨hd, hv, rfl, hdec⟩ := h
    obtain ⟨hkind, hlen, hhl, hpos, hle⟩ := hv.short_fields hb
    exact ⟨hd, hkind, hlen, hhl, hpos, hle, hdec⟩
  cases hdec : decode (b :: rest) with
  | ok i r =>
    obtain ⟨hd, p, hi, hv, hbytes⟩ := header_of_decode hterm hdec
    exact ⟨hd, hv, (List.cons.inj hbytes).1.symm, .inl ⟨i, r, rfl, hi⟩⟩
  | rejected r =>
    have hcut := cutShort_of_decode hdec
    generalize hbs : b :: rest = bs at hcut
    cases hcut with
    | header => cases hbs
    | @continuation h hh =>
      obtain ⟨rfl, _⟩ := List.cons.inj hbs
      rw [extByte_toNat] at hb
      omega
    | @payload hd bs hv _ => exact ⟨hd, hv, (List.cons.inj hbs).1.symm, .inr rfl⟩

/-- Settles O6: the stream begins with the instruction's header, and one from `0xE0` on is an extended form. -/
theorem extendedHeaderFieldsAreRead : Obligations.ExtendedHeaderFieldsAreRead := by
  intro h e rest i r hlow hhigh hdec
  obtain ⟨hd, p, hi, hv, hbytes⟩ := header_of_decode (ne_term_of_lt (by omega)) hdec
  obtain ⟨rfl, htail⟩ := List.cons.inj hbytes
  obtain ⟨e', hsecond, hkind, hlen, hhl⟩ := hv.ext_fields hlow
  rw [hsecond] at htail
  obtain ⟨rfl, _⟩ := List.cons.inj htail
  exact ⟨hd, hi, rfl, hsecond, hkind, hlen, hhl⟩

/-- Settles O7: a length is `32 * h + l + 1`, and quotient and remainder by 32 are unique. -/
theorem extendedLengthsAreOneTo992 : Obligations.ExtendedLengthsAreOneTo992 := by
  refine ⟨fun h l hh => ⟨extLen_pos h l, extLen_le l (bne_iff_ne.mpr hh)⟩, fun len hpos hmax => ?_⟩
  refine ⟨BitVec.ofNat 5 ((len - 1) / 32), BitVec.ofNat 5 ((len - 1) % 32), ?_, ?_, fun h l hh hlen => ?_⟩
  · rw [← bne_iff_ne, ← extHighOk, extHighOk_iff, BitVec.toNat_ofNat]
    omega
  · simp only [extLen, BitVec.toNat_ofNat]
    omega
  · have := h.isLt
    have := l.isLt
    simp only [extLen] at hlen
    constructor <;> apply BitVec.eq_of_toNat_eq <;> rw [BitVec.toNat_ofNat] <;> omega

/-- Settles O8: ENC's header fields lie in disjoint bits, so joining them is the sum the header bytes are. -/
theorem encoderHeadersFollowTheLayout : Obligations.EncoderHeadersFollowTheLayout :=
  fun k _ hk hpos hmax =>
    ⟨headerBytes_short k hpos, fun hlen => headerBytes_ext k hlen hmax, headerBytes_head_ne_term hk hmax⟩

/-- Settles O9: each word is short enough for the decoder to be run on it. -/
theorem specWordsDecode : Obligations.SpecWordsDecode := by
  unfold Obligations.SpecWordsDecode
  decide

end Sys2Proof.Safety
end

section
/-! The step of a running decoder on the input left at `IP`: it executes the instruction that stands there, or raises
`Truncated` at a header whose instruction IN cuts short (40_decoder_loop.md R90, R93, R94). -/

namespace Sys2Proof

/-! ## The decoder needs the longest instruction's bytes and no more -/

/-- A well-formed instruction is encoded in `HL + paylen(KIND, L)` bytes (30_encoding.md R68, R72). -/
theorem length_encode {i : Instr} (hw : i.wellFormed = true) : (encode i).length = i.size := by
  cases i with
  | dcopy n d => exact Laws.EncodedSize.dcopy n d hw
  | dcopyX h l d => exact Laws.EncodedSize.dcopyX h l d hw
  | _ => rfl

theorem Instr.size_of_header {i : Instr} {hd : Header} (hi : i.header = some hd) : i.size = hd.size := by
  rw [Instr.size, hi]

theorem Instr.size_le {i : Instr} (hw : i.wellFormed = true) : i.size ≤ Machine.maxInstrBytes := by
  cases hi : i.header with
  | none =>
    rw [Instr.header_eq_none hi]
    decide
  | some hd => exact Instr.size_of_header hi ▸ (Instr.header_valid hw hi).size_le

theorem decode_take_ok {bs rest : List Byte} {i : Instr} (h : decode bs = .ok i rest) :
    ∃ rest', decode (bs.take Machine.maxInstrBytes) = .ok i rest' := by
  have hw := decode_wellFormed h
  have hle : (encode i).length ≤ Machine.maxInstrBytes := length_encode hw ▸ Instr.size_le hw
  rw [eq_encode_append_of_decode h, List.take_append, List.take_of_length_le hle]
  exact ⟨_, decode_encode_append hw _⟩

/-- A stream cut short is shorter than the longest instruction, so the fetch looks at all of it. -/
theorem decode_take_rejected {bs : List Byte} {r : Reject} (h : decode bs = .rejected r) :
    decode (bs.take Machine.maxInstrBytes) = .rejected r := by
  suffices hle : bs.length ≤ Machine.maxInstrBytes by rwa [List.take_of_length_le hle]
  cases cutShort_of_decode h with
  | header | continuation => simp [Machine.maxInstrBytes]
  | @payload hd bs hv hlen =>
    have := hv.size_le
    rw [Header.size] at this
    rw [List.length_append, Header.bytes_length, Machine.maxInstrBytes]
    omega

/-! ## Header bytes by their range (30_encoding.md R76) -/

theorem exists_extByte {b : Byte} (hlow : 0xE0 ≤ b.toNat) (hhigh : b.toNat ≤ 0xFE) :
    ∃ h, extHighOk h = true ∧ b = extByte h := by
  rcases headerByte_cases (ne_term_of_lt (Nat.lt_succ_of_le hhigh)) with ⟨k, n, hk, rfl⟩ | hext
  · exact absurd (shortByte_lt hk n) (Nat.not_lt.mpr hlow)
  · exact hext

theorem exists_contByte {e : Byte} {k : Kind} (he : e.toNat % 8 = k.toBits.toNat) : ∃ l, e = contByte l k := by
  have hk := contByte_toNat (contLow e) (Kind.ofBits (contKind e))
  rw [contByte_fields, Kind.toBits_ofBits] at hk
  have hbits : contKind e = k.toBits := BitVec.eq_of_toNat_eq (by omega)
  exact ⟨contLow e, by rw [← Kind.ofBits_toBits k, ← hbits, contByte_fields]⟩

/-- The header bytes `0xA0 .. 0xBF` are those of kind 5. -/
theorem shortByte_range_repAlt {k : Kind} (n : BitVec 5) :
    (0xA0 ≤ (shortByte k n).toNat ∧ (shortByte k n).toNat ≤ 0xBF) ↔ k = .repAlt := by
  have := n.isLt
  rw [shortByte_toNat]
  cases k <;> simp [Kind.toBits] <;> omega

/-- Every kind of the short form but 5 has a payload, so its header alone is cut short (40_decoder_loop.md R94, 90_conflicts.md
C8). -/
theorem decode_lone_shortByte {k : Kind} (hk : k ≠ .seven) (hk5 : k ≠ .repAlt) (n : BitVec 5) :
    decode [shortByte k n] = .rejected (.noPayload (shortHeader k n)) := by
  rw [decode_shortByte hk, decodeHeader, selector_shortByte, lowField_shortByte, Kind.ofBits_toBits]
  cases k with
  | repAlt => exact absurd rfl hk5
  | seven => exact absurd rfl hk
  | _ => rfl

end Sys2Proof

namespace Sys2Proof.Machine

open Sys2Proof.Safety

/-! ## The input left at `IP` -/

/-- The bytes of IN from `IP` up to `IN_LEN`. -/
def unread (s : State) : List Byte := inBytes s s.dec.ip (s.inLen - s.dec.ip)

theorem inBytes_add (s : State) (a m n : Nat) : inBytes s a (m + n) = inBytes s a m ++ inBytes s (a + m) n := by
  simp [inBytes, List.range_add, Nat.add_assoc]

theorem window_eq_take (s : State) : window s = (unread s).take maxInstrBytes := by
  simp only [window, unread, inBytes, bytesLeft, ← List.map_take, List.take_range, Nat.min_comm]

/-- Bytes that stand at `IP`, below `IN_LEN`, begin the input left. -/
theorem unread_eq_append {s : State} {bs : List Byte} (hbs : StandsAt s s.dec.ip bs) (hin : s.dec.ip + bs.length ≤ s.inLen) :
    ∃ rest, unread s = bs ++ rest := by
  obtain ⟨n, hn⟩ := Nat.exists_eq_add_of_le (Nat.le_sub_of_add_le' hin)
  exact ⟨_, by rw [unread, hn, inBytes_add, hbs]⟩

variable {s : State} {b e : Byte}

theorem unread_eq_cons (hip : s.dec.ip < s.inLen) (hb : inByte s s.dec.ip = b) : ∃ rest, unread s = b :: rest :=
  unread_eq_append (bs := [b]) (congrArg ([·]) hb) hip

theorem unread_eq_cons_cons (hip : s.dec.ip + 1 < s.inLen) (hb : inByte s s.dec.ip = b)
    (he : inByte s (s.dec.ip + 1) = e) : ∃ rest, unread s = b :: e :: rest :=
  unread_eq_append (bs := [b, e]) (congrArg₂ ([·, ·]) hb he) hip

theorem unread_eq_singleton (hip : s.inLen = s.dec.ip + 1) (hb : inByte s s.dec.ip = b) : unread s = [b] := by
  rw [unread, hip, Nat.add_sub_cancel_left]
  exact congrArg ([·]) hb

/-! ## The fault entry, whatever latches were written before it (60_exceptions.md R198) -/

theorem faults_raise (f : ErrCode) (g : DecLatch → DecLatch) (s : State) :
    Faults (.next (raise .decompress f s.dec.ip (latchOperands g s))) s f s.dec.ip :=
  ⟨_, rfl, by simp⟩

/-! ## The step (40_decoder_loop.md R90) -/

/-- The fetch decodes what all the input left would. -/
theorem decode_window_ok {i : Instr} {rest : List Byte} (h : decode (unread s) = .ok i rest) :
    ∃ rest', decode (window s) = .ok i rest' :=
  window_eq_take s ▸ decode_take_ok h

/-- An instruction decoded from the input left lies below `IN_LEN`. -/
theorem size_le_of_decode {i : Instr} {rest : List Byte} (h : decode (unread s) = .ok i rest) :
    s.dec.ip + i.size ≤ s.inLen := by
  obtain ⟨_, hwin⟩ := decode_window_ok h
  have hip := ip_lt_of_decoded hwin
  have hlen := congrArg List.length (eq_encode_append_of_decode h)
  rw [unread, length_inBytes, List.length_append, length_encode (decode_wellFormed h)] at hlen
  omega

theorem stepDecoder_of_decode {i : Instr} {rest : List Byte} (h : decode (unread s) = .ok i rest) :
    stepDecoder s = exec i s := by
  obtain ⟨_, hwin⟩ := decode_window_ok h
  have hip : s.dec.ip ≠ s.inLen := Nat.ne_of_lt (ip_lt_of_decoded hwin)
  rw [stepDecoder, fetch, if_neg hip, hwin]

theorem stepDecoder_of_unread {i : Instr} {rest : List Byte} (hw : i.wellFormed = true) (h : unread s = encode i ++ rest) :
    stepDecoder s = exec i s :=
  stepDecoder_of_decode (h ▸ decode_encode_append hw rest)

theorem stepDecoder_of_rejected {r : Reject} (hip : s.dec.ip ≠ s.inLen) (h : decode (unread s) = .rejected r) :
    Faults (stepDecoder s) s .truncated s.dec.ip := by
  have hwin : decode (window s) = .rejected r := window_eq_take s ▸ decode_take_rejected h
  have he : stepDecoder s = .next (fetchShort r s) := by rw [stepDecoder, fetch, if_neg hip, hwin]
  obtain ⟨g, hg⟩ := fetchShort_cases r s
  rw [he, hg]
  exact faults_raise .truncated g s

theorem step_of_decode {i : Instr} {rest : List Byte} (hs : Decoding s) (hq : s.host = [])
    (h : decode (unread s) = .ok i rest) : step s = exec i s :=
  (step_decoding hs hq).trans (stepDecoder_of_decode h)

theorem step_of_unread {i : Instr} {rest : List Byte} (hs : Decoding s) (hq : s.host = []) (hw : i.wellFormed = true)
    (h : unread s = encode i ++ rest) : step s = exec i s :=
  (step_decoding hs hq).trans (stepDecoder_of_unread hw h)

theorem step_of_rejected {r : Reject} (hs : Decoding s) (hq : s.host = []) (hip : s.dec.ip < s.inLen)
    (h : decode (unread s) = .rejected r) : Faults (step s) s .truncated s.dec.ip :=
  step_decoding hs hq ▸ stepDecoder_of_rejected (Nat.ne_of_lt hip) h

/-! ## The instructions that produce output (60_exceptions.md R197) -/

theorem absSource_eq_some {pos : BitVec 16} {olen a : Nat} :
    absSource pos olen = some a ↔ a = pos.toNat ∧ pos.toNat < olen := by
  rcases absSource_cases pos olen with ⟨h, e⟩ | ⟨h, e⟩ <;> simp [e] <;> omega

theorem relSource_eq_some {dist : Byte} {olen a : Nat} :
    relSource dist olen = some a ↔ a = olen - dist.toNat ∧ 1 ≤ dist.toNat ∧ dist.toNat ≤ olen := by
  rcases relSource_cases dist olen with ⟨h, e⟩ | ⟨h, e⟩ <;> simp [e] <;> omega

/-- An instruction that produces output appends bytes, or repeats from the source of `SourceOf` where there is one. -/
theorem exec_producing {i : Instr} {hd : Header} (hp : ProducesOutput i) (hi : i.header = some hd) (s : State) :
    (∃ f bs, exec i s = runAppend hd f bs s) ∨
    (∃ f src, exec i s = runRepeat hd f src s ∧ (OfKind .repAbs i ∨ OfKind .repRel i) ∧
      ∀ a, src = some a ↔ SourceOf i s.dec.olen a) := by
  cases i <;> cases hi
  case dcopy | bfill | wfill | ifill | dcopyX | bfillX | wfillX | ifillX => exact .inl ⟨_, _, rfl⟩
  case rabs | rabsX => exact .inr ⟨_, _, rfl, .inl ⟨_, rfl, rfl⟩, fun _ => absSource_eq_some⟩
  case rrel | rrelX => exact .inr ⟨_, _, rfl, .inr ⟨_, rfl, rfl⟩, fun _ => relSource_eq_some⟩
  case ralt | raltX | extRsvd =>
    obtain ⟨_, hhd, hne5, hne7⟩ := hp
    cases hhd
    contradiction

/-- The payload test is the first of either shared operation (60_exceptions.md R191, R197). -/
theorem exec_truncated {i : Instr} {s : State} (hp : ProducesOutput i) (hshort : s.inLen < s.dec.ip + i.size) :
    Faults (exec i s) s .truncated s.dec.ip := by
  have ⟨hd, hi, _⟩ := hp
  rw [Instr.size_of_header hi] at hshort
  rcases exec_producing hp hi s with ⟨f, bs, he⟩ | ⟨f, src, he, _⟩ <;> rw [he]
  · rcases runAppend_cases hd f bs s with ⟨_, e⟩ | ⟨hin, _⟩ | ⟨hin, _⟩
    · exact e ▸ faults_raise _ (headerLatch hd) s
    · omega
    · omega
  · rcases runRepeat_cases hd f src s with ⟨_, e⟩ | ⟨hin, _⟩ | ⟨_, hin, _⟩ | ⟨_, hin, _⟩
    · exact e ▸ faults_raise _ (headerLatch hd) s
    · omega
    · omega
    · omega

/-- The capacity test is the last of either shared operation (60_exceptions.md R196, R197). -/
theorem exec_outputOverflow {i : Instr} {hd : Header} {s : State} (hp : ProducesOutput i) (hi : i.header = some hd)
    (hin : s.dec.ip + i.size ≤ s.inLen) (hsrc : OfKind .repAbs i ∨ OfKind .repRel i → ∃ src, SourceOf i s.dec.olen src)
    (hfull : capFits s.params.outCap (s.dec.olen + hd.len) = false) : Faults (exec i s) s .outputOverflow s.dec.ip := by
  have hover : overflows s.params s.dec.olen hd.len = true := by rw [overflows, hfull]; rfl
  rw [Instr.size_of_header hi] at hin
  rcases exec_producing hp hi s with ⟨f, bs, he⟩ | ⟨f, src, he, hrep, hsource⟩ <;> rw [he]
  · rcases runAppend_cases hd f bs s with ⟨hshort, _⟩ | ⟨_, _, e⟩ | ⟨_, hroom, _⟩
    · omega
    · exact e ▸ faults_raise _ (headerLatch hd) s
    · simp [hover] at hroom
  · obtain ⟨a, ha⟩ := hsrc hrep
    obtain rfl := (hsource a).mpr ha
    rcases runRepeat_cases hd f (some a) s with ⟨hshort, _⟩ | ⟨_, hnone, _⟩ | ⟨c, _, _, _, e⟩ | ⟨_, _, _, hroom, _⟩
    · omega
    · cases hnone
    · exact e ▸ faults_raise _ (srcLatch c ∘ f ∘ headerLatch hd) s
    · simp [hover] at hroom

end Sys2Proof.Machine
end

section
/-! The obligations of 40_decoder_loop.md. -/

namespace Sys2Proof.Safety

open Sys2Proof.Machine

/-- Settles O20: the payload test is the first of either shared operation. -/
theorem missingPayloadIsTruncated : Obligations.MissingPayloadIsTruncated :=
  fun _ _ hp hshort => exec_truncated hp hshort

/-- Settles O22: the capacity test is the last of either shared operation, and an instruction decoded from the input left has its
payload below `IN_LEN`. -/
theorem fullOutputIsOutputOverflow : Obligations.FullOutputIsOutputOverflow :=
  ⟨fun _ _ _ hp hi => exec_outputOverflow hp hi, fun _ _ _ _ hs hq hdec hp hi =>
    step_of_decode hs hq hdec ▸ exec_outputOverflow hp hi (size_le_of_decode hdec)⟩

/-- Settles O28: the fetch sees all of a stream that is cut short. -/
theorem streamCutShortIsTruncated : Obligations.StreamCutShortIsTruncated :=
  fun _ _ hs hq hip hdec => step_of_rejected hs hq hip hdec

/-- Settles O29: the byte is all the input left, and of the kinds of the short form only 5 has no payload. -/
theorem loneHeaderByteFails : Obligations.LoneHeaderByteFails := by
  intro s b hs hq hip hb hterm
  have hlone := unread_eq_singleton hip hb
  have hlt : s.dec.ip < s.inLen := by omega
  rcases headerByte_cases hterm with ⟨k, n, hk, rfl⟩ | ⟨h, hh, rfl⟩
  · by_cases hk5 : k = .repAlt
    · rw [if_pos ((shortByte_range_repAlt n).mpr hk5)]
      subst hk5
      exact step_of_unread (i := .ralt n) hs hq rfl hlone ▸ faults_raise _ (headerLatch (shortHeader .repAlt n)) s
    · rw [if_neg (mt (shortByte_range_repAlt n).mp hk5)]
      exact step_of_rejected hs hq hlt (hlone ▸ decode_lone_shortByte hk hk5 n)
  · rw [if_neg (by rw [extByte_toNat]; omega)]
    exact step_of_rejected hs hq hlt (hlone ▸ decode_extByte_nil hh)

/-- Settles O17: the terminator decodes whatever stands after it. -/
theorem terminatorEndsTheRun : Obligations.TerminatorEndsTheRun := by
  have hexec (s : State) : Stops (exec .endStream s) s (s.dec.ip + 1) true :=
    ⟨_, rfl, by simp [eosTerminator]⟩
  refine ⟨hexec, fun s hs hq hip hb => ?_⟩
  obtain ⟨rest, hrest⟩ := unread_eq_cons hip hb
  exact step_of_unread (i := .endStream) hs hq rfl hrest ▸ hexec s

/-- Settles O19: a byte `0xE0 .. 0xFE` is the first of an extended header, whose continuation byte is there or not. -/
theorem reservedContinuationFaults : Obligations.ReservedContinuationFaults := by
  have hexec (h l : BitVec 5) (s : State) : Faults (exec (.extRsvd h l) s) s .reservedEncoding s.dec.ip :=
    faults_raise _ (headerLatch (extHeader .seven h l)) s
  refine ⟨hexec, fun s b e hs hq hip hb he hlow hhigh hkind => ?_, fun s b hs hq hip hb hlow hhigh => ?_⟩
  · obtain ⟨h, hh, rfl⟩ := exists_extByte hlow hhigh
    obtain ⟨l, rfl⟩ := exists_contByte (k := .seven) hkind
    obtain ⟨rest, hrest⟩ := unread_eq_cons_cons hip hb he
    exact step_of_unread (i := .extRsvd h l) hs hq hh hrest ▸ hexec h l s
  · obtain ⟨h, hh, rfl⟩ := exists_extByte hlow hhigh
    exact step_of_rejected hs hq (by omega) (unread_eq_singleton hip.symm hb ▸ decode_extByte_nil hh)

/-- Settles O26: the input left begins with the instruction's encoding, which decodes to the instruction. A quiet turn leaves the
engine's step on the same IN. -/
theorem stepRunsTheDecodedInstruction : Obligations.StepRunsTheDecodedInstruction := by
  intro i s hs hw hbs hin
  obtain ⟨rest, hrest⟩ := unread_eq_append hbs hin
  refine ⟨fun hq => step_of_unread hs hq hw hrest, fun later hq => ?_⟩
  obtain ⟨hrun, hop⟩ := hs
  calc step s = stepEngine { s with host := later } := step_quiet_cons hq
    _ = stepDecoder { s with host := later } := stepEngine_decoding hrun hop
    _ = exec i { s with host := later } := stepDecoder_of_unread hw hrest

/-- Settles O27: an exhausted input is the first case of the fetch. -/
theorem exhaustionEndsTheRun : Obligations.ExhaustionEndsTheRun := by
  intro s hs hq hip
  rw [step_decoding hs hq, stepDecoder, fetch, if_pos hip]
  exact ⟨_, rfl, by simp [eosExhausted]⟩

end Sys2Proof.Safety
end

section
/-! What an instruction that completes leaves behind: the bytes it appended at the write position `OLEN`, and everything else as
before (40_decoder_loop.md R96, R98). Kinds 0 to 3 append bytes known before the write. -/

namespace Sys2Proof.Machine

open Sys2Proof.Safety

/-! ## Completion appends -/

theorem Mem.byteAt_storeRun_add {bs : List Byte} {i : Nat} (m : Mem) (a : Nat) (hi : i < bs.length) :
    (m.storeRun a bs).byteAt (a + i) = bs[i]? := by
  rw [Mem.byteAt_storeRun, if_pos (by omega), Nat.add_sub_cancel_left]

section
variable {hd : Header} {s : State} {ip' : Nat} {byte : Nat → Option Byte}

/-- Completing an instruction appends what was written at `OLEN`, whatever latches were written before it. -/
theorem appends_finishCopy {m : Mem} (g : DecLatch → DecLatch) (hip : ip' = s.dec.ip + hd.size) (hw : Wrote s hd.len m)
    (hm : ∀ i, i < hd.len → m.byteAt (s.dec.olen + i) = byte i) :
    Appends (.next (finishCopy hd m (latchOperands g s))) s ip' hd.len byte :=
  ⟨_, rfl, hip.symm, rfl, hm, hw.below, by simp [SameButDecoder]⟩

/-- With its payload in IN and room in OUT, an instruction of kinds 0 to 3 appends its output bytes. -/
theorem appends_runAppend {f : DecLatch → DecLatch} {bs : List Byte} (hip : ip' = s.dec.ip + hd.size) (hin : ip' ≤ s.inLen)
    (hroom : capFits s.params.outCap (s.dec.olen + hd.len) = true) (hlen : bs.length = hd.len)
    (hbs : ∀ i, i < hd.len → bs[i]? = byte i) : Appends (runAppend hd f bs s) s ip' hd.len byte := by
  rcases runAppend_cases hd f bs s with ⟨hshort, _⟩ | ⟨_, hfull, _⟩ | ⟨_, _, e⟩
  · omega
  · simp [overflows_eq_false.mpr hroom] at hfull
  · rw [e, appendBytes_eq]
    refine appends_finishCopy (f ∘ headerLatch hd) hip (hlen ▸ wrote_storeRun s bs) fun i hi => ?_
    exact (Mem.byteAt_storeRun_add _ _ (hlen ▸ hi)).trans (hbs i hi)

end

/-! ## The bytes of the fills (41_direct_and_fill.md R112, R114, R116) -/

theorem getElem?_byteFillBytes {len i : Nat} (b : Byte) (hi : i < len) : (byteFillBytes len b)[i]? = some b := by
  simp [byteFillBytes, hi]

theorem getElem?_wordFillBytes {len i : Nat} (b0 b1 : Byte) (hi : i < len) :
    (wordFillBytes len b0 b1)[i]? = some (if i % 2 = 0 then b0 else b1) := by
  simp [wordFillBytes, hi]

theorem add_ofNat_eq_ofNat_mod (start : Byte) (i : Nat) :
    start + BitVec.ofNat 8 i = BitVec.ofNat 8 ((start.toNat + i) % 256) := by
  apply BitVec.eq_of_toNat_eq
  simp

theorem getElem?_incFillBytes {len i : Nat} (start : Byte) (hi : i < len) :
    (incFillBytes len start)[i]? = some (BitVec.ofNat 8 ((start.toNat + i) % 256)) := by
  simp [incFillBytes, hi, add_ofNat_eq_ofNat_mod]

end Sys2Proof.Machine
end

section
/-! The obligations of 41_direct_and_fill.md. -/

namespace Sys2Proof.Safety

open Sys2Proof.Machine

/-- Settles O10: the payload is as long as the header says, and is what both forms append. -/
theorem directCopyAppendsItsPayload : Obligations.DirectCopyAppendsItsPayload :=
  ⟨fun n _ _ hlen hin hroom =>
    appends_runAppend (hd := shortHeader .direct n) (Nat.add_assoc _ _ _) hin hroom hlen fun _ _ => rfl,
   fun h l _ _ hlen hin hroom =>
    appends_runAppend (hd := extHeader .direct h l) (Nat.add_assoc _ _ _) hin hroom hlen fun _ _ => rfl⟩

/-- Settles O11: both forms append the bytes of the fill. -/
theorem byteFillRepeatsItsByte : Obligations.ByteFillRepeatsItsByte :=
  ⟨fun n b _ hin hroom => appends_runAppend (hd := shortHeader .byteFill n) rfl hin hroom
    (length_byteFillBytes _ b) fun _ => getElem?_byteFillBytes b,
   fun h l b _ hin hroom => appends_runAppend (hd := extHeader .byteFill h l) rfl hin hroom
    (length_byteFillBytes _ b) fun _ => getElem?_byteFillBytes b⟩

/-- Settles O12: the parity is that of the index within the fill, not of the position in OUT. -/
theorem wordFillAlternatesItsBytes : Obligations.WordFillAlternatesItsBytes :=
  ⟨fun n b0 b1 _ hin hroom => appends_runAppend (hd := shortHeader .wordFill n) rfl hin hroom
    (length_wordFillBytes _ b0 b1) fun _ => getElem?_wordFillBytes b0 b1,
   fun h l b0 b1 _ hin hroom => appends_runAppend (hd := extHeader .wordFill h l) rfl hin hroom
    (length_wordFillBytes _ b0 b1) fun _ => getElem?_wordFillBytes b0 b1⟩

/-- Settles O13: addition of bytes is addition modulo 256. -/
theorem increasingFillCountsModulo256 : Obligations.IncreasingFillCountsModulo256 :=
  ⟨fun n start _ hin hroom => appends_runAppend (hd := shortHeader .incFill n) rfl hin hroom
    (length_incFillBytes _ start) fun _ => getElem?_incFillBytes start,
   fun h l start _ hin hroom => appends_runAppend (hd := extHeader .incFill h l) rfl hin hroom
    (length_incFillBytes _ start) fun _ => getElem?_incFillBytes start⟩

end Sys2Proof.Safety
end

section
/-! What a repeat leaves behind (42_repeat.md R130, R131, R139): the byte-serial copy within the growing buffer, and its closed
form, the source repeated with the period from the source to the write position. -/

namespace Sys2Proof.Machine

open Sys2Proof.Safety

/-! ## The overlapping copy (42_repeat.md R130, R139) -/

section
variable {n src dst p k : Nat} {m : Mem} (free : Nat → Byte)

theorem copyBytes_isSome (hk : k < n) : ((copyBytes free n src dst m).byteAt (dst + k)).isSome := by
  induction n generalizing src dst k m with
  | zero => omega
  | succ n ih =>
    rw [copyBytes]
    cases k with
    | zero =>
      rw [copyBytes_frame free n _ _ _ (dst + 0) (by omega), Nat.add_zero, Mem.byteAt_store_self]
      rfl
    | succ k =>
      rw [Nat.add_comm k, ← Nat.add_assoc]
      exact ih (by omega)

/-- A byte stands at every position the copy wrote, and is the byte read at the source. -/
theorem copyBytes_byteAt (hs : src < dst) (hk : k < n) :
    (copyBytes free n src dst m).byteAt (dst + k) = some ((copyBytes free n src dst m).readOr free (src + k)) := by
  obtain ⟨b, hb⟩ := Option.isSome_iff_exists.mp (copyBytes_isSome free (src := src) (m := m) hk)
  rw [hb, ← copyBytes_reads free hs hk, Mem.readOr_of_byteAt hb]

/-- The copy's closed form: below the write position its source reads as before, and further on it is what the copy wrote one
period earlier. -/
theorem copyBytes_periodic (hp : 0 < p) (hk : k < n) :
    (copyBytes free n src (src + p) m).byteAt (src + p + k) = some (m.readOr free (src + k % p)) := by
  induction k using Nat.strong_induction_on with
  | h k ih =>
    rw [copyBytes_byteAt free (by omega) hk]
    by_cases hkp : k < p
    · rw [Nat.mod_eq_of_lt hkp, Mem.readOr, copyBytes_frame free n src _ m _ (by omega), Mem.readOr]
    · have hwritten := ih (k - p) (by omega) (by omega)
      rw [Nat.add_assoc, Nat.add_sub_cancel' (by omega), ← Nat.mod_eq_sub_mod (by omega)] at hwritten
      rw [Mem.readOr_of_byteAt hwritten]

end

/-! ## Completion appends -/

/-- With its payload in IN, a source `p` below the write position and room in OUT, a repeat appends its source with period `p`. -/
theorem appends_runRepeat {hd : Header} {f : DecLatch → DecLatch} {src : Option Nat} {s : State} {ip' a p : Nat}
    (hip : ip' = s.dec.ip + hd.size) (hin : ip' ≤ s.inLen) (hsrc : src = some a) (hp : 0 < p) (hap : a + p = s.dec.olen)
    (hroom : capFits s.params.outCap (s.dec.olen + hd.len) = true) :
    Appends (runRepeat hd f src s) s ip' hd.len fun i => some (outByte s (a + i % p)) := by
  rcases runRepeat_cases hd f src s with ⟨hshort, _⟩ | ⟨_, hnone, _⟩ | ⟨_, _, _, hfull, _⟩ | ⟨c, _, hc, _, e⟩
  · omega
  · simp [hsrc] at hnone
  · simp [overflows_eq_false.mpr hroom] at hfull
  · obtain rfl : a = c := Option.some.inj (hsrc.symm.trans hc)
    rw [e]
    refine appends_finishCopy (srcLatch a ∘ f ∘ headerLatch hd) hip (wrote_copyBytes (by omega) _) fun i hi => ?_
    rw [← hap]
    exact copyBytes_periodic _ hp hi

/-! ## The instructions of kinds 4 and 6 -/

/-- A repeat's source, where it has one, is that of `SourceOf`. -/
theorem exec_repeat {i : Instr} {hd : Header} (hk : OfKind .repAbs i ∨ OfKind .repRel i) (hi : i.header = some hd) (s : State) :
    ∃ f src, exec i s = runRepeat hd f src s ∧ ∀ a, src = some a ↔ SourceOf i s.dec.olen a := by
  cases i <;> cases hi
  case rabs | rabsX => exact ⟨_, _, rfl, fun _ => absSource_eq_some⟩
  case rrel | rrelX => exact ⟨_, _, rfl, fun _ => relSource_eq_some⟩
  all_goals rcases hk with ⟨_, hhd, hkind⟩ | ⟨_, hhd, hkind⟩ <;> cases hhd <;> cases hkind

/-- Only a repeat has a source, and it lies below the write position. -/
theorem repeat_of_sourceOf {i : Instr} {olen src : Nat} (h : SourceOf i olen src) :
    (OfKind .repAbs i ∨ OfKind .repRel i) ∧ src < olen := by
  cases i with
  | rabs | rabsX =>
    obtain ⟨rfl, hlt⟩ := h
    exact ⟨.inl ⟨_, rfl, rfl⟩, hlt⟩
  | rrel | rrelX =>
    obtain ⟨rfl, hpos, hle⟩ := h
    exact ⟨.inr ⟨_, rfl, rfl⟩, by omega⟩
  | _ => exact h.elim

theorem exists_shortByte_repAlt {b : Byte} (hlow : 0xA0 ≤ b.toNat) (hhigh : b.toNat ≤ 0xBF) : ∃ n, b = shortByte .repAlt n := by
  rcases headerByte_cases (ne_term_of_lt (hhigh.trans_lt (by decide))) with ⟨k, n, _, rfl⟩ | ⟨h, _, rfl⟩
  · obtain rfl := (shortByte_range_repAlt n).mp ⟨hlow, hhigh⟩
    exact ⟨n, rfl⟩
  · rw [extByte_toNat] at hhigh
    omega

end Sys2Proof.Machine
end

section
/-! The obligations of 42_repeat.md. -/

namespace Sys2Proof.Safety

open Sys2Proof.Machine

/-- Settles O14: the source lies `OLEN - pos` below the write position. -/
theorem absoluteRepeatIsPeriodic : Obligations.AbsoluteRepeatIsPeriodic :=
  ⟨fun n _ _ hin hpos hroom => appends_runRepeat (hd := shortHeader .repAbs n) rfl hin (absSource_eq_some.mpr ⟨rfl, hpos⟩)
    (Nat.sub_pos_of_lt hpos) (Nat.add_sub_of_le hpos.le) hroom,
   fun h l _ _ hin hpos hroom => appends_runRepeat (hd := extHeader .repAbs h l) rfl hin (absSource_eq_some.mpr ⟨rfl, hpos⟩)
    (Nat.sub_pos_of_lt hpos) (Nat.add_sub_of_le hpos.le) hroom⟩

/-- Settles O15: the source lies `dist` below the write position. -/
theorem relativeRepeatIsPeriodic : Obligations.RelativeRepeatIsPeriodic :=
  ⟨fun n _ _ hin hpos hle hroom => appends_runRepeat (hd := shortHeader .repRel n) rfl hin
    (relSource_eq_some.mpr ⟨rfl, hpos, hle⟩) hpos (Nat.sub_add_cancel hle) hroom,
   fun h l _ _ hin hpos hle hroom => appends_runRepeat (hd := extHeader .repRel h l) rfl hin
    (relSource_eq_some.mpr ⟨rfl, hpos, hle⟩) hpos (Nat.sub_add_cancel hle) hroom⟩

/-- Settles O16: the run goes on only where the repeat passed its tests and copied. -/
theorem repeatCopiesBytewiseForward : Obligations.RepeatCopiesBytewiseForward := by
  intro i hd s t src hi hsrc _ h hrun
  obtain ⟨hk, hlt⟩ := repeat_of_sourceOf hsrc
  obtain ⟨f, src', he, hsource⟩ := exec_repeat hk hi s
  obtain rfl := (hsource src).mpr hsrc
  rw [he] at h
  rcases runRepeat_cases hd f (some src) s with ⟨_, e⟩ | ⟨_, _, e⟩ | ⟨_, _, _, _, e⟩ | ⟨a, _, ha, _, e⟩ <;> rw [e] at h <;>
    cases h
  · cases hrun
  · cases hrun
  · cases hrun
  · cases ha
    exact ⟨fun k => copyBytes_byteAt _ hlt, rfl, copyBytes_frame _ hd.len src s.dec.olen s.outMem⟩

/-- Settles O21: of a repeat's tests the source's comes after the payload's and before that of the room in OUT. -/
theorem badSourceIsInvalidOffset : Obligations.BadSourceIsInvalidOffset := by
  intro i s hk hin hnone
  obtain ⟨hd, hi⟩ : ∃ hd, i.header = some hd := hk.elim (fun ⟨hd, hi, _⟩ => ⟨hd, hi⟩) fun ⟨hd, hi, _⟩ => ⟨hd, hi⟩
  obtain ⟨f, src, he, hsource⟩ := exec_repeat hk hi s
  rw [Instr.size_of_header hi] at hin
  rw [he]
  rcases runRepeat_cases hd f src s with ⟨hshort, _⟩ | ⟨_, _, e⟩ | ⟨a, _, ha, _⟩ | ⟨a, _, ha, _⟩
  · omega
  · exact e ▸ faults_raise _ (f ∘ headerLatch hd) s
  · exact absurd ((hsource a).mp ha) (hnone a)
  · exact absurd ((hsource a).mp ha) (hnone a)

/-- Settles O18: kind 5 decodes from its header alone, whatever stands after it. -/
theorem kind5IsUnsupported : Obligations.Kind5IsUnsupported := by
  have hshort (n : BitVec 5) (s : State) : Faults (exec (.ralt n) s) s .unsupportedKind s.dec.ip :=
    faults_raise _ (headerLatch (shortHeader .repAlt n)) s
  have hext (h l : BitVec 5) (s : State) : Faults (exec (.raltX h l) s) s .unsupportedKind s.dec.ip :=
    faults_raise _ (headerLatch (extHeader .repAlt h l)) s
  refine ⟨hshort, hext, fun s b hs hq hip hb hlow hhigh => ?_, fun s b e hs hq hip hb he hlow hhigh hkind => ?_⟩
  · obtain ⟨n, rfl⟩ := exists_shortByte_repAlt hlow hhigh
    obtain ⟨rest, hrest⟩ := unread_eq_cons hip hb
    exact step_of_unread (i := .ralt n) hs hq rfl hrest ▸ hshort n s
  · obtain ⟨h, hh, rfl⟩ := exists_extByte hlow hhigh
    obtain ⟨l, rfl⟩ := exists_contByte (k := .repAlt) hkind
    obtain ⟨rest, hrest⟩ := unread_eq_cons_cons hip hb he
    exact step_of_unread (i := .raltX h l) hs hq hh hrest ▸ hext h l s

end Sys2Proof.Safety
end

section
/-! The encoder's scans (43_encoder.md R154 to R159): a scan finds the largest run within the cap, a search the first argument that
attains the largest value. -/

namespace Sys2Proof.Machine

open Sys2Proof.Safety

/-! ## Runs (43_encoder.md R154 to R157) -/

section
variable {ok : Nat → Bool} {fuel i j k : Nat}

theorem self_le_scanFrom (ok : Nat → Bool) (fuel i : Nat) : i ≤ scanFrom ok fuel i := by
  induction fuel generalizing i with
  | zero => exact Nat.le_refl i
  | succ fuel ih =>
    rw [scanFrom]
    split
    · exact (Nat.le_succ i).trans (ih (i + 1))
    · exact Nat.le_refl i

theorem scanFrom_ok (hij : i ≤ j) (hj : j < scanFrom ok fuel i) : ok j = true := by
  induction fuel generalizing i with
  | zero => exact absurd hij (Nat.not_le.mpr hj)
  | succ fuel ih =>
    rw [scanFrom] at hj
    split at hj
    · rename_i hi
      rcases Nat.eq_or_lt_of_le hij with rfl | hlt
      · exact hi
      · exact ih hlt hj
    · omega

theorem le_scanFrom (hk : k ≤ i + fuel) (h : ∀ j, i ≤ j → j < k → ok j = true) : k ≤ scanFrom ok fuel i := by
  induction fuel generalizing i with
  | zero => exact hk
  | succ fuel ih =>
    rcases Nat.lt_or_ge i k with hik | hki
    · rw [scanFrom, if_pos (h i (Nat.le_refl i) hik)]
      exact ih (by omega) fun j hj => h j (by omega)
    · exact hki.trans (self_le_scanFrom ok _ i)

/-- A scan within a cap finds the largest run of what it tests. -/
theorem largestRun_longest {P : Nat → Prop} (h : ∀ i, ok i = true ↔ P i) (cap : Nat) : LargestRun P cap (longest ok cap) :=
  ⟨longest_le ok cap, fun i hi => (h i).mp (scanFrom_ok (Nat.zero_le i) hi),
    fun _ hk hP => le_scanFrom (by omega) fun j _ hj => (h j).mpr (hP j hj)⟩

end

theorem largestRun_holds {ok : Nat → Prop} {cap len : Nat} (h : LargestRun ok cap len) : ∀ i, i < len → ok i := by
  obtain ⟨_, hok, _⟩ := h
  exact hok

theorem largestRun_scanByteFill (x : List Byte) (p cap : Nat) :
    LargestRun (fun i => inputAt x (p + i) = inputAt x p) cap (scanByteFill x p cap) :=
  largestRun_longest (fun _ => beq_iff_eq) cap

theorem largestRun_scanWordFill (x : List Byte) {n p : Nat} (cap : Nat) (h : 2 ≤ n - p) :
    LargestRun (fun i => inputAt x (p + i) = inputAt x (p + i % 2)) cap (scanWordFill x n p cap) := by
  rw [scanWordFill, if_neg (Nat.not_lt.mpr h)]
  exact largestRun_longest (fun _ => beq_iff_eq) cap

theorem largestRun_scanIncFill (x : List Byte) (p cap : Nat) :
    LargestRun (fun i => inputAt x (p + i) = inputAt x p + BitVec.ofNat 8 i) cap (scanIncFill x p cap) :=
  largestRun_longest (fun _ => beq_iff_eq) cap

theorem largestRun_matchLen (x : List Byte) (cap src p : Nat) :
    LargestRun (fun i => inputAt x (p + i) = inputAt x (src + i)) cap (matchLen x cap src p) :=
  largestRun_longest (fun _ => beq_iff_eq) cap

/-! ## Searches (43_encoder.md R158, R159) -/

/-- What a search over the `fuel` arguments from `k` on makes of the best so far: it keeps it, or finds a larger value at the first
argument that attains the largest. -/
structure Found (f : Nat → Nat) (fuel k : Nat) (best r : Nat × Nat) : Prop where
  atLeast : best.1 ≤ r.1
  largest : ∀ j, k ≤ j → j < k + fuel → f j ≤ r.1
  kept : r.1 = best.1 → r = best
  attained : best.1 < r.1 → k ≤ r.2 ∧ r.2 < k + fuel ∧ f r.2 = r.1 ∧ ∀ j, k ≤ j → j < r.2 → f j < r.1

theorem found_searchFrom (f : Nat → Nat) (fuel k : Nat) (best : Nat × Nat) :
    Found f fuel k best (searchFrom f fuel k best) := by
  induction fuel generalizing k best with
  | zero => exact ⟨Nat.le_refl _, fun j _ _ => by omega, fun _ => rfl, fun h => absurd h (Nat.lt_irrefl _)⟩
  | succ fuel ih =>
    rw [searchFrom]
    split
    · rename_i hbetter
      obtain ⟨hge, hmax, hkept, hattained⟩ := ih (k + 1) (f k, k)
      generalize searchFrom f fuel (k + 1) (f k, k) = r at *
      dsimp only at hge hkept hattained
      refine ⟨by omega, fun j hkj hj => ?_, fun h => by omega, fun _ => ?_⟩
      · rcases Nat.eq_or_lt_of_le hkj with rfl | hlt
        · exact hge
        · exact hmax j hlt (by omega)
      · rcases Nat.eq_or_lt_of_le hge with heq | hlt
        · obtain rfl := hkept heq.symm
          exact ⟨Nat.le_refl k, by dsimp only; omega, rfl, fun j hkj hj => absurd hkj (Nat.not_le.mpr hj)⟩
        · obtain ⟨hk, hr, hf, hbelow⟩ := hattained hlt
          refine ⟨by omega, by omega, hf, fun j hkj hj => ?_⟩
          rcases Nat.eq_or_lt_of_le hkj with rfl | hkj
          · exact hlt
          · exact hbelow j hkj hj
    · rename_i hworse
      obtain ⟨hge, hmax, hkept, hattained⟩ := ih (k + 1) best
      refine ⟨hge, fun j hkj hj => ?_, hkept, fun hlt => ?_⟩
      · rcases Nat.eq_or_lt_of_le hkj with rfl | hkj
        · exact (Nat.not_lt.mp hworse).trans hge
        · exact hmax j hkj (by omega)
      · obtain ⟨hk, hr, hf, hbelow⟩ := hattained hlt
        refine ⟨by omega, by omega, hf, fun j hkj hj => ?_⟩
        rcases Nat.eq_or_lt_of_le hkj with rfl | hkj
        · exact (Nat.not_lt.mp hworse).trans_lt hlt
        · exact hbelow j hkj hj

theorem found_searchRelative (x : List Byte) (cap p : Nat) :
    Found (fun dist => matchLen x cap (p - dist) p) (min p 255) 1 (0, 0) (searchRelative x cap p) :=
  found_searchFrom _ _ 1 (0, 0)

theorem found_searchAbsolute (x : List Byte) (cap p : Nat) :
    Found (fun pos => matchLen x cap pos p) (min p 65536) 0 (0, 0) (searchAbsolute x cap p) :=
  found_searchFrom _ _ 0 (0, 0)

end Sys2Proof.Machine
end

section
/-! The encoder's selection (43_encoder.md R160 to R163): candidates are ranked by ratio, cost and kind number, and the one that
ranks highest is selected. -/

namespace Sys2Proof.Machine

/-! ## The order of candidates (43_encoder.md R160, R161) -/

theorem cost_pos (c : Cand) : 0 < cost c := by
  rw [cost, hdrLen]
  split <;> omega

/-- What *better than* compares, in this order: the ratio of length to cost, the cost (the smaller the better), the kind
number. -/
def rank (c : Cand) : ℚ ×ₗ ℕᵒᵈ ×ₗ ℕ :=
  toLex ((c.len : ℚ) / cost c, toLex (OrderDual.toDual (cost c), c.kind.toBits.toNat))

theorem kind_eq_of_rank_eq {a b : Cand} (h : rank a = rank b) : a.kind = b.kind := by
  have hbits : a.kind.toBits.toNat = b.kind.toBits.toNat := congrArg (fun r => (ofLex (ofLex r).2).2) h
  rw [← Kind.ofBits_toBits a.kind, BitVec.eq_of_toNat_eq hbits, Kind.ofBits_toBits]

/-- *Better than* is a higher rank: comparing the products compares the ratios, as costs are positive (R161). -/
theorem better_iff_rank_lt {a b : Cand} : better a b = true ↔ rank b < rank a := by
  have ha : (0 : ℚ) < cost a := by exact_mod_cast cost_pos a
  have hb : (0 : ℚ) < cost b := by exact_mod_cast cost_pos b
  have hratio : (b.len : ℚ) / cost b < a.len / cost a ↔ b.len * cost a < a.len * cost b := by
    rw [div_lt_div_iff₀ hb ha]
    norm_cast
  have hsame : (b.len : ℚ) / cost b = a.len / cost a ↔ a.len * cost b = b.len * cost a := by
    rw [div_eq_div_iff hb.ne' ha.ne', eq_comm]
    norm_cast
  simp only [rank, Prod.Lex.toLex_lt_toLex, hratio, hsame, OrderDual.toDual_lt_toDual, OrderDual.toDual_inj, better,
    Bool.or_eq_true, Bool.and_eq_true, decide_eq_true_eq, eq_comm (a := cost b)]

/-! ## The candidates (43_encoder.md R154 to R159) -/

/-- There is one candidate of each kind. -/
theorem candidates_eq_of_kind_eq {x : List Byte} {p : Nat} {r : Scans} {c d : Cand} (hc : c ∈ candidates x p r)
    (hd : d ∈ candidates x p r) (h : c.kind = d.kind) : c = d := by
  have hkinds : ((candidates x p r).map Cand.kind).Nodup := by
    change [Kind.byteFill, .wordFill, .incFill, .repAbs, .repRel].Nodup
    decide
  exact List.inj_on_of_nodup_map hkinds hc hd h

/-- A candidate's kind is one that ENC emits as a selection, and its payload is that kind's (R176, 30_encoding.md R72). -/
theorem candidates_kind_payload {x : List Byte} {p : Nat} {r : Scans} {c : Cand} (hc : c ∈ candidates x p r) :
    c.kind ≠ .direct ∧ c.kind ≠ .repAlt ∧ c.kind ≠ .seven ∧ c.payload.length = payloadLen c.kind c.len := by
  simp only [candidates, List.mem_cons, List.not_mem_nil, or_false] at hc
  rcases hc with rfl | rfl | rfl | rfl | rfl <;> simp [payloadLen]

theorem length_headerBytes (k : Kind) (len : Nat) : (headerBytes k len).length = hdrLen len := by
  rw [headerBytes, hdrLen]
  split <;> rfl

/-- A selection occupies its cost, which is less than it produces (R162). -/
theorem length_instrBytes_lt {x : List Byte} {p : Nat} {r : Scans} {c : Cand} (hc : c ∈ candidates x p r)
    (hq : qualifies c = true) : (instrBytes c.kind c.len c.payload).length < c.len := by
  obtain ⟨_, _, _, hpayload⟩ := candidates_kind_payload hc
  rw [instrBytes, List.length_append, length_headerBytes, hpayload]
  exact of_decide_eq_true hq

/-! ## The selection (43_encoder.md R163) -/

theorem pick_some (b c : Cand) : pick (some b) c = some (if rank b < rank c then c else b) := by
  by_cases h : better c b = true
  · rw [pick, if_pos h, if_pos (better_iff_rank_lt.mp h)]
  · rw [pick, if_neg h, if_neg (mt better_iff_rank_lt.mpr h)]

/-- A choice made, going on picks what ranks no lower than it and than every further candidate. -/
theorem foldl_pick_some (cs : List Cand) (b : Cand) :
    ∃ c, cs.foldl pick (some b) = some c ∧ rank b ≤ rank c ∧ ∀ d ∈ cs, rank d ≤ rank c := by
  induction cs generalizing b with
  | nil => exact ⟨b, rfl, le_refl _, by simp⟩
  | cons a cs ih =>
    rw [List.foldl_cons, pick_some]
    obtain ⟨c, hc, hbest, hcs⟩ := ih (if rank b < rank a then a else b)
    have hab : rank a ≤ rank c ∧ rank b ≤ rank c := by
      split at hbest
      · exact ⟨hbest, (le_of_lt ‹_›).trans hbest⟩
      · exact ⟨(not_lt.mp ‹_›).trans hbest, hbest⟩
    exact ⟨c, hc, hab.2, List.forall_mem_cons.mpr ⟨hab.1, hcs⟩⟩

/-- `select` answers none only where nothing qualifies, and otherwise a candidate that ranks highest of those that qualify. -/
theorem select_cases (cs : List Cand) :
    (select cs = none ∧ ∀ c ∈ cs, qualifies c = false) ∨
    ∃ c, select cs = some c ∧ ∀ d ∈ cs, qualifies d = true → rank d ≤ rank c := by
  rw [select]
  cases hf : cs.filter qualifies with
  | nil => exact .inl ⟨rfl, by simpa using hf⟩
  | cons a as =>
    obtain ⟨c, hc, ha, has⟩ := foldl_pick_some as a
    refine .inr ⟨c, hc, fun d hd hq => ?_⟩
    have hmem : d ∈ a :: as := hf ▸ List.mem_filter.mpr ⟨hd, hq⟩
    rcases List.mem_cons.mp hmem with rfl | hd
    · exact ha
    · exact has d hd

end Sys2Proof.Machine
end

section
/-! A pass of the encoder, said once for a running encoder whose host is quiet (43_encoder.md R152): what it wrote, how far its
cursor moved, what is pending after it, and how much it may write at most. -/

namespace Sys2Proof.Machine

open Sys2Proof.Safety

/-- An ENC run in progress with a quiet host, its cursors and its pending run as they should be: what the block's invariant says
of it, the input's own size and the widths left out. -/
structure EncRuns (s : State) : Prop where
  encoding : Encoding s
  quiet : s.host = []
  cursor : s.enc.p ≤ s.enc.n
  filled : OutFilled s s.enc.olen
  room : capFits s.params.outCap s.enc.olen = true
  pending : PendingHeld s

theorem encRuns_of_inv {s : State} (h : Inv s) (he : Encoding s) (hq : s.host = []) : EncRuns s := by
  obtain ⟨_, hp, hfilled, hroom⟩ := h.encoder he
  exact ⟨he, hq, hp, hfilled, hroom, h.pending he⟩

theorem encRuns_encCall (c : Params) (x : List Byte) : EncRuns (encCall c x) where
  encoding := ⟨rfl, rfl⟩
  quiet := rfl
  cursor := Nat.zero_le _
  filled := outFilled_nil rfl
  room := capFits_zero _
  pending := pendingHeld_of_empty rfl

/-- The pending run lies before the cursor (10_state.md R18). -/
theorem PendingHeld.litLen_le {s : State} (h : PendingHeld s) : s.enc.litLen.toNat ≤ s.enc.p := by
  rcases Nat.eq_zero_or_pos s.enc.litLen.toNat with h0 | hpos
  · omega
  · have := h.2 hpos
    omega

/-! ## How much a pass writes (43_encoder.md R173) -/

theorem hdrLen_le {len : Nat} (h : 0 < len) : hdrLen len ≤ len := by
  rw [hdrLen, Config.shortMaxLen]
  split <;> omega

/-- A flush writes at most two bytes for each pending one. -/
theorem length_pendingStream_le (x : List Byte) (s : State) : (pendingStream x s).length ≤ 2 * s.enc.litLen.toNat := by
  rw [pendingStream]
  split
  · exact Nat.zero_le _
  · have hhdr := hdrLen_le (Nat.pos_of_ne_zero ‹_›)
    simp only [instrBytes, pendingBytes, List.length_append, length_headerBytes, List.length_take]
    omega

theorem length_pendingInstr_le (s : State) : (pendingInstr s).length ≤ 2 * s.enc.litLen.toNat :=
  length_pendingStream_le (inputBytes s) s

section
variable {s t : State} {c : Cand}

/-- A selection is a candidate that stays within the input and is shorter in the stream (43_encoder.md R153, R162). -/
theorem selection_bounds (h : selection s = some c) :
    1 ≤ c.len ∧ c.len ≤ s.enc.n - s.enc.p ∧ (instrBytes c.kind c.len c.payload).length < c.len := by
  obtain ⟨hmem, hqual⟩ := select_mem h
  have hlt := length_instrBytes_lt hmem hqual
  exact ⟨by omega, (candidates_len_le hmem).trans (Nat.min_le_right _ _), hlt⟩

/-! ## The passes (43_encoder.md R167, R168, R169) -/

/-- What a step of a running encoder leaves where OUT has room. -/
inductive Passes (s : State) : State → Prop
  | selected {c : Cand} {t : State} (hp : s.enc.p < s.enc.n) (hc : selection s = some c)
      (hem : Emits s t (pendingInstr s ++ instrBytes c.kind c.len c.payload) c.len) (hl : t.enc.litLen.toNat = 0) : Passes s t
  | joins (hp : s.enc.p < s.enc.n) (hl : s.enc.litLen.toNat + 1 < Config.encMaxLen s.params) : Passes s (joined s)
  | flushes {t : State} (hp : s.enc.p < s.enc.n) (hmax : s.enc.litLen.toNat + 1 = Config.encMaxLen s.params)
      (hem : Emits s t (pendingStream (inputBytes s) (joinRun s)) 1) (hl : t.enc.litLen.toNat = 0) : Passes s t
  | finishes {u : State} (hp : s.enc.p = s.enc.n) (hem : Emits s u (pendingInstr s ++ [Config.term]) 0) : Passes s (stopEnc u)

theorem StepWrites.imp {bs : List Byte} {d : Nat} {Q Q' : State → Prop} {o : Answer} (h : StepWrites s bs d Q o)
    (hQ : ∀ t, Q t → Q' t) : StepWrites s bs d Q' o := by
  rcases h with ⟨hf, t, ht, hq⟩ | hout
  · exact .inl ⟨hf, t, ht, hQ t hq⟩
  · exact .inr hout

/-- A step of a running encoder is one of the passes or runs out of room, and is to write at most two bytes for each byte of the
input that is pending or still ahead, and the terminator. -/
theorem step_passes (h : EncRuns s) : ∃ bs d,
    bs.length ≤ 2 * (s.enc.litLen.toNat + (s.enc.n - s.enc.p)) + 1 ∧ StepWrites s bs d (Passes s) (step s) := by
  rw [step_encoding h.encoding h.quiet]
  have hpending := length_pendingInstr_le s
  rcases Nat.lt_or_eq_of_le h.cursor with hp | hp
  · cases hc : selection s with
    | some c =>
      obtain ⟨_, hleft, hlen⟩ := selection_bounds hc
      refine ⟨_, 0, ?_, (stepEncoder_selected h.room hp hc).imp fun t ⟨hem, hl⟩ =>
        .selected hp hc hem (congrArg BitVec.toNat hl)⟩
      rw [List.length_append]
      omega
    | none =>
      rcases Nat.lt_or_eq_of_le (Nat.succ_le_of_lt h.pending.1) with hl | hl
      · exact ⟨[], 0, Nat.zero_le _, .inl ⟨h.room, joined s, stepEncoder_joins hp hc hl, .joins hp hl⟩⟩
      · have hflush := length_pendingStream_le (inputBytes s) (joinRun s)
        rw [joinRun_litLen_toNat hl.le] at hflush
        exact ⟨_, 1, by omega, (stepEncoder_flushes h.room hp hc hl).imp fun t ⟨hem, hempty⟩ =>
          .flushes hp hl hem (congrArg BitVec.toNat hempty)⟩
  · refine ⟨_, 0, ?_, (stepEncoder_finish h.room hp.ge).imp ?_⟩
    · rw [List.length_append, List.length_singleton]
      omega
    · rintro _ ⟨u, rfl, hem, _⟩
      exact .finishes hp hem

/-- A step that leaves the encoder running was a pass. -/
theorem passes_of_busy (h : EncRuns s) (hstep : step s = .next t) (ht : t.run = .busy) : Passes s t := by
  obtain ⟨bs, d, _, ⟨_, u, hu, hpass⟩ | ⟨_, u, hu, v, _, _, _, rfl⟩⟩ := step_passes h <;> cases hstep.symm.trans hu
  · exact hpass
  · simp at ht

theorem Emits.run {bs : List Byte} {d : Nat} (h : Emits s t bs d) : t.run = s.run := by
  rw [h.frame_eq]

/-- A pass that ends the run is its end (R169). -/
theorem Passes.ended (h : Passes s t) (hs : EncRuns s) (ht : t.run ≠ .busy) :
    ∃ u, t = stopEnc u ∧ s.enc.p = s.enc.n ∧ Emits s u (pendingInstr s ++ [Config.term]) 0 := by
  have hrun := hs.encoding.1
  cases h with
  | selected hp hc hem => exact absurd (hem.run.trans hrun) ht
  | joins => exact absurd hrun ht
  | flushes hp hmax hem => exact absurd (hem.run.trans hrun) ht
  | finishes hp hem => exact ⟨_, rfl, hp, hem⟩

/-- A pass that leaves the encoder running moves its cursor on within the input. -/
theorem Passes.goesOn (h : Passes s t) (hs : EncRuns s) (ht : t.run = .busy) :
    ∃ bs d, Emits s t bs d ∧ 1 ≤ d ∧ d ≤ s.enc.n - s.enc.p ∧ PendingHeld t := by
  cases h with
  | selected hp hc hem hl =>
    obtain ⟨hpos, hleft, _⟩ := selection_bounds hc
    exact ⟨_, _, hem, hpos, hleft, pendingHeld_of_empty (BitVec.eq_of_toNat_eq hl)⟩
  | joins hp hl => exact ⟨_, _, emits_joined s, Nat.le_refl 1, by omega, pendingHeld_joined hs.pending hl⟩
  | flushes hp hmax hem hl => exact ⟨_, _, hem, Nat.le_refl 1, by omega, pendingHeld_of_empty (BitVec.eq_of_toNat_eq hl)⟩
  | finishes => simp at ht

theorem Passes.encRuns (h : Passes s t) (hs : EncRuns s) (ht : t.run = .busy)
    (hroom : capFits t.params.outCap t.enc.olen = true) : EncRuns t := by
  obtain ⟨bs, d, hem, _, hd, hpend⟩ := h.goesOn hs ht
  have hp := hem.p
  have hn := hem.n
  have hfilled := hem.outFilled hs.filled
  have hcur := hs.cursor
  obtain ⟨⟨_, _, rfl⟩, _⟩ := hem
  exact ⟨⟨ht, hs.encoding.2⟩, hs.quiet, by omega, hfilled, hroom, hpend⟩

/-! ## The size invariant (43_encoder.md R173) -/

theorem Passes.sizeKept (h : Passes s t) (hs : EncRuns s) (hk : SizeKept s) (ht : t.run = .busy) : SizeKept t := by
  have hle := hs.pending.litLen_le
  have hpending := length_pendingInstr_le s
  rw [SizeKept] at hk ⊢
  cases h with
  | selected hp hc hem hl =>
    obtain ⟨_, _, hlen⟩ := selection_bounds hc
    rw [hem.olen, hem.p, hl, List.length_append]
    omega
  | joins hp hl =>
    have hlen : (joined s).enc.litLen.toNat = s.enc.litLen.toNat + 1 := joinRun_litLen_toNat hl.le
    have hcur : (joined s).enc.p = s.enc.p + 1 := rfl
    rw [hlen, hcur, Nat.add_sub_add_right]
    exact hk
  | flushes hp hmax hem hl =>
    have hflush := length_pendingStream_le (inputBytes s) (joinRun s)
    rw [joinRun_litLen_toNat hmax.le] at hflush
    rw [hem.olen, hem.p, hl]
    omega
  | finishes => simp at ht

/-- With room for two bytes for each byte of the input, and the terminator, a step is one of the passes. -/
theorem step_passes_of_room (h : EncRuns s) (hk : SizeKept s) (hroom : capFits s.params.outCap (2 * s.enc.n + 1) = true) :
    ∃ t, step s = .next t ∧ Passes s t := by
  obtain ⟨bs, d, hlen, hw⟩ := step_passes h
  have hle := h.pending.litLen_le
  have hcur := h.cursor
  rw [SizeKept] at hk
  exact hw.room (capFits_mono hroom (by omega))

end

end Sys2Proof.Machine
end

section
/-! The decoder on OUT as the list of its bytes: what an instruction makes of the output so far, and what it answers where it makes
none (40_decoder_loop.md R98). -/

namespace Sys2Proof.Machine

open Sys2Proof.Safety

/-! ## OUT as the list of its bytes -/

/-- OUT holds the bytes `y`, and no other. -/
def OutHolds (m : Mem) (y : List Byte) : Prop := ∀ a, m.byteAt a = y[a]?

section
variable {m : Mem} {y : List Byte}

theorem outHolds_storeRun (h : OutHolds m y) (z : List Byte) : OutHolds (m.storeRun y.length z) (y ++ z) := by
  intro a
  rw [Mem.byteAt_storeRun]
  rcases Nat.lt_or_ge a y.length with ha | ha
  · rw [if_neg (by omega), h, List.getElem?_append_left ha]
  · rw [List.getElem?_append_right ha]
    split
    · rfl
    · rw [h, List.getElem?_eq_none ha, List.getElem?_eq_none (by omega)]

theorem OutHolds.runFrom (h : OutHolds m y) : m.runFrom 0 y.length = y := by
  have hlen : (m.runFrom 0 y.length).length = y.length := Mem.length_runFrom fun k hk => by
    rw [Nat.zero_add, h, List.getElem?_eq_getElem hk]
    rfl
  apply List.ext_getElem?
  intro k
  rcases Nat.lt_or_ge k y.length with hk | hk
  · rw [Mem.runFrom_getElem? _ _ _ _ (by omega), h, Nat.zero_add]
  · rw [List.getElem?_eq_none (by omega), List.getElem?_eq_none hk]

/-- The overlapping copy on the output as a list: `n` bytes appended one by one, each read from the output so far (42_repeat.md
R130). -/
def copied : Nat → Nat → List Byte → List Byte
  | 0, _, y => y
  | n + 1, src, y => copied n (src + 1) (y ++ [inputAt y src])

theorem length_copied (n src : Nat) (y : List Byte) : (copied n src y).length = y.length + n := by
  induction n generalizing src y with
  | zero => rfl
  | succ n ih =>
    rw [copied, ih, List.length_append, List.length_singleton]
    omega

theorem outHolds_copyBytes (free : Nat → Byte) (n : Nat) {src : Nat} (h : OutHolds m y) (hs : src < y.length) :
    OutHolds (copyBytes free n src y.length m) (copied n src y) := by
  induction n generalizing src m y with
  | zero => exact h
  | succ n ih =>
    have hread : m.readOr free src = inputAt y src :=
      Mem.readOr_of_byteAt (by rw [h, inputAt, List.getD_eq_getElem _ _ hs, List.getElem?_eq_getElem hs])
    have hnext := ih (src := src + 1) (outHolds_storeRun h [inputAt y src]) (by simpa using hs)
    rw [List.length_append, List.length_singleton] at hnext
    rw [copyBytes, hread]
    exact hnext

end

/-! ## What an instruction makes of the output -/

/-- The output after an instruction that completes on the output `y`; none for one that cannot complete there
(41_direct_and_fill.md R110 to R117, 42_repeat.md R130 to R137). -/
def outputAfter (i : Instr) (y : List Byte) : Option (List Byte) :=
  match i with
  | .dcopy _ d | .dcopyX _ _ d => some (y ++ d)
  | .bfill n b => some (y ++ byteFillBytes (shortLen n) b)
  | .bfillX h l b => some (y ++ byteFillBytes (extLen h l) b)
  | .wfill n b0 b1 => some (y ++ wordFillBytes (shortLen n) b0 b1)
  | .wfillX h l b0 b1 => some (y ++ wordFillBytes (extLen h l) b0 b1)
  | .ifill n start => some (y ++ incFillBytes (shortLen n) start)
  | .ifillX h l start => some (y ++ incFillBytes (extLen h l) start)
  | .rabs n pos => (absSource pos y.length).map (copied (shortLen n) · y)
  | .rabsX h l pos => (absSource pos y.length).map (copied (extLen h l) · y)
  | .rrel n dist => (relSource dist y.length).map (copied (shortLen n) · y)
  | .rrelX h l dist => (relSource dist y.length).map (copied (extLen h l) · y)
  | .ralt _ | .raltX _ _ | .extRsvd _ _ | .endStream => none

/-- What an instruction with header `hd` that is to leave the output `out` answers: it completes with that output, or it faults,
as there is none, or its payload is not in IN, or OUT has no room. -/
def Executes (hd : Header) (out : Option (List Byte)) (s : State) (o : Answer) : Prop :=
  (∃ y m g, out = some y ∧ OutHolds m y ∧ y.length = s.dec.olen + hd.len ∧
    o = .next (finishCopy hd m (latchOperands g s))) ∨
  (∃ f g, o = .next (raise .decompress f s.dec.ip (latchOperands g s)) ∧
    ∀ y, out = some y → s.dec.ip + hd.size ≤ s.inLen → capFits s.params.outCap y.length = false)

section
variable {s : State} {y : List Byte} (hm : OutHolds s.outMem y) (hlen : s.dec.olen = y.length)
include hm hlen

omit hm in
theorem capFits_of_overflows {n : Nat} {z : List Byte} (hz : z.length = y.length + n)
    (ho : overflows s.params s.dec.olen n = true) : capFits s.params.outCap z.length = false := by
  rw [hz, ← hlen]
  simpa [overflows] using ho

theorem executes_runAppend {hd : Header} (f : DecLatch → DecLatch) {bs : List Byte} (hbs : bs.length = hd.len) :
    Executes hd (some (y ++ bs)) s (runAppend hd f bs s) := by
  have hout : (y ++ bs).length = y.length + hd.len := by rw [List.length_append, hbs]
  rcases runAppend_cases hd f bs s with ⟨hshort, e⟩ | ⟨_, hover, e⟩ | ⟨_, _, e⟩
  · exact .inr ⟨_, headerLatch hd, e, fun _ _ hin => absurd hin (Nat.not_le.mpr hshort)⟩
  · refine .inr ⟨_, headerLatch hd, e, fun z hz _ => ?_⟩
    cases hz
    exact capFits_of_overflows hlen hout hover
  · refine .inl ⟨_, _, f ∘ headerLatch hd, rfl, ?_, by rw [hout, hlen], e⟩
    simpa only [latchOperands_outMem, latchOperands_dec_olen, latchHeader_outMem, latchHeader_dec_olen, hlen] using
      outHolds_storeRun hm bs

theorem executes_runRepeat {hd : Header} (f : DecLatch → DecLatch) {src src' : Option Nat}
    (hlt : ∀ a, src = some a → a < y.length) (hsrc : src' = src) :
    Executes hd (src.map (copied hd.len · y)) s (runRepeat hd f src' s) := by
  subst hsrc
  rcases runRepeat_cases hd f src' s with
    ⟨hshort, e⟩ | ⟨_, rfl, e⟩ | ⟨a, _, rfl, hover, e⟩ | ⟨a, _, rfl, _, e⟩
  · exact .inr ⟨_, headerLatch hd, e, fun _ _ hin => absurd hin (Nat.not_le.mpr hshort)⟩
  · exact .inr ⟨_, f ∘ headerLatch hd, e, fun _ hz => nomatch hz⟩
  · refine .inr ⟨_, srcLatch a ∘ f ∘ headerLatch hd, e, fun z hz _ => ?_⟩
    cases hz
    exact capFits_of_overflows hlen (length_copied _ a y) hover
  · refine .inl ⟨_, _, srcLatch a ∘ f ∘ headerLatch hd, rfl, ?_, by rw [length_copied, hlen], e⟩
    rw [hlen]
    exact outHolds_copyBytes _ _ hm (hlt a rfl)

/-- Every instruction but the terminator completes with the output of `outputAfter`, or faults. -/
theorem executes_exec {i : Instr} {hd : Header} (hw : i.wellFormed = true) (hi : i.header = some hd) :
    Executes hd (outputAfter i y) s (exec i s) := by
  cases i <;> cases hi
  case dcopy => exact executes_runAppend hm hlen _ (beq_iff_eq.mp hw)
  case dcopyX => exact executes_runAppend hm hlen _ (beq_iff_eq.mp (Bool.and_eq_true_iff.mp hw).2)
  case bfill | bfillX => exact executes_runAppend hm hlen _ (length_byteFillBytes _ _)
  case wfill | wfillX => exact executes_runAppend hm hlen _ (length_wordFillBytes _ _ _)
  case ifill | ifillX => exact executes_runAppend hm hlen _ (length_incFillBytes _ _)
  case rabs pos | rabsX pos =>
    exact executes_runRepeat hm hlen _ (fun _ => absSource_lt) (congrArg (absSource pos) hlen)
  case rrel dist | rrelX dist =>
    exact executes_runRepeat hm hlen _ (fun _ => relSource_lt) (congrArg (relSource dist) hlen)
  case ralt => exact .inr ⟨_, headerLatch (shortHeader .repAlt _), rfl, fun _ hz => nomatch hz⟩
  case raltX => exact .inr ⟨_, headerLatch (extHeader .repAlt _ _), rfl, fun _ hz => nomatch hz⟩
  case extRsvd => exact .inr ⟨_, headerLatch (extHeader .seven _ _), rfl, fun _ hz => nomatch hz⟩

end

end Sys2Proof.Machine
end

section
/-! Whole DEC runs (40_decoder_loop.md R90, R91, R97): a run on a stream of whole instructions yields the output they make one
after the other, and a run that ends by exhaustion was on such a stream. -/

namespace Sys2Proof.Machine

open Sys2Proof.Safety

/-! ## Runs of steps -/

/-- `t` is the state some number of steps after `s`. -/
def Reaches (s t : State) : Prop := ∃ k, Sys2Proof.core.run k s = .next t

section
variable {s t u : State}

theorem run_succ (h : step s = .next t) (k : Nat) : Sys2Proof.core.run (k + 1) s = Sys2Proof.core.run k t := by
  have hs : Sys2Proof.core.step s = .next t := h
  simp only [Host.Core.run, hs]

theorem Reaches.refl (s : State) : Reaches s s := ⟨0, rfl⟩

theorem Reaches.head (h : step s = .next t) (k : Reaches t u) : Reaches s u := by
  obtain ⟨k, hk⟩ := k
  exact ⟨k + 1, (run_succ h k).trans hk⟩

theorem Reaches.trans (h : Reaches s t) (k : Reaches t u) : Reaches s u := by
  obtain ⟨j, hj⟩ := h
  induction j generalizing s with
  | zero =>
    cases hj
    exact k
  | succ j ih =>
    cases hstep : step s with
    | next v => exact (ih ((run_succ hstep j).symm.trans hj)).head hstep
    | fault f => simp [Host.Core.run, show Sys2Proof.core.step s = .fault f from hstep] at hj
    | refused r => simp [Host.Core.run, show Sys2Proof.core.step s = .refused r from hstep] at hj

/-- A block that is not running and whose host is quiet stays as it is (60_exceptions.md R210). -/
theorem run_of_ended (hq : s.host = []) (hr : s.run ≠ .busy) (k : Nat) : Sys2Proof.core.run k s = .next s := by
  induction k with
  | zero => rfl
  | succ k ih => exact (run_succ ((step_quiet_nil hq).trans (stepEngine_holds hr)) k).trans ih

end

/-! ## A DEC run at a point of its stream -/

/-- What the host stored in an empty IN is what IN reads as. -/
theorem inBytes_of_inMem {s : State} {x : List Byte} (h : s.inMem = Mem.storeRun [] 0 x) : inBytes s 0 x.length = x := by
  apply List.ext_getElem?
  intro k
  rcases Nat.lt_or_ge k x.length with hk | hk
  · have hbyte : s.inMem.byteAt (0 + k) = some x[k] := by
      rw [h, Mem.byteAt_storeRun_add _ _ hk, List.getElem?_eq_getElem hk]
    rw [inBytes_getElem? _ _ _ _ hk, inByte, Mem.readOr_of_byteAt hbyte, List.getElem?_eq_getElem hk]
  · rw [List.getElem?_eq_none (by simpa using hk), List.getElem?_eq_none hk]

/-- A DEC run on the stream `bs` in a block with parameters `c` and a quiet host, that has consumed `n` bytes and produced `y`. -/
structure DecodesAt (c : Params) (bs : List Byte) (n : Nat) (y : List Byte) (s : State) : Prop where
  decoding : Decoding s
  quiet : s.host = []
  params : s.params = c
  stream : inBytes s 0 s.inLen = bs
  ip : s.dec.ip = n
  olen : s.dec.olen = y.length
  out : OutHolds s.outMem y

theorem decodesAt_decCall (c : Params) (bs : List Byte) : DecodesAt c bs 0 [] (decCall c bs) where
  decoding := ⟨rfl, rfl⟩
  quiet := rfl
  params := rfl
  stream := inBytes_of_inMem (s := decCall c bs) rfl
  ip := rfl
  olen := rfl
  out _ := rfl

section
variable {c : Params} {bs y : List Byte} {n : Nat} {s t : State}

theorem DecodesAt.inLen (h : DecodesAt c bs n y s) : s.inLen = bs.length := by
  rw [← h.stream, length_inBytes]

theorem DecodesAt.unread (h : DecodesAt c bs n y s) : unread s = bs.drop n := by
  rw [Machine.unread, h.ip, ← h.stream]
  rcases Nat.le_total n s.inLen with hle | hge
  · obtain ⟨k, hk⟩ := Nat.exists_eq_add_of_le hle
    rw [hk, Nat.add_sub_cancel_left, inBytes_add, List.drop_left' (length_inBytes s 0 n), Nat.zero_add]
  · rw [Nat.sub_eq_zero_of_le hge, List.drop_eq_nil_of_le (by simpa using hge)]
    rfl

theorem DecodesAt.executes (h : DecodesAt c bs n y s) {i : Instr} {hd : Header} (hw : i.wellFormed = true)
    (hi : i.header = some hd) : Executes hd (outputAfter i y) s (exec i s) :=
  executes_exec h.out h.olen hw hi

theorem DecodesAt.finishCopy (h : DecodesAt c bs n y s) {hd : Header} {m : Mem} {y' : List Byte} (g : DecLatch → DecLatch)
    (hm : OutHolds m y') (hlen : y'.length = s.dec.olen + hd.len) :
    DecodesAt c bs (n + hd.size) y' (finishCopy hd m (latchOperands g s)) where
  decoding := h.decoding
  quiet := h.quiet
  params := h.params
  stream := h.stream
  ip := congrArg (· + hd.size) h.ip
  olen := hlen.symm
  out := hm

theorem outputAfter_header {i : Instr} {y' : List Byte} (h : outputAfter i y = some y') : ∃ hd, i.header = some hd := by
  cases i with
  | endStream => cases h
  | _ => exact ⟨_, rfl⟩

/-- The instruction at `IP` completes where it makes an output that OUT has room for. -/
theorem DecodesAt.step_completes {i : Instr} {rest y' : List Byte} (h : DecodesAt c bs n y s) (hw : i.wellFormed = true)
    (hbs : bs.drop n = encode i ++ rest) (hout : outputAfter i y = some y') (hroom : capFits c.outCap y'.length = true) :
    ∃ t, step s = .next t ∧ DecodesAt c bs (n + (encode i).length) y' t := by
  obtain ⟨hd, hi⟩ := outputAfter_header hout
  have hunread := h.unread.trans hbs
  have hin := size_le_of_decode (hunread ▸ decode_encode_append hw rest)
  rw [step_of_unread h.decoding h.quiet hw hunread, length_encode hw, Instr.size_of_header hi]
  rw [Instr.size_of_header hi] at hin
  rcases h.executes hw hi with ⟨z, m, g, hz, hm, hlen, he⟩ | ⟨f, g, _, hfault⟩
  · cases hout.symm.trans hz
    exact ⟨_, he, h.finishCopy g hm hlen⟩
  · have := hfault y' hout hin
    rw [h.params, hroom] at this
    cases this

/-- What a step leaves that does not end in an error or with the terminator: an instruction completed, or the stream is
exhausted. -/
theorem DecodesAt.step_cases (h : DecodesAt c bs n y s) :
    (∃ t i y', step s = .next t ∧ i.wellFormed = true ∧ outputAfter i y = some y' ∧
      bs.take (n + (encode i).length) = bs.take n ++ encode i ∧ DecodesAt c bs (n + (encode i).length) y' t) ∨
    (∃ t, step s = .next t ∧ n = bs.length ∧ t.host = [] ∧ t.run = .done ∧ resultBytes t = y) ∨
    (∃ t, step s = .next t ∧ t.host = [] ∧ (t.run = .error ∨ t.run = .done ∧ t.eos = true)) := by
  have ended {o : Answer} {f : ErrCode} {p : Nat} (hf : Faults o s f p) :
      ∃ t, o = .next t ∧ t.host = [] ∧ (t.run = .error ∨ t.run = .done ∧ t.eos = true) := by
    obtain ⟨t, ht, _, _, _, _, hrun, _, _, _, _, _, _, _, _, _, hhost, _⟩ := hf
    exact ⟨t, ht, hhost.trans h.quiet, .inl hrun⟩
  by_cases hip : s.dec.ip = s.inLen
  · obtain ⟨t, ht, _, _, holen, _, _, hrun, _, _, hmem, _, _, _, _, _, hhost, _⟩ :=
      exhaustionEndsTheRun s h.decoding h.quiet hip
    refine .inr (.inl ⟨t, ht, ?_, hhost.trans h.quiet, hrun, ?_⟩)
    · rw [← h.ip, hip, h.inLen]
    · rw [resultBytes, hmem, holen, h.olen, h.out.runFrom]
  · cases hdec : decode (Machine.unread s) with
    | rejected r => exact .inr (.inr (ended (step_decoding h.decoding h.quiet ▸ stepDecoder_of_rejected hip hdec)))
    | ok i rest =>
      have hw := decode_wellFormed hdec
      rw [step_of_decode h.decoding h.quiet hdec]
      cases hi : i.header with
      | none =>
        obtain rfl := Instr.header_eq_none hi
        exact .inr (.inr ⟨_, rfl, h.quiet, .inr ⟨rfl, rfl⟩⟩)
      | some hd =>
        rcases h.executes hw hi with ⟨y', m, g, hout, hm, hlen, he⟩ | ⟨f, g, he, _⟩
        · refine .inl ⟨_, i, y', he, hw, hout, ?_, ?_⟩
          · rw [List.take_add, ← h.unread, eq_encode_append_of_decode hdec, List.take_left]
          · rw [length_encode hw, Instr.size_of_header hi]
            exact h.finishCopy g hm hlen
        · exact .inr (.inr (ended (he ▸ faults_raise f g s)))

end

/-! ## Streams of whole instructions -/

/-- The stream is a sequence of whole instructions, the terminator not among them, that one after the other make the output. -/
inductive Yields : List Byte → List Byte → Prop
  | nil : Yields [] []
  | append {bs y y' : List Byte} {i : Instr} (h : Yields bs y) (hw : i.wellFormed = true) (hout : outputAfter i y = some y') :
      Yields (bs ++ encode i) y'

theorem length_le_of_outputAfter {i : Instr} {y y' : List Byte} (h : outputAfter i y = some y') : y.length ≤ y'.length := by
  cases i with
  | ralt | raltX | extRsvd | endStream => cases h
  | rabs | rabsX | rrel | rrelX =>
    obtain ⟨a, _, rfl⟩ := Option.map_eq_some_iff.mp h
    exact (Nat.le_add_right _ _).trans (length_copied _ a y).ge
  | _ =>
    cases h
    exact List.length_append ▸ Nat.le_add_right _ _

section
variable {c : Params} {bs y : List Byte} {s t : State}

/-- A run whose stream begins with whole instructions comes to their end, with room in OUT for what they make. -/
theorem Yields.reaches (h : Yields bs y) (rest : List Byte) (hroom : capFits c.outCap y.length = true) :
    ∃ s, Reaches (decCall c (bs ++ rest)) s ∧ DecodesAt c (bs ++ rest) bs.length y s := by
  induction h generalizing rest with
  | nil => exact ⟨_, .refl _, decodesAt_decCall c rest⟩
  | @append bs y y' i _ hw hout ih =>
    obtain ⟨s, hs, hat⟩ := ih (encode i ++ rest) (capFits_mono hroom (length_le_of_outputAfter hout))
    obtain ⟨t, ht, hat'⟩ := hat.step_completes hw List.drop_left hout hroom
    rw [List.append_assoc, List.length_append]
    exact ⟨t, hs.trans (.head ht (.refl t)), hat'⟩

/-- A run that comes to a normal end ends with the output it has produced. -/
theorem DecodesAt.decodesTo {n : Nat} {eos : Bool} (h : DecodesAt c bs n y s) (hs : Reaches (decCall c bs) s)
    (hstop : Stops (step s) s bs.length eos) : DecodesTo c bs eos y := by
  obtain ⟨t, ht, _, hpos, hlen, _, heos, hrun, _, _, hmem, _⟩ := hstop
  obtain ⟨k, hk⟩ := hs.trans (.head ht (.refl t))
  refine ⟨k, t, hk, hrun, heos, hpos, hlen.trans h.olen, ?_⟩
  rw [resultBytes, hmem, hlen, h.olen, h.out.runFrom]

/-- A stream of whole instructions decodes to what they make, by exhaustion (R91). -/
theorem Yields.decodesTo (h : Yields bs y) (hroom : capFits c.outCap y.length = true) : DecodesTo c bs false y := by
  obtain ⟨s, hs, hat⟩ := h.reaches (c := c) [] hroom
  rw [List.append_nil] at hs hat
  have hstop := exhaustionEndsTheRun s hat.decoding hat.quiet (hat.ip.trans hat.inLen.symm)
  rw [hat.ip] at hstop
  exact hat.decodesTo hs hstop

/-- A stream of whole instructions and the terminator decodes to what they make (R97). -/
theorem Yields.decodesTo_term (h : Yields bs y) (hroom : capFits c.outCap y.length = true) :
    DecodesTo c (bs ++ [Config.term]) true y := by
  obtain ⟨s, hs, hat⟩ := h.reaches (c := c) [Config.term] hroom
  have hunread : unread s = encode .endStream ++ [] := hat.unread.trans List.drop_left
  have hstop : Stops (step s) s (s.dec.ip + 1) true :=
    step_of_unread hat.decoding hat.quiet rfl hunread ▸ terminatorEndsTheRun.1 s
  rw [hat.ip, ← List.length_singleton (a := Config.term), ← List.length_append] at hstop
  exact hat.decodesTo hs hstop

/-- A run that ends by exhaustion has gone through whole instructions. -/
theorem yields_of_run (k : Nat) {n : Nat} (h : DecodesAt c bs n y s) (hy : Yields (bs.take n) y)
    (hk : Sys2Proof.core.run k s = .next t) (hrun : t.run = .done) (heos : t.eos = false) : Yields bs (resultBytes t) := by
  induction k generalizing n y s with
  | zero =>
    cases hk
    simp [h.decoding.1] at hrun
  | succ k ih =>
    rcases h.step_cases with ⟨u, i, y', hu, hw, hout, htake, hat⟩ | ⟨u, hu, hn, hq, hdone, hres⟩ | ⟨u, hu, hq, hend⟩ <;>
      rw [run_succ hu] at hk
    · exact ih hat (htake ▸ hy.append hw hout) hk
    · cases (run_of_ended hq (by simp [hdone]) k).symm.trans hk
      rwa [hres, ← List.take_length (l := bs), ← hn]
    · cases (run_of_ended hq (by rcases hend with he | ⟨he, _⟩ <;> simp [he]) k).symm.trans hk
      simp [hrun, heos] at hend

theorem yields_of_decodesTo (h : DecodesTo c bs false y) : Yields bs y := by
  obtain ⟨k, t, hk, hrun, heos, _, _, rfl⟩ := h
  exact yields_of_run k (decodesAt_decCall c bs) .nil hk hrun heos

end

end Sys2Proof.Machine
end

section
/-! What the encoder writes, as the decoder reads it: a flush and a selection are each one instruction, which makes of the input
before it the input up to its end (43_encoder.md R164, R165, R170). -/

namespace Sys2Proof.Machine

open Sys2Proof.Safety

/-! ## One instruction -/

/-- The bytes are one well-formed instruction, which makes `y'` of the output `y`. -/
def OneInstr (bs y y' : List Byte) : Prop := ∃ i : Instr, i.wellFormed = true ∧ encode i = bs ∧ outputAfter i y = some y'

theorem Yields.oneInstr {bs cs y y' : List Byte} (h : Yields bs y) (hi : OneInstr cs y y') : Yields (bs ++ cs) y' := by
  obtain ⟨i, hw, rfl, hout⟩ := hi
  exact h.append hw hout

/-- The header ENC writes for a length it may choose is a short or an extended one of that length (R164). -/
theorem oneInstr_instrBytes {k : Kind} {len : Nat} {payload y y' : List Byte} (hpos : 1 ≤ len) (hmax : len ≤ 992)
    (hshort : ∀ n, shortLen n = len → OneInstr (shortByte k n :: payload) y y')
    (hext : ∀ h l, extHighOk h = true → extLen h l = len → OneInstr (extByte h :: contByte l k :: payload) y y') :
    OneInstr (instrBytes k len payload) y y' := by
  rw [instrBytes, headerBytes, Config.shortMaxLen, Nat.shiftRight_eq_div_pow, Nat.and_two_pow_sub_one_eq_mod _ 5]
  split
  · refine hshort _ ?_
    rw [shortLen, BitVec.toNat_ofNat]
    omega
  · refine hext _ _ ?_ ?_
    · rw [extHighOk_iff, BitVec.toNat_ofNat]
      omega
    · rw [extLen, BitVec.toNat_ofNat, BitVec.toNat_ofNat]
      omega

theorem oneInstr_direct {d : List Byte} (y : List Byte) (hpos : 1 ≤ d.length) (hmax : d.length ≤ 992) :
    OneInstr (instrBytes .direct d.length d) y (y ++ d) :=
  oneInstr_instrBytes hpos hmax (fun n hn => ⟨.dcopy n d, beq_iff_eq.mpr hn.symm, rfl, rfl⟩)
    fun h l hh hl => ⟨.dcopyX h l d, Bool.and_eq_true_iff.mpr ⟨hh, beq_iff_eq.mpr hl.symm⟩, rfl, rfl⟩

/-! ## The input up to a position -/

section
variable {x : List Byte} {p : Nat}

theorem getElem?_eq_inputAt {i : Nat} (h : i < x.length) : x[i]? = some (inputAt x i) := by
  rw [inputAt, List.getD_eq_getElem _ _ h, List.getElem?_eq_getElem h]

/-- Bytes that stand in the input at the cursor continue the input before it. -/
theorem take_append_eq_take {z : List Byte} {len : Nat} (hz : z.length = len) (hlen : p + len ≤ x.length)
    (h : ∀ i, i < len → z[i]? = some (inputAt x (p + i))) : x.take p ++ z = x.take (p + len) := by
  rw [List.take_add]
  congr 1
  apply List.ext_getElem?
  intro i
  rcases Nat.lt_or_ge i len with hi | hi
  · rw [h i hi, List.getElem?_take_of_lt hi, List.getElem?_drop, getElem?_eq_inputAt (by omega)]
  · rw [List.getElem?_eq_none (hz ▸ hi), List.getElem?_eq_none ((List.length_take_le _ _).trans hi)]

/-- The decoder's copy follows a match, also where the match overlaps the cursor (43_encoder.md R157, R170). -/
theorem copied_take {n src : Nat} (hsrc : src < p) (hn : p + n ≤ x.length)
    (h : ∀ i, i < n → inputAt x (p + i) = inputAt x (src + i)) : copied n src (x.take p) = x.take (p + n) := by
  induction n generalizing src p with
  | zero => rfl
  | succ n ih =>
    have hread : inputAt (x.take p) src = inputAt x p := by
      rw [← Nat.add_zero p, h 0 (Nat.succ_pos n), Nat.add_zero, Nat.add_zero]
      simp [inputAt, List.getD, List.getElem?_take_of_lt hsrc]
    have hnext : x.take p ++ [inputAt x p] = x.take (p + 1) :=
      take_append_eq_take (len := 1) rfl (by omega) fun i hi => by
        obtain rfl := Nat.lt_one_iff.mp hi
        rfl
    rw [copied, hread, hnext, ih (by omega) (by omega) fun i hi => ?_, Nat.add_assoc, Nat.add_comm 1 n]
    rw [Nat.add_assoc, Nat.add_assoc, Nat.add_comm 1 i]
    exact h (i + 1) (by omega)

/-! ## One instruction for each kind of selection (43_encoder.md R154 to R159) -/

section
variable {len : Nat} (hpos : 1 ≤ len) (hmax : len ≤ 992) (hlen : p + len ≤ x.length)
include hpos hmax hlen

theorem oneInstr_byteFill (h : ∀ i, i < len → inputAt x (p + i) = inputAt x p) :
    OneInstr (instrBytes .byteFill len [inputAt x p]) (x.take p) (x.take (p + len)) := by
  have hout : x.take p ++ byteFillBytes len (inputAt x p) = x.take (p + len) :=
    take_append_eq_take (length_byteFillBytes _ _) hlen fun i hi => h i hi ▸ getElem?_byteFillBytes _ hi
  exact oneInstr_instrBytes hpos hmax (fun n hn => ⟨.bfill n _, rfl, rfl, by rw [outputAfter, hn, hout]⟩)
    fun h l hh hl => ⟨.bfillX h l _, hh, rfl, by rw [outputAfter, hl, hout]⟩

theorem oneInstr_wordFill (h : ∀ i, i < len → inputAt x (p + i) = inputAt x (p + i % 2)) :
    OneInstr (instrBytes .wordFill len [inputAt x p, inputAt x (p + 1)]) (x.take p) (x.take (p + len)) := by
  have hout : x.take p ++ wordFillBytes len (inputAt x p) (inputAt x (p + 1)) = x.take (p + len) :=
    take_append_eq_take (length_wordFillBytes _ _ _) hlen fun i hi => by
      rw [getElem?_wordFillBytes _ _ hi, h i hi]
      rcases Nat.mod_two_eq_zero_or_one i with he | he <;> simp [he]
  exact oneInstr_instrBytes hpos hmax (fun n hn => ⟨.wfill n _ _, rfl, rfl, by rw [outputAfter, hn, hout]⟩)
    fun h l hh hl => ⟨.wfillX h l _ _, hh, rfl, by rw [outputAfter, hl, hout]⟩

theorem oneInstr_incFill (h : ∀ i, i < len → inputAt x (p + i) = inputAt x p + BitVec.ofNat 8 i) :
    OneInstr (instrBytes .incFill len [inputAt x p]) (x.take p) (x.take (p + len)) := by
  have hout : x.take p ++ incFillBytes len (inputAt x p) = x.take (p + len) :=
    take_append_eq_take (length_incFillBytes _ _) hlen fun i hi => by
      rw [getElem?_incFillBytes _ hi, h i hi, add_ofNat_eq_ofNat_mod]
  exact oneInstr_instrBytes hpos hmax (fun n hn => ⟨.ifill n _, rfl, rfl, by rw [outputAfter, hn, hout]⟩)
    fun h l hh hl => ⟨.ifillX h l _, hh, rfl, by rw [outputAfter, hl, hout]⟩

variable {src : Nat} (h : ∀ i, i < len → inputAt x (p + i) = inputAt x (src + i))
include h

theorem oneInstr_repAbs {p0 p1 : Byte} (hsrc : (posOfBytes p0 p1).toNat = src) (hlt : src < p) :
    OneInstr (instrBytes .repAbs len [p0, p1]) (x.take p) (x.take (p + len)) := by
  have hp : (x.take p).length = p := List.length_take_of_le (by omega)
  have hsource : absSource (posOfBytes p0 p1) (x.take p).length = some src :=
    absSource_eq_some.mpr ⟨hsrc.symm, by rwa [hsrc, hp]⟩
  have hout := copied_take hlt hlen h
  exact oneInstr_instrBytes hpos hmax
    (fun n hn => ⟨.rabs n (posOfBytes p0 p1), rfl, by simp [encode], by rw [outputAfter, hsource, hn, Option.map_some, hout]⟩)
    fun h l hh hl =>
      ⟨.rabsX h l (posOfBytes p0 p1), hh, by simp [encode], by rw [outputAfter, hsource, hl, Option.map_some, hout]⟩

theorem oneInstr_repRel {dist : Byte} (hsrc : src + dist.toNat = p) (hdist : 1 ≤ dist.toNat) :
    OneInstr (instrBytes .repRel len [dist]) (x.take p) (x.take (p + len)) := by
  have hp : (x.take p).length = p := List.length_take_of_le (by omega)
  have hsource : relSource dist (x.take p).length = some src := relSource_eq_some.mpr (by rw [hp]; omega)
  have hout := copied_take (by omega) hlen h
  exact oneInstr_instrBytes hpos hmax
    (fun n hn => ⟨.rrel n dist, rfl, rfl, by rw [outputAfter, hsource, hn, Option.map_some, hout]⟩)
    fun h l hh hl => ⟨.rrelX h l dist, hh, rfl, by rw [outputAfter, hsource, hl, Option.map_some, hout]⟩

end

/-- The two payload bytes of a position that 16 bits hold (30_encoding.md R74). -/
theorem posOfBytes_ofNat_toNat {q : Nat} (h : q < 65536) :
    (posOfBytes (BitVec.ofNat 8 q) (BitVec.ofNat 8 (q / 256))).toNat = q := by
  rw [posOfBytes_toNat, BitVec.toNat_ofNat, BitVec.toNat_ofNat]
  omega

theorem matchLen_matches {cap src len : Nat} (h : matchLen x cap src p = len) :
    ∀ i, i < len → inputAt x (p + i) = inputAt x (src + i) :=
  h ▸ largestRun_holds (largestRun_matchLen x cap src p)

/-! ## The selection (43_encoder.md R163) -/

/-- A candidate that qualifies is written as one instruction that makes of the input before the cursor the input up to the
candidate's end. -/
theorem oneInstr_candidate {c : Params} {k : Cand} (hp : p < x.length) (hk : k ∈ candidates x p (runScans c x x.length p))
    (hq : qualifies k = true) : OneInstr (instrBytes k.kind k.len k.payload) (x.take p) (x.take (p + k.len)) := by
  have hpos : 1 ≤ k.len := (Nat.zero_le _).trans_lt (of_decide_eq_true hq)
  obtain ⟨hcap, hleft⟩ := le_min_iff.mp (candidates_len_le hk)
  have hmax : k.len ≤ 992 := by rcases encMaxLen_cases c with hm | hm <;> omega
  have hlen : p + k.len ≤ x.length := by omega
  simp only [candidates, List.mem_cons, List.not_mem_nil, or_false] at hk
  rcases hk with rfl | rfl | rfl | rfl | rfl
  · exact oneInstr_byteFill hpos hmax hlen (largestRun_holds (largestRun_scanByteFill x p _))
  · have htwo : 2 ≤ x.length - p := by
      by_contra hone
      exact absurd hpos (by simp [runScans, scanWordFill, Nat.not_le.mp hone])
    exact oneInstr_wordFill hpos hmax hlen (largestRun_holds (largestRun_scanWordFill x _ htwo))
  · exact oneInstr_incFill hpos hmax hlen (largestRun_holds (largestRun_scanIncFill x p _))
  · have hfound := (found_searchAbsolute x (lengthCap c x.length p) p).attained hpos
    obtain ⟨hlt, hwin⟩ : (searchAbsolute x (lengthCap c x.length p) p).2 < p ∧
      (searchAbsolute x (lengthCap c x.length p) p).2 < 65536 := by omega
    obtain ⟨_, _, hmatch, _⟩ := hfound
    exact oneInstr_repAbs hpos hmax hlen (matchLen_matches hmatch) (posOfBytes_ofNat_toNat hwin) hlt
  · have hfound := (found_searchRelative x (lengthCap c x.length p) p).attained hpos
    obtain ⟨hle, hwin⟩ : (searchRelative x (lengthCap c x.length p) p).2 ≤ p ∧
      (searchRelative x (lengthCap c x.length p) p).2 < 256 := by omega
    obtain ⟨hdist, _, hmatch, _⟩ := hfound
    have hbyte := (BitVec.toNat_ofNat _ 8).trans (Nat.mod_eq_of_lt hwin)
    exact oneInstr_repRel hpos hmax hlen (matchLen_matches hmatch)
      ((congrArg (_ + ·) hbyte).trans (Nat.sub_add_cancel hle)) (hdist.trans_eq hbyte.symm)

end

/-- A flush is one direct copy of the pending run, which ends at the cursor (R165). -/
theorem yields_pendingStream {bs x : List Byte} {s : State} (h : Yields bs (x.take (s.enc.p - s.enc.litLen.toNat)))
    (hmax : s.enc.litLen.toNat ≤ 992) (hend : 0 < s.enc.litLen.toNat → s.enc.litStart + s.enc.litLen.toNat = s.enc.p)
    (hp : s.enc.p ≤ x.length) : Yields (bs ++ pendingStream x s) (x.take s.enc.p) := by
  rw [pendingStream]
  split
  · rename_i h0
    rwa [h0, Nat.sub_zero, ← List.append_nil bs] at h
  · rename_i h0
    have hstop := hend (Nat.pos_of_ne_zero h0)
    have hlen : (pendingBytes x s).length = s.enc.litLen.toNat := by
      rw [pendingBytes, List.length_take, List.length_drop]
      omega
    have hout : x.take (s.enc.p - s.enc.litLen.toNat) ++ pendingBytes x s = x.take s.enc.p := by
      rw [← hstop, Nat.add_sub_cancel, pendingBytes, ← List.take_add]
    have hone := oneInstr_direct (d := pendingBytes x s) (x.take (s.enc.p - s.enc.litLen.toNat)) (by omega) (by omega)
    rw [hlen, hout] at hone
    exact h.oneInstr hone

end Sys2Proof.Machine
end

section
/-! ENC runs (43_encoder.md R171, R172): what has been emitted yields the input before the pending run, every pass keeps that, and
the end of the run completes it. -/

namespace Sys2Proof.Machine

open Sys2Proof.Safety

/-- The invariant of R171 on lists: what has been emitted is whole instructions that make the input before the pending run. -/
def EmittedYields (s : State) : Prop := Yields (emitted s) ((inputBytes s).take (s.enc.p - s.enc.litLen.toNat))

section
variable {s t : State}

theorem Emits.inputBytes {bs : List Byte} {d : Nat} (h : Emits s t bs d) : inputBytes t = inputBytes s := by
  rw [Safety.inputBytes, Safety.inputBytes, h.n, h.frame_eq]
  exact inBytes_congr rfl rfl _ _

theorem length_inputBytes (s : State) : (inputBytes s).length = s.enc.n := length_inBytes s 0 s.enc.n

theorem PendingHeld.litLen_lt (h : PendingHeld s) : s.enc.litLen.toNat < 992 := by
  have := h.1
  rcases encMaxLen_cases s.params with hm | hm <;> omega

/-- With the pending run flushed, what has been emitted makes all the input before the cursor. -/
theorem EmittedYields.flushed (hs : EncRuns s) (h : EmittedYields s) :
    Yields (emitted s ++ pendingInstr s) ((inputBytes s).take s.enc.p) :=
  yields_pendingStream h hs.pending.litLen_lt.le hs.pending.2 (length_inputBytes s ▸ hs.cursor)

/-- The two forms of the invariant say the same of a running encoder. -/
theorem prefixKept_iff (hs : EncRuns s) : PrefixKept s ↔ EmittedYields s :=
  ⟨fun h => yields_of_decodesTo h.1, fun h => ⟨Yields.decodesTo h rfl, (h.flushed hs).decodesTo rfl⟩⟩

theorem emittedYields_encCall (c : Params) (x : List Byte) : EmittedYields (encCall c x) := Yields.nil

/-- A selection is one instruction that takes the input from the cursor on to its end (R167). -/
theorem oneInstr_selection {c : Cand} (hp : s.enc.p < s.enc.n) (hc : selection s = some c) :
    OneInstr (instrBytes c.kind c.len c.payload) ((inputBytes s).take s.enc.p) ((inputBytes s).take (s.enc.p + c.len)) := by
  obtain ⟨hmem, hqual⟩ := select_mem hc
  rw [← length_inputBytes] at hp hmem
  exact oneInstr_candidate hp hmem hqual

/-- The pending run with the byte at the cursor, flushed (R168). -/
theorem EmittedYields.flushed_joinRun (hs : EncRuns s) (h : EmittedYields s) (hp : s.enc.p < s.enc.n) :
    Yields (emitted s ++ pendingStream (inputBytes s) (joinRun s)) ((inputBytes s).take (s.enc.p + 1)) := by
  have hlen : (joinRun s).enc.litLen.toNat = s.enc.litLen.toNat + 1 := joinRun_litLen_toNat hs.pending.1
  have hend : (joinRun s).enc.litStart + (joinRun s).enc.litLen.toNat = s.enc.p + 1 := by
    rw [hlen, joinRun_enc_litStart]
    split
    · omega
    · have := hs.pending.2 (Nat.pos_of_ne_zero ‹_›)
      omega
  refine yields_pendingStream (s := joinRun s) ?_ (hlen ▸ hs.pending.litLen_lt) (fun _ => hend) (length_inputBytes s ▸ hp)
  rwa [hlen, joinRun_enc_p, Nat.add_sub_add_right]

/-- A pass that leaves the encoder running keeps the invariant (R171). -/
theorem Passes.emittedYields (h : Passes s t) (hs : EncRuns s) (hy : EmittedYields s) (ht : t.run = .busy) :
    EmittedYields t := by
  rw [EmittedYields]
  cases h with
  | selected hp hc hem hl =>
    rw [hem.emitted hs.filled, hem.inputBytes, hem.p, hl, ← List.append_assoc, Nat.sub_zero]
    exact (hy.flushed hs).oneInstr (oneInstr_selection hp hc)
  | joins hp hl =>
    have hlen : (joined s).enc.litLen.toNat = s.enc.litLen.toNat + 1 := joinRun_litLen_toNat hl.le
    rw [(emits_joined s).emitted hs.filled, (emits_joined s).inputBytes, (emits_joined s).p, hlen, List.append_nil,
      Nat.add_sub_add_right]
    exact hy
  | flushes hp hmax hem hl =>
    rw [hem.emitted hs.filled, hem.inputBytes, hem.p, hl, Nat.sub_zero]
    exact hy.flushed_joinRun hs hp
  | finishes => simp at ht

end

/-! ## The whole run (43_encoder.md R172) -/

/-- An ENC run on the input `x` with room for two bytes for each byte of it, and the terminator. -/
structure EncodesWithRoom (x : List Byte) (s : State) : Prop where
  runs : EncRuns s
  input : inputBytes s = x
  err : s.err = .none
  room : capFits s.params.outCap (2 * x.length + 1) = true
  size : SizeKept s
  yields : EmittedYields s

/-- An ENC run on the input `x` that has ended: the result is whole instructions that make `x`, and the terminator. -/
structure Encoded (x : List Byte) (t : State) : Prop where
  done : t.run = .done
  err : t.err = .none
  inPos : t.inPos = x.length
  outLen : t.outLen = (resultBytes t).length
  result : ∃ bs, resultBytes t = bs ++ [Config.term] ∧ Yields bs x

section
variable {x : List Byte} {s t : State}

theorem encodesWithRoom_encCall {c : Params} (h : capFits c.outCap (2 * x.length + 1) = true) :
    EncodesWithRoom x (encCall c x) where
  runs := encRuns_encCall c x
  input := inBytes_of_inMem (s := encCall c x) rfl
  err := rfl
  room := h
  size := Nat.zero_le _
  yields := emittedYields_encCall c x

theorem EncodesWithRoom.n_eq (h : EncodesWithRoom x s) : s.enc.n = x.length := by
  rw [← h.input, length_inputBytes]

/-- The end of the run writes the pending run and the terminator (R169). -/
theorem EncodesWithRoom.encoded (h : EncodesWithRoom x s) {u : State} (hp : s.enc.p = s.enc.n)
    (hem : Emits s u (pendingInstr s ++ [Config.term]) 0) : Encoded x (stopEnc u) where
  done := rfl
  err := by
    rw [stopEnc_err, hem.frame_eq]
    exact h.err
  inPos := hem.n.trans h.n_eq
  outLen := hem.length_emitted h.runs.filled
  result := by
    have hy := h.yields.flushed h.runs
    rw [h.input, hp, h.n_eq, List.take_length] at hy
    exact ⟨_, (hem.emitted h.runs.filled).trans (List.append_assoc _ _ _).symm, hy⟩

/-- A step of such a run moves the cursor on, or ends the run. -/
theorem EncodesWithRoom.step (h : EncodesWithRoom x s) : ∃ t, step s = .next t ∧
    (Encoded x t ∨ EncodesWithRoom x t ∧ t.enc.n - t.enc.p < s.enc.n - s.enc.p) := by
  obtain ⟨t, ht, hpass⟩ := step_passes_of_room h.runs h.size (h.n_eq ▸ h.room)
  refine ⟨t, ht, ?_⟩
  by_cases hrun : t.run = .busy
  · obtain ⟨bs, d, hem, hpos, hd, hpend⟩ := hpass.goesOn h.runs hrun
    have hsize := hpass.sizeKept h.runs h.size hrun
    have hn : t.enc.n = x.length := hem.n.trans h.n_eq
    have hp := hem.p
    have hbound : t.enc.olen ≤ 2 * x.length + 1 := by
      have hle := h.runs.cursor
      rw [h.n_eq] at hle hd
      rw [SizeKept] at hsize
      omega
    have hroom : capFits t.params.outCap (2 * x.length + 1) = true := hem.params ▸ h.room
    refine .inr ⟨⟨hpass.encRuns h.runs hrun (capFits_mono hroom hbound), hem.inputBytes.trans h.input, ?_, hroom, hsize,
      hpass.emittedYields h.runs h.yields hrun⟩, ?_⟩
    · rw [hem.frame_eq]
      exact h.err
    · rw [hn, h.n_eq, hp]
      rw [h.n_eq] at hd
      omega
  · obtain ⟨u, rfl, hp, hem⟩ := hpass.ended h.runs hrun
    exact .inl (h.encoded hp hem)

/-- Such a run ends, as its cursor cannot move on for ever. -/
theorem EncodesWithRoom.ends (h : EncodesWithRoom x s) : ∃ t, Reaches s t ∧ Encoded x t := by
  induction hm : s.enc.n - s.enc.p using Nat.strong_induction_on generalizing s with
  | h m ih =>
    obtain ⟨t, ht, hend | ⟨hon, hlt⟩⟩ := h.step
    · exact ⟨t, .head ht (.refl t), hend⟩
    · obtain ⟨v, hv, hend⟩ := ih _ (hm ▸ hlt) hon rfl
      exact ⟨v, .head ht hv, hend⟩

end

end Sys2Proof.Machine
end

section
/-! The obligations of 43_encoder.md. -/

namespace Sys2Proof.Safety

open Sys2Proof.Machine

/-- Settles O47: the fill scans are runs of what they compare with, the increasing fill's modulo 256. -/
theorem fillScansFindTheLargestRun : Obligations.FillScansFindTheLargestRun := by
  intro x n p cap
  refine ⟨largestRun_scanByteFill x p cap, largestRun_scanWordFill x cap, fun h => if_pos h, ?_⟩
  simpa only [BitVec.ofNat_add, BitVec.ofNat_toNat, BitVec.setWidth_eq] using largestRun_scanIncFill x p cap

/-- Settles O48: the match length is a run of equal bytes. -/
theorem matchLengthIsTheLargest : Obligations.MatchLengthIsTheLargest :=
  largestRun_matchLen

/-- Settles O49: the search goes through the distances from 1 on and keeps the first longest match. -/
theorem relativeSearchIsLongestNearest : Obligations.RelativeSearchIsLongestNearest := by
  intro x cap p
  obtain ⟨_, hlargest, _, hattained⟩ := found_searchRelative x cap p
  refine ⟨fun d hd hmax => hlargest d hd (by omega), fun hpos => ?_⟩
  obtain ⟨hge, hlt, hlen, hbelow⟩ := hattained hpos
  exact ⟨hge, by omega, hlen, hbelow⟩

/-- Settles O50: the search goes through the positions from 0 on and keeps the first longest match. -/
theorem absoluteSearchIsLongestFirst : Obligations.AbsoluteSearchIsLongestFirst := by
  intro x cap p
  obtain ⟨_, hlargest, _, hattained⟩ := found_searchAbsolute x cap p
  refine ⟨fun q hq => hlargest q (Nat.zero_le q) (by omega), fun hpos => ?_⟩
  obtain ⟨_, hlt, hlen, hbelow⟩ := hattained hpos
  exact ⟨by omega, hlen, fun q => hbelow q (Nat.zero_le q)⟩

/-- Settles O51: the selection ranks highest, and two candidates of the same rank are of the same kind, hence the same. -/
theorem selectionIsTheBestQualifying : Obligations.SelectionIsTheBestQualifying := by
  intro x p r
  rcases select_cases (candidates x p r) with ⟨hnone, hq⟩ | ⟨c, hc, hbest⟩
  · exact ⟨iff_of_true hnone hq, fun c hc => by simp [hnone] at hc⟩
  · obtain ⟨hmem, hqual⟩ := select_mem hc
    refine ⟨iff_of_false (by simp [hc]) fun h => by simp [h c hmem] at hqual, fun b hb => ?_⟩
    obtain rfl : c = b := Option.some.inj (hc.symm.trans hb)
    refine ⟨hmem, hqual, fun d hd hdq hne => better_iff_rank_lt.mpr ((hbest d hd hdq).lt_of_ne fun he => ?_)⟩
    exact hne (candidates_eq_of_kind_eq hd hmem (kind_eq_of_rank_eq he))

/-- Settles O52: a selection is a candidate, which no scan makes longer than the cap, and it qualifies. -/
theorem selectionKeepsTheLengthCap : Obligations.SelectionKeepsTheLengthCap := by
  intro c x n p d hd
  obtain ⟨hmem, hqual⟩ := select_mem hd
  obtain ⟨hdirect, halt, hseven, hpayload⟩ := candidates_kind_payload hmem
  obtain ⟨hmax, hleft⟩ := le_min_iff.mp (candidates_len_le hmem)
  exact ⟨hleft, hmax, hdirect, halt, hseven, hpayload, length_instrBytes_lt hmem hqual⟩

/-- Settles O53: the capacity test for one byte decides between the append and the fault entry. -/
theorem emitAppendsOrOverflows : Obligations.EmitAppendsOrOverflows := by
  intro b s
  rcases emit_cases b s with ⟨ho, he⟩ | ⟨ho, he⟩
  · have hfull : capFits s.params.outCap (s.enc.olen + 1) = false := by simpa [overflows] using ho
    exact ⟨fun hf => absurd (hf.symm.trans hfull) (by decide), fun _ => he⟩
  · have hroom := overflows_eq_false.mp ho
    exact ⟨fun _ => ⟨_, he, Mem.byteAt_store_self _ _ b, rfl, fun _ => Mem.byteAt_store_other _ _ b, rfl⟩,
      fun hf => absurd (hf.symm.trans hroom) (by decide)⟩

/-- Settles O59: each pass writes at most two bytes for each byte of the input it is done with, so OUT has room for every pass and
for the terminator. -/
theorem encoderNeverOverflows : Obligations.EncoderNeverOverflows := by
  refine ⟨fun c x => Nat.zero_le _, fun s t hinv he hq hk hroom hstep => ?_⟩
  have hs := encRuns_of_inv hinv he hq
  obtain ⟨hn, _⟩ := hinv.encoder he
  obtain ⟨u, hu, hpass⟩ := step_passes_of_room hs hk (hn ▸ hroom)
  cases hstep.symm.trans hu
  refine ⟨fun herr => ?_, hpass.sizeKept hs hk, fun hdone => ?_⟩
  · obtain ⟨v, rfl, _⟩ := hpass.ended hs (by simp [herr])
    cases herr
  · obtain ⟨v, rfl, _, hem⟩ := hpass.ended hs (by simp [hdone])
    have hle := hs.pending.litLen_le
    have hcur := hs.cursor
    have hpending := length_pendingInstr_le s
    rw [SizeKept] at hk
    rw [stopEnc_outLen, hem.olen, List.length_append, List.length_singleton]
    omega

/-- Settles O58: decoding by exhaustion is going through whole instructions, and each pass emits whole instructions that make just
the input it takes from the pending run and the cursor on. -/
theorem encoderKeepsThePrefix : Obligations.EncoderKeepsThePrefix := by
  refine ⟨fun c x => (prefixKept_iff (encRuns_encCall c x)).mpr (emittedYields_encCall c x),
    fun s t hinv he hq hk hstep hrun => ?_⟩
  have hs := encRuns_of_inv hinv he hq
  have hpass := passes_of_busy hs hstep hrun
  obtain ⟨bs, d, hem, _⟩ := hpass.goesOn hs hrun
  have hop : t.op = .compress := hem.frame_eq ▸ he.2
  have hquiet : t.host = [] := hem.frame_eq ▸ hq
  have ht := encRuns_of_inv (everyStepKeepsTheInvariant s t hinv hstep) ⟨hrun, hop⟩ hquiet
  exact (prefixKept_iff ht).mpr (hpass.emittedYields hs ((prefixKept_iff hs).mp hk) hrun)

/-- Settles O60: the encoder's run ends with whole instructions that make the input, and the terminator, and those the decoder
goes through, whatever the parameters of its block. -/
theorem roundTrip : Obligations.RoundTrip := by
  intro x c c' hroom hroom'
  obtain ⟨t, ⟨k, hk⟩, hdone, herr, hpos, hlen, bs, hres, hyields⟩ := (encodesWithRoom_encCall hroom).ends
  exact ⟨k, t, hk, hdone, herr, hpos, hlen, hres ▸ hyields.decodesTo_term hroom'⟩

end Sys2Proof.Safety
end

section
/-! What an instruction leaves that ends in `ERROR` (60_exceptions.md R198, R199). -/

namespace Sys2Proof.Machine

open Sys2Proof.Safety

section
variable {s t : State}

/-- Of the answers of kinds 0 to 3 only the fault entries leave `ERROR`: the append leaves `STATE` as it was. -/
theorem runAppend_faults {hd : Header} {f : DecLatch → DecLatch} {bs : List Byte} (hrun : s.run ≠ .error)
    (h : runAppend hd f bs s = .next t) (hend : t.run = .error) : ∃ e, e ≠ .none ∧ Faults (.next t) s e s.dec.ip := by
  rcases runAppend_cases hd f bs s with ⟨_, e⟩ | ⟨_, _, e⟩ | ⟨_, _, e⟩ <;> rw [h] at e <;> cases e
  · exact ⟨.truncated, by decide, faults_raise _ (headerLatch hd) s⟩
  · exact ⟨.outputOverflow, by decide, faults_raise _ (headerLatch hd) s⟩
  · exact absurd hend hrun

/-- Of the answers of a repeat only the fault entries leave `ERROR`: the copy leaves `STATE` as it was. -/
theorem runRepeat_faults {hd : Header} {f : DecLatch → DecLatch} {src : Option Nat} (hrun : s.run ≠ .error)
    (h : runRepeat hd f src s = .next t) (hend : t.run = .error) : ∃ e, e ≠ .none ∧ Faults (.next t) s e s.dec.ip := by
  rcases runRepeat_cases hd f src s with ⟨_, e⟩ | ⟨_, _, e⟩ | ⟨a, _, _, _, e⟩ | ⟨_, _, _, _, e⟩ <;> rw [h] at e <;> cases e
  · exact ⟨.truncated, by decide, faults_raise _ (headerLatch hd) s⟩
  · exact ⟨.invalidOffset, by decide, faults_raise _ (f ∘ headerLatch hd) s⟩
  · exact ⟨.outputOverflow, by decide, faults_raise _ (srcLatch a ∘ f ∘ headerLatch hd) s⟩
  · exact absurd hend hrun

/-- An instruction, well-formed or not, comes to `ERROR` only by the fault entry at its own position. -/
theorem exec_faults {i : Instr} (hrun : s.run ≠ .error) (h : exec i s = .next t) (hend : t.run = .error) :
    ∃ e, e ≠ .none ∧ Faults (.next t) s e s.dec.ip := by
  cases i with
  | dcopy | bfill | wfill | ifill | dcopyX | bfillX | wfillX | ifillX => exact runAppend_faults hrun h hend
  | rabs | rabsX | rrel | rrelX => exact runRepeat_faults hrun h hend
  | ralt n =>
    cases h
    exact ⟨.unsupportedKind, by decide, faults_raise _ (headerLatch (shortHeader .repAlt n)) s⟩
  | raltX hi lo =>
    cases h
    exact ⟨.unsupportedKind, by decide, faults_raise _ (headerLatch (extHeader .repAlt hi lo)) s⟩
  | extRsvd hi lo =>
    cases h
    exact ⟨.reservedEncoding, by decide, faults_raise _ (headerLatch (extHeader .seven hi lo)) s⟩
  | endStream =>
    cases h
    cases hend

end

end Sys2Proof.Machine
end

section
/-! The obligations of 60_exceptions.md. -/

namespace Sys2Proof.Safety

open Sys2Proof.Machine

/-- Settles O23: the shared operations test before they write, so an instruction that ends in `ERROR` has written latches only. -/
theorem faultsArePrecise : Obligations.FaultsArePrecise :=
  fun _ _ _ hbusy h hend => exec_faults (by simp [hbusy]) h hend

/-- Settles O39: with the host quiet the step is the block's own, and outside a run neither engine acts. -/
theorem idleBlockHolds : Obligations.IdleBlockHolds :=
  fun _ hrun hq => (step_quiet_nil hq).trans (stepEngine_holds hrun)

end Sys2Proof.Safety
end

section
/-! Runs that end (70_reset_and_hazards.md R236), and what START and the host's writes leave (R221, R223). -/

namespace Sys2Proof.Machine

open Sys2Proof.Safety

/-! ## Runs that end (70_reset_and_hazards.md R236) -/

/-- At most `n` steps take the block out of `BUSY`. -/
def EndsWithin (n : Nat) (s : State) : Prop := ∃ k t, k ≤ n ∧ Sys2Proof.core.run k s = .next t ∧ t.run ≠ .busy

/-- A run of the engine `e` in a block that meets the invariant, the host quiet. -/
structure EngineRuns (e : Engine) (s : State) : Prop where
  inv : Inv s
  busy : s.run = .busy
  op : s.op = e
  quiet : s.host = []

section
variable {e : Engine} {n : Nat} {s t : State}

theorem endsWithin_of_not_busy (h : s.run ≠ .busy) : EndsWithin n s := ⟨0, s, Nat.zero_le n, rfl, h⟩

theorem EndsWithin.head (h : step s = .next t) (ht : EndsWithin n t) : EndsWithin (n + 1) s := by
  obtain ⟨k, u, hk, hu, hend⟩ := ht
  exact ⟨k + 1, u, Nat.succ_le_succ hk, (run_succ h k).trans hu, hend⟩

/-- A step that does not end the run leaves a run of the same engine. -/
theorem EngineRuns.goesOn (h : EngineRuns e s) (hstep : step s = .next t) (ht : t.run = .busy) : EngineRuns e t := by
  obtain ⟨_, _, hop, hhost, _⟩ := enginesKeepToTheirOwn s t h.busy h.quiet hstep
  exact ⟨everyStepKeepsTheInvariant s t h.inv hstep, ht, hop.trans h.op, hhost.trans h.quiet⟩

/-- A run ends whose every step either ends it or lowers a measure. -/
theorem EngineRuns.endsWithin {m : State → Nat}
    (lowers : ∀ s t, EngineRuns e s → step s = .next t → t.run = .busy → m t < m s) (h : EngineRuns e s)
    (hm : m s < n) : EndsWithin n s := by
  induction n generalizing s with
  | zero => exact absurd hm (Nat.not_lt_zero _)
  | succ n ih =>
    obtain ⟨t, ht⟩ : ∃ t, step s = .next t := step_quiet_nil h.quiet ▸ stepEngine_total s
    by_cases hrun : t.run = .busy
    · exact (ih (h.goesOn ht hrun) ((lowers s t h ht hrun).trans_le (Nat.le_of_lt_succ hm))).head ht
    · exact (endsWithin_of_not_busy hrun).head ht

/-- An instruction after which a DEC run goes on has at least two bytes, so at most this many are left (40_decoder_loop.md R96). -/
def instrsLeft (s : State) : Nat := bytesLeft s / 2

theorem instrsLeft_lt (h : EngineRuns .decompress s) (hstep : step s = .next t) (ht : t.run = .busy) :
    instrsLeft t < instrsLeft s := by
  obtain ⟨hmoved, hwithin, _⟩ := instructionPointerOnlyIncreases s t ⟨h.busy, h.op⟩ h.quiet hstep ht
  obtain ⟨_, hlen, _⟩ := enginesKeepToTheirOwn s t h.busy h.quiet hstep
  simp only [instrsLeft, bytesLeft, hlen]
  omega

/-- A pass moves the cursor of ENC on by at least one byte (43_encoder.md R167, R168). -/
theorem inputLeft_lt (h : EngineRuns .compress s) (hstep : step s = .next t) (ht : t.run = .busy) :
    t.enc.n - t.enc.p < s.enc.n - s.enc.p := by
  have hs := encRuns_of_inv h.inv ⟨h.busy, h.op⟩ h.quiet
  obtain ⟨_, d, hem, hpos, hleft, _⟩ := (passes_of_busy hs hstep ht).goesOn hs ht
  rw [hem.n, hem.p]
  omega

end

/-! ## Accesses outside a run (10_state.md R25, R26, 20_memory.md R40) -/

section
variable {s : State} {later : List HostTurn} (hr : s.run ≠ .busy)
include hr

/-- The host's turn leaves `STATE` to its action. -/
theorem isBusy_turn : isBusy { s with host := later } = false := isBusy_eq_false hr

/-- A write of `CTRL` with START set. -/
theorem step_writeCtrl {v : BitVec 2} (h : s.host = .act (.writeCtrl v) :: later) (hv : v.getLsbD 0 = true) :
    step s = start (Engine.ofOp (v.getLsbD 1)) { s with host := later } := by
  rw [step_act h]
  simp only [hostAct, hostWriteCtrl, isBusy_turn hr, hv, if_true, Bool.false_eq_true, if_false]

theorem step_writeIn {a : Nat} {b : Byte} (h : s.host = .act (.writeIn a b) :: later)
    (ha : capHas s.params.inCap a = true) : step s = .next { s with host := later, inMem := s.inMem.store a b } := by
  rw [step_act h]
  simp only [hostAct, hostWriteIn, isBusy_turn hr, ha, if_true, Bool.false_eq_true, if_false]

theorem step_writeInLen {n : Nat} (h : s.host = .act (.writeInLen n) :: later) :
    step s = if fitsWidth s.params.aw n then .next { s with host := later, inLen := n } else .refused .inLenOverWidth := by
  rw [step_act h]
  simp only [hostAct, hostWriteInLen, isBusy_turn hr, Bool.false_eq_true, if_false]

end

theorem fitsWidth_iff {aw : Option Nat} {n : Nat} : fitsWidth aw n = true ↔ ∀ w, aw = some w → n < 2 ^ w := by
  cases aw <;> simp

/-- The `CTRL` word reads 0 when `OP` is 0 (10_state.md R25). -/
theorem ctrlWord_of_decompress {s : State} (h : s.op = .decompress) : ctrlWord s = 0#2 := by
  rw [ctrlWord, h]
  rfl

end Sys2Proof.Machine
end

section
/-! The obligations of 70_reset_and_hazards.md. -/

namespace Sys2Proof.Safety

open Sys2Proof.Machine

/-- Settles O31: a step that does not end the run takes at least two bytes off the input left. -/
theorem decoderRunEnds : Obligations.DecoderRunEnds :=
  fun _ hinv ⟨hrun, hop⟩ hq =>
    (EngineRuns.mk hinv hrun hop hq).endsWithin (fun _ _ => instrsLeft_lt) (Nat.lt_succ_self _)

/-- Settles O57: a step that does not end the run moves the cursor on. -/
theorem encoderRunEnds : Obligations.EncoderRunEnds :=
  fun _ hinv ⟨hrun, hop⟩ hq =>
    (EngineRuns.mk hinv hrun hop hq).endsWithin (m := fun s => s.enc.n - s.enc.p) (fun _ _ => inputLeft_lt)
      (Nat.lt_succ_self _)

/-- Settles O40: the write has START set and OP clear, so it is the call start of DEC. -/
theorem startBeginsADecoderRun : Obligations.StartBeginsADecoderRun :=
  fun s later hr hf hh =>
    ⟨startDec { s with host := later }, (step_writeCtrl hr hh rfl).trans (if_pos hf), rfl, rfl, rfl, rfl, rfl, rfl,
      rfl, rfl, rfl, rfl, rfl, rfl, rfl⟩

/-- Settles O41: the write has START and OP set, so it is the call start of ENC. -/
theorem startBeginsAnEncoderRun : Obligations.StartBeginsAnEncoderRun :=
  fun s later hr hf hh =>
    ⟨startEnc { s with host := later }, (step_writeCtrl hr hh rfl).trans (if_pos hf), rfl, rfl, rfl, rfl, rfl, rfl, rfl, rfl,
      rfl, rfl, rfl, rfl, rfl, rfl, rfl⟩

/-- Settles O42: the host's turn comes before the engine's, and power-on reset does not test `STATE`. -/
theorem powerOnResetAbandonsTheRun : Obligations.PowerOnResetAbandonsTheRun :=
  fun _ _ hh => ⟨_, step_act hh, rfl, rfl, rfl, rfl, ctrlWord_of_decompress rfl, rfl, rfl⟩

/-- Settles O45: a write of IN is a store, and a write of `IN_LEN` tests the width only. -/
theorem hostLoadsTheInput : Obligations.HostLoadsTheInput := by
  refine ⟨fun s pos b later hr hh hpos => ?_, fun s n later hr hh hfits => ?_, fun s n w later hr hh haw hwide => ?_⟩
  · exact ⟨_, step_writeIn hr hh hpos, Mem.byteAt_store_self _ pos b, fun _ => Mem.byteAt_store_other _ pos b⟩
  · rw [step_writeInLen hr hh, if_pos (fitsWidth_iff.mpr hfits)]
  · rw [step_writeInLen hr hh, if_neg fun hfits => hwide.not_gt (fitsWidth_iff.mp hfits w haw)]

end Sys2Proof.Safety
end
